-- ==== Sys2Proof/Word.lean ====
section
/-! DEFINITION. The machine's bit vectors: bytes, words and physical addresses (`00_scope.md` R5). -/

namespace Sys2Proof

/-- One byte, the unit of memory (`20_memory.md` R60). -/
abbrev Byte := BitVec 8

/-- One word: a general register, a segment register, IP, an offset (`00_scope.md` R5, `XLEN` = 16). -/
abbrev Word := BitVec 16

/-- A physical address: `PA_BITS` = 20 (`00_scope.md` R5, `20_memory.md` R60). -/
abbrev Addr := BitVec 20

end Sys2Proof
end

