-- ==== Sys2Proof/Config.lean ====
section
/-! DEFINITION. What an implementation fixes, and the free values of the spec (`00_scope.md` R5, R9). None of the
opaque constants has a body: whatever is proved holds for every value they could have. -/

namespace Sys2Proof

/-- The two members of the pair, which the spec treats as one instruction set (`00_scope.md` R1). -/
inductive Cpu where
  | i8086
  | i8088
deriving DecidableEq, Repr, Inhabited

/-- The nine flags (`10_state.md` R26), named as the spec names them. -/
inductive FlagName where
  | CF | PF | AF | ZF | SF | TF | IF | DF | OF
deriving DecidableEq, Repr

namespace Config

/-- Which member of the pair this is. OPEN: no rule but the length of the prefetch queue depends on it (log 15). -/
opaque cpu : Cpu

/-- The longest prefetch queue of the pair (`00_scope.md` R5: 6 on the 8086). -/
def maxPrefetchBytes : Nat := 6

/-- `PREFETCH_BYTES` (`00_scope.md` R5): 6 on the 8086, 4 on the 8088. -/
def prefetchBytes : Nat :=
  match cpu with
  | .i8086 => 6
  | .i8088 => 4

/-- `IDIV_MIN_FAULTS` (`41_arithmetic.md` R254, decision D21): does a most negative quotient raise type 0? OPEN (log 16). -/
opaque idivMinFaults : Bool

/-- FREE VALUE: what flag `f` holds after draw `n` leaves it `undef` (`10_state.md` R33 (a), log 1). -/
opaque undefFlag : (n : Nat) → (f : FlagName) → Bool

/-- FREE VALUE: an `n`-bit result, drawn by draw `k`, of an instruction that reads a flag which is `undef`
(`93_implementation_defined.md` U18, log 1). -/
opaque undefResult : (k n : Nat) → BitVec n

/-- FREE VALUE: a choice, drawn by draw `n`, that reads a flag which is `undef` (`44_control_transfer.md` R356, R358, log 1). -/
opaque undefChoice : (n : Nat) → Bool

/-- FREE VALUE: a word from which draw `n` takes the undefined positions of the stored flags
(`10_state.md` R33 (b), log 2). -/
opaque undefFlagBits : (n : Nat) → Word

/-- FREE VALUE: what general register number `i` (`10_state.md` R20) holds after draw `n` leaves it `undef`: the quotient
and remainder registers of a divide error (`41_arithmetic.md` R253, log 3), every register after RESET (log 5). -/
opaque undefReg : (n : Nat) → (i : Nat) → Word

/-- FREE VALUE: the environment's answer at draw `n` to a byte read of port `p` (`20_memory.md` R82, log 8). -/
opaque portByte : (n : Nat) → (p : Word) → Byte

/-- FREE VALUE: the environment's answer at draw `n` to a word read of port `p` (`20_memory.md` R82, log 8). -/
opaque portWord : (n : Nat) → (p : Word) → Word

end Config

end Sys2Proof
end

