-- ==== Sys2Proof/Syntax.lean ====
section
/-! DEFINITION. The instructions as data. Each row of `spec/opcode_table.json` is one constructor of `Instr` together with one
constructor of that instruction's operand-form type; prefixes are instructions of their own (log 10). Nothing of an
encoding is lost: two byte sequences that differ decode to two terms, but for the rows the table marks `alias_of`. -/

namespace Sys2Proof

/-- The 8-bit registers, in the order of their numbers (`30_encoding.md` R104, column W = 0). -/
inductive Reg8 where
  | al | cl | dl | bl | ah | ch | dh | bh
deriving DecidableEq, Repr

/-- The 16-bit general registers, in the order of their numbers (`30_encoding.md` R104, column W = 1). -/
inductive Reg16 where
  | ax | cx | dx | bx | sp | bp | si | di
deriving DecidableEq, Repr

/-- The segment registers, in the order of their codes (`30_encoding.md` R114). -/
inductive SegReg where
  | es | cs | ss | ds
deriving DecidableEq, Repr

/-- The W bit (`30_encoding.md` R110): byte (0) or word (1) operands. -/
inductive Width where
  | byte
  | word
deriving DecidableEq, Repr

/-- The base and index terms of an effective address, one per R/M value (`30_encoding.md` R106). -/
inductive EaBase where
  | bxSi | bxDi | bpSi | bpDi | si | di | bp | bx
deriving DecidableEq, Repr

/-- The displacement after the ModRM byte (`30_encoding.md` R103, R107). -/
inductive Disp where
  | none
  | d8 (d : Byte)
  | d16 (d : Word)
deriving DecidableEq, Repr

/-- A memory operand of the ModRM byte: the direct address (MOD = 00, R/M = 110) or a base with a displacement. -/
inductive Mem where
  | direct (addr : Word)
  | based (base : EaBase) (disp : Disp)
deriving DecidableEq, Repr

/-- The operand the MOD and R/M fields select: a register of `ρ` (MOD = 11) or memory (`30_encoding.md` R105, R106). -/
inductive RM (ρ : Type) where
  | reg (r : ρ)
  | mem (m : Mem)
deriving DecidableEq, Repr

/-- The ten operand forms of ADD, OR, ADC, SBB, AND, SUB, XOR and CMP, in the order of `41_arithmetic.md` R240. The forms of
opcodes 82 and 83 are listed for five of the eight only (`WellFormed`). -/
inductive AluForm where
  | rm8R8 (dst : RM Reg8) (src : Reg8)
  | rm16R16 (dst : RM Reg16) (src : Reg16)
  | r8Rm8 (dst : Reg8) (src : RM Reg8)
  | r16Rm16 (dst : Reg16) (src : RM Reg16)
  | alImm8 (imm : Byte)
  | axImm16 (imm : Word)
  | rm8Imm8 (dst : RM Reg8) (imm : Byte)
  | rm16Imm16 (dst : RM Reg16) (imm : Word)
  | rm8Imm8Alt (dst : RM Reg8) (imm : Byte)
  | rm16Imm8 (dst : RM Reg16) (imm : Byte)
deriving DecidableEq, Repr

/-- The operand forms of INC and DEC (`41_arithmetic.md` R252, R256): `40+r` / `48+r`, FE, FF. -/
inductive IncForm where
  | r16 (r : Reg16)
  | rm8 (dst : RM Reg8)
  | rm16 (dst : RM Reg16)
deriving DecidableEq, Repr

/-- The byte and word forms of NOT, NEG, MUL, IMUL, DIV and IDIV (opcodes F6, F7; `30_encoding.md` R122). -/
inductive UnaryForm where
  | rm8 (operand : RM Reg8)
  | rm16 (operand : RM Reg16)
deriving DecidableEq, Repr

/-- The V bit (`30_encoding.md` R112): a shift or rotate by 1 or by CL. -/
inductive ShiftCount where
  | one
  | cl
deriving DecidableEq, Repr

/-- The operand forms of the shifts and rotates (opcodes D0 to D3; `42_logic_shift.md` R290). -/
inductive ShiftForm where
  | rm8 (dst : RM Reg8) (count : ShiftCount)
  | rm16 (dst : RM Reg16) (count : ShiftCount)
deriving DecidableEq, Repr

/-- The operand forms of TEST (`42_logic_shift.md` R301): 84, 85, A8, A9, F6 /0, F7 /0. -/
inductive TestForm where
  | rm8R8 (a : RM Reg8) (b : Reg8)
  | rm16R16 (a : RM Reg16) (b : Reg16)
  | alImm8 (imm : Byte)
  | axImm16 (imm : Word)
  | rm8Imm8 (a : RM Reg8) (imm : Byte)
  | rm16Imm16 (a : RM Reg16) (imm : Word)
deriving DecidableEq, Repr

/-- The operand forms of MOV between register and register or memory (`40_data_transfer.md` R206): 88, 89, 8A, 8B. -/
inductive MovForm where
  | rm8R8 (dst : RM Reg8) (src : Reg8)
  | rm16R16 (dst : RM Reg16) (src : Reg16)
  | r8Rm8 (dst : Reg8) (src : RM Reg8)
  | r16Rm16 (dst : Reg16) (src : RM Reg16)
deriving DecidableEq, Repr

/-- The operand forms of MOV with an immediate (`40_data_transfer.md` R209): `B0+r`, `B8+r`, C6, C7. -/
inductive MovImmForm where
  | r8 (dst : Reg8) (imm : Byte)
  | r16 (dst : Reg16) (imm : Word)
  | rm8 (dst : RM Reg8) (imm : Byte)
  | rm16 (dst : RM Reg16) (imm : Word)
deriving DecidableEq, Repr

/-- The operand forms of XCHG (`40_data_transfer.md` R216): 86, 87, `90+r`. -/
inductive XchgForm where
  | r8Rm8 (a : Reg8) (b : RM Reg8)
  | r16Rm16 (a : Reg16) (b : RM Reg16)
  | axR16 (r : Reg16)
deriving DecidableEq, Repr

/-- The operand forms of PUSH and POP (`40_data_transfer.md` R211, R213): a segment register, `50+r` / `58+r`, FF /6 / 8F /0. -/
inductive StackForm where
  | seg (q : SegReg)
  | r16 (r : Reg16)
  | rm16 (operand : RM Reg16)
deriving DecidableEq, Repr

/-- Where IN and OUT take the port number from (`40_data_transfer.md` R201, R210): DATA-8 or DX. -/
inductive Port where
  | imm8 (p : Byte)
  | dx
deriving DecidableEq, Repr

/-- The instructions, in the order of the spec's files 40 to 45. -/
inductive Instr where
  -- 40_data_transfer.md
  | input (w : Width) (p : Port)
  | lahf
  | lds (dst : Reg16) (src : Mem)
  | lea (dst : Reg16) (src : Mem)
  | les (dst : Reg16) (src : Mem)
  | movReg (f : MovForm)
  | movFromSeg (dst : RM Reg16) (q : SegReg)
  | movToSeg (q : SegReg) (src : RM Reg16)
  | movLoad (w : Width) (addr : Word)
  | movStore (w : Width) (addr : Word)
  | movImm (f : MovImmForm)
  | output (w : Width) (p : Port)
  | pop (dst : StackForm)
  | popf
  | push (src : StackForm)
  | pushf
  | sahf
  | xchg (f : XchgForm)
  | xlat
  -- 41_arithmetic.md
  | aaa
  | aad
  | aam
  | aas
  | adc (f : AluForm)
  | add (f : AluForm)
  | cbw
  | cmp (f : AluForm)
  | cwd
  | daa
  | das
  | dec (f : IncForm)
  | div (f : UnaryForm)
  | idiv (f : UnaryForm)
  | imul (f : UnaryForm)
  | inc (f : IncForm)
  | mul (f : UnaryForm)
  | neg (f : UnaryForm)
  | sbb (f : AluForm)
  | sub (f : AluForm)
  -- 42_logic_shift.md
  | and (f : AluForm)
  | not (f : UnaryForm)
  | or (f : AluForm)
  | rcl (f : ShiftForm)
  | rcr (f : ShiftForm)
  | rol (f : ShiftForm)
  | ror (f : ShiftForm)
  | sal (f : ShiftForm)
  | sar (f : ShiftForm)
  | shr (f : ShiftForm)
  | test (f : TestForm)
  | xor (f : AluForm)
  -- 43_string.md
  | cmps (w : Width)
  | lods (w : Width)
  | movs (w : Width)
  | scas (w : Width)
  | stos (w : Width)
  | rep
  | repe
  | repne
  -- 44_control_transfer.md
  | callNear (inc : Word)
  | callNearIndirect (target : RM Reg16)
  | callFar (ip cs : Word)
  | callFarIndirect (target : Mem)
  | int3
  | int (type : Byte)
  | into
  | iret
  | jo (inc : Byte)
  | jno (inc : Byte)
  | jb (inc : Byte)
  | jae (inc : Byte)
  | je (inc : Byte)
  | jne (inc : Byte)
  | jbe (inc : Byte)
  | ja (inc : Byte)
  | js (inc : Byte)
  | jns (inc : Byte)
  | jp (inc : Byte)
  | jnp (inc : Byte)
  | jl (inc : Byte)
  | jge (inc : Byte)
  | jle (inc : Byte)
  | jg (inc : Byte)
  | jc (inc : Byte)
  | jnc (inc : Byte)
  | jcxz (inc : Byte)
  | jmpNear (inc : Word)
  | jmpFar (ip cs : Word)
  | jmpShort (inc : Byte)
  | jmpNearIndirect (target : RM Reg16)
  | jmpFarIndirect (target : Mem)
  | loop (inc : Byte)
  | loope (inc : Byte)
  | loopne (inc : Byte)
  | retNear
  | retNearPop (n : Word)
  | retFar
  | retFarPop (n : Word)
  -- 45_processor_control.md
  | clc
  | cld
  | cli
  | cmc
  | esc (opcode : BitVec 6) (source : RM Reg16)
  | hlt
  | lock
  | nop
  | stc
  | std
  | sti
  | wait
  | esOverride
  | csOverride
  | ssOverride
  | dsOverride
deriving DecidableEq, Repr

end Sys2Proof
end

