-- ==== Sys2Proof/WellFormed.lean ====
section
/-! DEFINITION. Which terms of `Instr` stand for an encoding the spec lists. The syntax admits a few terms that no bytes encode;
each is refused here by one check. -/

namespace Sys2Proof

/-- MOD = 00 with R/M = 110 is the direct address, so `[BP]` has no form without a displacement (`30_encoding.md` R103, R106). -/
def Mem.wellFormed : Mem → Bool
  | .based .bp .none => false
  | _ => true

/-- A register operand is always encodable; a memory operand if its address form is. -/
def RM.wellFormed {ρ : Type} : RM ρ → Bool
  | .reg _ => true
  | .mem m => m.wellFormed

/-- The operands of an ALU form are encodable (`41_arithmetic.md` R240). -/
def AluForm.wellFormed : AluForm → Bool
  | .rm8R8 d _ => d.wellFormed
  | .rm16R16 d _ => d.wellFormed
  | .r8Rm8 _ s => s.wellFormed
  | .r16Rm16 _ s => s.wellFormed
  | .alImm8 _ => true
  | .axImm16 _ => true
  | .rm8Imm8 d _ => d.wellFormed
  | .rm16Imm16 d _ => d.wellFormed
  | .rm8Imm8Alt d _ => d.wellFormed
  | .rm16Imm8 d _ => d.wellFormed

/-- Opcodes 82 and 83 have no sub-code for AND, OR and XOR (`30_encoding.md` R122, R124). -/
def AluForm.listedForLogic : AluForm → Bool
  | .rm8Imm8Alt _ _ => false
  | .rm16Imm8 _ _ => false
  | _ => true

def IncForm.wellFormed : IncForm → Bool
  | .r16 _ => true
  | .rm8 d => d.wellFormed
  | .rm16 d => d.wellFormed

def UnaryForm.wellFormed : UnaryForm → Bool
  | .rm8 d => d.wellFormed
  | .rm16 d => d.wellFormed

def ShiftForm.wellFormed : ShiftForm → Bool
  | .rm8 d _ => d.wellFormed
  | .rm16 d _ => d.wellFormed

def TestForm.wellFormed : TestForm → Bool
  | .rm8R8 a _ => a.wellFormed
  | .rm16R16 a _ => a.wellFormed
  | .alImm8 _ => true
  | .axImm16 _ => true
  | .rm8Imm8 a _ => a.wellFormed
  | .rm16Imm16 a _ => a.wellFormed

def MovForm.wellFormed : MovForm → Bool
  | .rm8R8 d _ => d.wellFormed
  | .rm16R16 d _ => d.wellFormed
  | .r8Rm8 _ s => s.wellFormed
  | .r16Rm16 _ s => s.wellFormed

def MovImmForm.wellFormed : MovImmForm → Bool
  | .r8 _ _ => true
  | .r16 _ _ => true
  | .rm8 d _ => d.wellFormed
  | .rm16 d _ => d.wellFormed

def XchgForm.wellFormed : XchgForm → Bool
  | .r8Rm8 _ b => b.wellFormed
  | .r16Rm16 _ b => b.wellFormed
  | .axR16 _ => true

def StackForm.wellFormed : StackForm → Bool
  | .seg _ => true
  | .r16 _ => true
  | .rm16 d => d.wellFormed

/-- No line lists POP CS (`40_data_transfer.md` R211: 0F is unlisted). -/
def StackForm.poppable : StackForm → Bool
  | .seg .cs => false
  | _ => true

/-- The term stands for an encoding the spec lists. -/
def Instr.wellFormed : Instr → Bool
  | .input _ _ => true
  | .lahf => true
  | .lds _ m => m.wellFormed
  | .lea _ m => m.wellFormed
  | .les _ m => m.wellFormed
  | .movReg f => f.wellFormed
  | .movFromSeg d _ => d.wellFormed
  -- `MOV CS, r/m16` is refused (`40_data_transfer.md` R207, decision D27)
  | .movToSeg q s => decide (q ≠ .cs) && s.wellFormed
  | .movLoad _ _ => true
  | .movStore _ _ => true
  | .movImm f => f.wellFormed
  | .output _ _ => true
  | .pop f => f.poppable && f.wellFormed
  | .popf => true
  | .push f => f.wellFormed
  | .pushf => true
  | .sahf => true
  | .xchg f => f.wellFormed
  | .xlat => true
  | .aaa => true
  | .aad => true
  | .aam => true
  | .aas => true
  | .adc f => f.wellFormed
  | .add f => f.wellFormed
  | .cbw => true
  | .cmp f => f.wellFormed
  | .cwd => true
  | .daa => true
  | .das => true
  | .dec f => f.wellFormed
  | .div f => f.wellFormed
  | .idiv f => f.wellFormed
  | .imul f => f.wellFormed
  | .inc f => f.wellFormed
  | .mul f => f.wellFormed
  | .neg f => f.wellFormed
  | .sbb f => f.wellFormed
  | .sub f => f.wellFormed
  | .and f => f.listedForLogic && f.wellFormed
  | .not f => f.wellFormed
  | .or f => f.listedForLogic && f.wellFormed
  | .rcl f => f.wellFormed
  | .rcr f => f.wellFormed
  | .rol f => f.wellFormed
  | .ror f => f.wellFormed
  | .sal f => f.wellFormed
  | .sar f => f.wellFormed
  | .shr f => f.wellFormed
  | .test f => f.wellFormed
  | .xor f => f.listedForLogic && f.wellFormed
  | .cmps _ => true
  | .lods _ => true
  | .movs _ => true
  | .scas _ => true
  | .stos _ => true
  | .rep => true
  | .repe => true
  | .repne => true
  | .callNear _ => true
  | .callNearIndirect t => t.wellFormed
  | .callFar _ _ => true
  | .callFarIndirect m => m.wellFormed
  | .int3 => true
  | .int _ => true
  | .into => true
  | .iret => true
  | .jo _ => true
  | .jno _ => true
  | .jb _ => true
  | .jae _ => true
  | .je _ => true
  | .jne _ => true
  | .jbe _ => true
  | .ja _ => true
  | .js _ => true
  | .jns _ => true
  | .jp _ => true
  | .jnp _ => true
  | .jl _ => true
  | .jge _ => true
  | .jle _ => true
  | .jg _ => true
  | .jc _ => true
  | .jnc _ => true
  | .jcxz _ => true
  | .jmpNear _ => true
  | .jmpFar _ _ => true
  | .jmpShort _ => true
  | .jmpNearIndirect t => t.wellFormed
  | .jmpFarIndirect m => m.wellFormed
  | .loop _ => true
  | .loope _ => true
  | .loopne _ => true
  | .retNear => true
  | .retNearPop _ => true
  | .retFar => true
  | .retFarPop _ => true
  | .clc => true
  | .cld => true
  | .cli => true
  | .cmc => true
  | .esc _ s => s.wellFormed
  | .hlt => true
  | .lock => true
  | .nop => true
  | .stc => true
  | .std => true
  | .sti => true
  | .wait => true
  | .esOverride => true
  | .csOverride => true
  | .ssOverride => true
  | .dsOverride => true

end Sys2Proof
end

