-- ==== Sys2Proof/Decode.lean ====
section
/-! DEFINITION. From bytes to instructions and back (`30_encoding.md`). `decode` reads one instruction or one prefix byte, answers
it with the bytes that follow, and refuses by name what the spec lists nowhere. `encode` writes the bytes of a
well-formed instruction from the same tables. -/

namespace Sys2Proof

/-! ## Bytes and fields -/

/-- The low-order byte of a word (`20_memory.md` R66). -/
def lowByte (v : Word) : Byte := v.setWidth 8

/-- The high-order byte of a word (`20_memory.md` R66). -/
def highByte (v : Word) : Byte := (v >>> 8).setWidth 8

/-- `hi ++ lo` (`00_scope.md` R8). -/
def wordOf (hi lo : Byte) : Word := hi ++ lo

/-- `sext_16` of a byte (`30_encoding.md` R107, R111, R116). -/
def sextByte (b : Byte) : Word := b.signExtend 16

/-- `zext_16` of a byte (`30_encoding.md` R115). -/
def zextByte (b : Byte) : Word := b.setWidth 16

/-- Register numbers of the byte registers (`30_encoding.md` R104). -/
def Reg8.bits : Reg8 → BitVec 3
  | .al => 0 | .cl => 1 | .dl => 2 | .bl => 3 | .ah => 4 | .ch => 5 | .dh => 6 | .bh => 7

def Reg8.ofBits (b : BitVec 3) : Reg8 :=
  match b.toNat with
  | 0 => .al | 1 => .cl | 2 => .dl | 3 => .bl | 4 => .ah | 5 => .ch | 6 => .dh | _ => .bh

/-- Register numbers of the word registers (`30_encoding.md` R104). -/
def Reg16.bits : Reg16 → BitVec 3
  | .ax => 0 | .cx => 1 | .dx => 2 | .bx => 3 | .sp => 4 | .bp => 5 | .si => 6 | .di => 7

def Reg16.ofBits (b : BitVec 3) : Reg16 :=
  match b.toNat with
  | 0 => .ax | 1 => .cx | 2 => .dx | 3 => .bx | 4 => .sp | 5 => .bp | 6 => .si | _ => .di

/-- Segment register codes (`30_encoding.md` R114). -/
def SegReg.bits : SegReg → BitVec 2
  | .es => 0 | .cs => 1 | .ss => 2 | .ds => 3

def SegReg.ofBits (b : BitVec 2) : SegReg :=
  match b.toNat with
  | 0 => .es | 1 => .cs | 2 => .ss | _ => .ds

/-- R/M values of the address forms (`30_encoding.md` R106; 110 is `[BP+disp]` when a displacement is there). -/
def EaBase.bits : EaBase → BitVec 3
  | .bxSi => 0 | .bxDi => 1 | .bpSi => 2 | .bpDi => 3 | .si => 4 | .di => 5 | .bp => 6 | .bx => 7

def EaBase.ofBits (b : BitVec 3) : EaBase :=
  match b.toNat with
  | 0 => .bxSi | 1 => .bxDi | 2 => .bpSi | 3 => .bpDi | 4 => .si | 5 => .di | 6 => .bp | _ => .bx

/-- Rename the register of a register operand. -/
def RM.map {ρ σ : Type} (f : ρ → σ) : RM ρ → RM σ
  | .reg r => .reg (f r)
  | .mem m => .mem m

/-! ## The ModRM byte -/

/-- The byte `MOD REG R/M` (`30_encoding.md` R102). -/
def modrmByte (mod : BitVec 2) (reg rm : BitVec 3) : Byte := mod ++ reg ++ rm

/-- The ModRM byte and its displacement bytes (`30_encoding.md` R103, R105, R106, R118). -/
def encodeModRM (reg : BitVec 3) : RM (BitVec 3) → List Byte
  | .reg r => [modrmByte 3 reg r]
  | .mem (.direct a) => [modrmByte 0 reg 6, lowByte a, highByte a]
  | .mem (.based b .none) => [modrmByte 0 reg b.bits]
  | .mem (.based b (.d8 d)) => [modrmByte 1 reg b.bits, d]
  | .mem (.based b (.d16 d)) => [modrmByte 2 reg b.bits, lowByte d, highByte d]

/-- REG, the operand of MOD and R/M with its displacement, and the bytes after them (`30_encoding.md` R102 to R107, R120). -/
def decodeModRM : List Byte → Option (BitVec 3 × RM (BitVec 3) × List Byte)
  | [] => none
  | b2 :: rest =>
    let mod : BitVec 2 := b2.extractLsb' 6 2
    let reg : BitVec 3 := b2.extractLsb' 3 3
    let rm : BitVec 3 := b2.extractLsb' 0 3
    if mod = 3 then some (reg, .reg rm, rest)
    else if mod = 0 ∧ rm = 6 then
      match rest with
      | lo :: hi :: rest => some (reg, .mem (.direct (wordOf hi lo)), rest)
      | _ => none
    else if mod = 0 then some (reg, .mem (.based (EaBase.ofBits rm) .none), rest)
    else if mod = 1 then
      match rest with
      | d :: rest => some (reg, .mem (.based (EaBase.ofBits rm) (.d8 d)), rest)
      | _ => none
    else
      match rest with
      | lo :: hi :: rest => some (reg, .mem (.based (EaBase.ofBits rm) (.d16 (wordOf hi lo))), rest)
      | _ => none

/-! ## The opcode map -/

/-- Why bytes are no instruction of the spec. All are safe: the hardware does something undocumented there. -/
inductive DecodeError where
  /-- The bytes end inside an instruction; the step always offers six, so only a caller of `decode` meets it. -/
  | truncated
  /-- `30_encoding.md` R123: a first byte with no entry (0F, 60 to 6F, C0, C1, C8, C9, D6, F1). -/
  | unlistedOpcode (b1 : Byte)
  /-- `30_encoding.md` R124: a group sub-code with no line. -/
  | unlistedSubcode (b1 : Byte) (reg : BitVec 3)
  /-- `40_data_transfer.md` R207: 8C or 8E with `b2[5]` = 1. -/
  | segmentCode (b1 : Byte) (reg : BitVec 3)
  /-- `40_data_transfer.md` R207, decision D27: 8E with SR = 01. -/
  | movToCs
  /-- `30_encoding.md` R125: LEA, LDS, LES, FF /3 or FF /5 with MOD = 11. -/
  | memoryOnly (b1 : Byte)
  /-- `30_encoding.md` R124, decision D16: D4 or D5 with a second byte other than 0A. -/
  | adjustBase (b1 b2 : Byte)
deriving DecidableEq, Repr

/-- What follows the opcode byte, or the ModRM byte and displacement (`30_encoding.md` R100, R118). -/
inductive Tail where
  | done (i : Instr)
  | imm8 (f : Byte → Instr)
  | imm16 (f : Word → Instr)
  | far (f : Word → Word → Instr)
  | base10 (b1 : Byte) (i : Instr)
  | refuse (e : DecodeError)

/-- One entry of the opcode map: whether a ModRM byte follows, and then what. -/
inductive Layout where
  | plain (t : Tail)
  | modrm (f : BitVec 3 → RM (BitVec 3) → Tail)

/-- Read the immediate bytes a tail asks for, low-order byte first (`30_encoding.md` R115, R117). -/
def Tail.parse : Tail → List Byte → Except DecodeError (Instr × List Byte)
  | .done i, rest => .ok (i, rest)
  | .imm8 f, b :: rest => .ok (f b, rest)
  | .imm16 f, lo :: hi :: rest => .ok (f (wordOf hi lo), rest)
  | .far f, ipLo :: ipHi :: csLo :: csHi :: rest => .ok (f (wordOf ipHi ipLo) (wordOf csHi csLo), rest)
  | .base10 b1 i, b2 :: rest => if b2 = 0x0A then .ok (i, rest) else .error (.adjustBase b1 b2)
  | .refuse e, _ => .error e
  | _, _ => .error .truncated

def RM.r8 (rm : RM (BitVec 3)) : RM Reg8 := rm.map Reg8.ofBits

def RM.r16 (rm : RM (BitVec 3)) : RM Reg16 := rm.map Reg16.ofBits

/-- The eight ALU instructions by their number `n` (`41_arithmetic.md` R240). -/
def aluInstr (n : BitVec 3) : AluForm → Instr :=
  match n.toNat with
  | 0 => .add | 1 => .or | 2 => .adc | 3 => .sbb | 4 => .and | 5 => .sub | 6 => .xor | _ => .cmp

/-- The first six opcodes of an ALU instruction (`41_arithmetic.md` R240: `B` to `B+5`). -/
def aluRow (mk : AluForm → Instr) : List Layout :=
  [.modrm fun reg rm => .done (mk (.rm8R8 rm.r8 (Reg8.ofBits reg))),
   .modrm fun reg rm => .done (mk (.rm16R16 rm.r16 (Reg16.ofBits reg))),
   .modrm fun reg rm => .done (mk (.r8Rm8 (Reg8.ofBits reg) rm.r8)),
   .modrm fun reg rm => .done (mk (.r16Rm16 (Reg16.ofBits reg) rm.r16)),
   .plain (.imm8 fun b => mk (.alImm8 b)),
   .plain (.imm16 fun v => mk (.axImm16 v))]

/-- Whether a sub-code is listed under 82 and 83 (`30_encoding.md` R122: not 001, 100, 110). -/
def listedUnder82 (reg : BitVec 3) : Bool := reg != 1 && reg != 4 && reg != 6

/-- The shifts and rotates by sub-code (`42_logic_shift.md` R290); 110 is unlisted. -/
def shiftInstr (b1 : Byte) (reg : BitVec 3) (f : ShiftForm) : Tail :=
  match reg.toNat with
  | 0 => .done (.rol f) | 1 => .done (.ror f) | 2 => .done (.rcl f) | 3 => .done (.rcr f)
  | 4 => .done (.sal f) | 5 => .done (.shr f) | 6 => .refuse (.unlistedSubcode b1 reg) | _ => .done (.sar f)

/-- Group 3 but for TEST (`30_encoding.md` R122): 010 to 111, 001 is unlisted. -/
def group3 (b1 : Byte) (reg : BitVec 3) (f : UnaryForm) : Tail :=
  match reg.toNat with
  | 2 => .done (.not f) | 3 => .done (.neg f) | 4 => .done (.mul f) | 5 => .done (.imul f)
  | 6 => .done (.div f) | 7 => .done (.idiv f) | _ => .refuse (.unlistedSubcode b1 reg)

/-- A memory operand, or the refusal of `30_encoding.md` R125. -/
def memoryOperand (b1 : Byte) (rm : RM (BitVec 3)) (f : Mem → Instr) : Tail :=
  match rm with
  | .reg _ => .refuse (.memoryOnly b1)
  | .mem m => .done (f m)

/-- An opcode with the single sub-code 000 (8F, C6, C7; `30_encoding.md` R122). -/
def onlySubcode0 (b1 : Byte) (reg : BitVec 3) (t : Tail) : Tail :=
  if reg = 0 then t else .refuse (.unlistedSubcode b1 reg)

/-- Group 5 (FF; `30_encoding.md` R122). -/
def group5 (reg : BitVec 3) (rm : RM (BitVec 3)) : Tail :=
  match reg.toNat with
  | 0 => .done (.inc (.rm16 rm.r16)) | 1 => .done (.dec (.rm16 rm.r16))
  | 2 => .done (.callNearIndirect rm.r16) | 3 => memoryOperand 0xFF rm .callFarIndirect
  | 4 => .done (.jmpNearIndirect rm.r16) | 5 => memoryOperand 0xFF rm .jmpFarIndirect
  | 6 => .done (.push (.rm16 rm.r16)) | _ => .refuse (.unlistedSubcode 0xFF reg)

/-- The segment-register MOVs (8C, 8E; `40_data_transfer.md` R207): REG is `0 ++ SR`. -/
def movSegment (b1 : Byte) (reg : BitVec 3) (t : SegReg → Tail) : Tail :=
  if reg.getLsbD 2 then .refuse (.segmentCode b1 reg) else t (SegReg.ofBits (reg.extractLsb' 0 2))

def one (i : Instr) : Layout := .plain (.done i)

def rel8 (f : Byte → Instr) : Layout := .plain (.imm8 f)

def unlisted (b1 : Byte) : Layout := .plain (.refuse (.unlistedOpcode b1))

def allReg16 : List Reg16 := [.ax, .cx, .dx, .bx, .sp, .bp, .si, .di]

def allReg8 : List Reg8 := [.al, .cl, .dl, .bl, .ah, .ch, .dh, .bh]

/-! The map of `30_encoding.md` R121, sixteen first bytes a row. -/

def map0 : List Layout :=
  aluRow .add ++ [one (.push (.seg .es)), one (.pop (.seg .es))] ++
  aluRow .or ++ [one (.push (.seg .cs)), unlisted 0x0F]

def map1 : List Layout :=
  aluRow .adc ++ [one (.push (.seg .ss)), one (.pop (.seg .ss))] ++
  aluRow .sbb ++ [one (.push (.seg .ds)), one (.pop (.seg .ds))]

def map2 : List Layout :=
  aluRow .and ++ [one .esOverride, one .daa] ++ aluRow .sub ++ [one .csOverride, one .das]

def map3 : List Layout :=
  aluRow .xor ++ [one .ssOverride, one .aaa] ++ aluRow .cmp ++ [one .dsOverride, one .aas]

def map4 : List Layout :=
  (allReg16.map fun r => one (.inc (.r16 r))) ++ (allReg16.map fun r => one (.dec (.r16 r)))

def map5 : List Layout :=
  (allReg16.map fun r => one (.push (.r16 r))) ++ (allReg16.map fun r => one (.pop (.r16 r)))

def map6 : List Layout :=
  [unlisted 0x60, unlisted 0x61, unlisted 0x62, unlisted 0x63, unlisted 0x64, unlisted 0x65, unlisted 0x66, unlisted 0x67,
   unlisted 0x68, unlisted 0x69, unlisted 0x6A, unlisted 0x6B, unlisted 0x6C, unlisted 0x6D, unlisted 0x6E, unlisted 0x6F]

def map7 : List Layout :=
  [rel8 .jo, rel8 .jno, rel8 .jb, rel8 .jae, rel8 .je, rel8 .jne, rel8 .jbe, rel8 .ja,
   rel8 .js, rel8 .jns, rel8 .jp, rel8 .jnp, rel8 .jl, rel8 .jge, rel8 .jle, rel8 .jg]

def map8 : List Layout :=
  [.modrm fun reg rm => .imm8 fun v => aluInstr reg (.rm8Imm8 rm.r8 v),
   .modrm fun reg rm => .imm16 fun v => aluInstr reg (.rm16Imm16 rm.r16 v),
   .modrm fun reg rm =>
     if listedUnder82 reg then .imm8 fun v => aluInstr reg (.rm8Imm8Alt rm.r8 v)
     else .refuse (.unlistedSubcode 0x82 reg),
   .modrm fun reg rm =>
     if listedUnder82 reg then .imm8 fun v => aluInstr reg (.rm16Imm8 rm.r16 v)
     else .refuse (.unlistedSubcode 0x83 reg),
   .modrm fun reg rm => .done (.test (.rm8R8 rm.r8 (Reg8.ofBits reg))),
   .modrm fun reg rm => .done (.test (.rm16R16 rm.r16 (Reg16.ofBits reg))),
   .modrm fun reg rm => .done (.xchg (.r8Rm8 (Reg8.ofBits reg) rm.r8)),
   .modrm fun reg rm => .done (.xchg (.r16Rm16 (Reg16.ofBits reg) rm.r16)),
   .modrm fun reg rm => .done (.movReg (.rm8R8 rm.r8 (Reg8.ofBits reg))),
   .modrm fun reg rm => .done (.movReg (.rm16R16 rm.r16 (Reg16.ofBits reg))),
   .modrm fun reg rm => .done (.movReg (.r8Rm8 (Reg8.ofBits reg) rm.r8)),
   .modrm fun reg rm => .done (.movReg (.r16Rm16 (Reg16.ofBits reg) rm.r16)),
   .modrm fun reg rm => movSegment 0x8C reg fun q => .done (.movFromSeg rm.r16 q),
   .modrm fun reg rm => memoryOperand 0x8D rm (.lea (Reg16.ofBits reg)),
   .modrm fun reg rm => movSegment 0x8E reg fun q =>
     if q = .cs then .refuse .movToCs else .done (.movToSeg q rm.r16),
   .modrm fun reg rm => onlySubcode0 0x8F reg (.done (.pop (.rm16 rm.r16)))]

def map9 : List Layout :=
  one .nop :: (allReg16.tail.map fun r => one (.xchg (.axR16 r))) ++
  [one .cbw, one .cwd, .plain (.far .callFar), one .wait, one .pushf, one .popf, one .sahf, one .lahf]

def mapA : List Layout :=
  [.plain (.imm16 (.movLoad .byte)), .plain (.imm16 (.movLoad .word)),
   .plain (.imm16 (.movStore .byte)), .plain (.imm16 (.movStore .word)),
   one (.movs .byte), one (.movs .word), one (.cmps .byte), one (.cmps .word),
   .plain (.imm8 fun b => .test (.alImm8 b)), .plain (.imm16 fun v => .test (.axImm16 v)),
   one (.stos .byte), one (.stos .word), one (.lods .byte), one (.lods .word), one (.scas .byte), one (.scas .word)]

def mapB : List Layout :=
  (allReg8.map fun r => .plain (.imm8 fun b => .movImm (.r8 r b))) ++
  (allReg16.map fun r => .plain (.imm16 fun v => .movImm (.r16 r v)))

def mapC : List Layout :=
  [unlisted 0xC0, unlisted 0xC1, .plain (.imm16 .retNearPop), one .retNear,
   .modrm fun reg rm => memoryOperand 0xC4 rm (.les (Reg16.ofBits reg)),
   .modrm fun reg rm => memoryOperand 0xC5 rm (.lds (Reg16.ofBits reg)),
   .modrm fun reg rm => onlySubcode0 0xC6 reg (.imm8 fun b => .movImm (.rm8 rm.r8 b)),
   .modrm fun reg rm => onlySubcode0 0xC7 reg (.imm16 fun v => .movImm (.rm16 rm.r16 v)),
   unlisted 0xC8, unlisted 0xC9, .plain (.imm16 .retFarPop), one .retFar,
   one .int3, .plain (.imm8 .int), one .into, one .iret]

def mapD : List Layout :=
  [.modrm fun reg rm => shiftInstr 0xD0 reg (.rm8 rm.r8 .one),
   .modrm fun reg rm => shiftInstr 0xD1 reg (.rm16 rm.r16 .one),
   .modrm fun reg rm => shiftInstr 0xD2 reg (.rm8 rm.r8 .cl),
   .modrm fun reg rm => shiftInstr 0xD3 reg (.rm16 rm.r16 .cl),
   .plain (.base10 0xD4 .aam), .plain (.base10 0xD5 .aad), unlisted 0xD6, one .xlat] ++
  ([0, 1, 2, 3, 4, 5, 6, 7].map fun (xxx : BitVec 3) => .modrm fun yyy rm => .done (.esc (xxx ++ yyy) rm.r16))

def mapE : List Layout :=
  [rel8 .loopne, rel8 .loope, rel8 .loop, rel8 .jcxz,
   .plain (.imm8 fun p => .input .byte (.imm8 p)), .plain (.imm8 fun p => .input .word (.imm8 p)),
   .plain (.imm8 fun p => .output .byte (.imm8 p)), .plain (.imm8 fun p => .output .word (.imm8 p)),
   .plain (.imm16 .callNear), .plain (.imm16 .jmpNear), .plain (.far .jmpFar), rel8 .jmpShort,
   one (.input .byte .dx), one (.input .word .dx), one (.output .byte .dx), one (.output .word .dx)]

def mapF : List Layout :=
  [one .lock, unlisted 0xF1, one .repne, one .repe, one .hlt, one .cmc,
   .modrm fun reg rm =>
     if reg = 0 then .imm8 fun v => .test (.rm8Imm8 rm.r8 v) else group3 0xF6 reg (.rm8 rm.r8),
   .modrm fun reg rm =>
     if reg = 0 then .imm16 fun v => .test (.rm16Imm16 rm.r16 v) else group3 0xF7 reg (.rm16 rm.r16),
   one .clc, one .stc, one .cli, one .sti, one .cld, one .std,
   .modrm fun reg rm =>
     if reg = 0 then .done (.inc (.rm8 rm.r8)) else if reg = 1 then .done (.dec (.rm8 rm.r8))
     else .refuse (.unlistedSubcode 0xFE reg),
   .modrm group5]

/-- The whole map: entry `b1` is what the first byte `b1` starts. -/
def opcodeMap : List Layout :=
  map0 ++ map1 ++ map2 ++ map3 ++ map4 ++ map5 ++ map6 ++ map7 ++
  map8 ++ map9 ++ mapA ++ mapB ++ mapC ++ mapD ++ mapE ++ mapF

def layout (b1 : Byte) : Layout := opcodeMap.getD b1.toNat (unlisted b1)

/-- The instruction or prefix byte at the head of the bytes, and the bytes after it (`30_encoding.md` R120, R121, R130). -/
def decode : List Byte → Except DecodeError (Instr × List Byte)
  | [] => .error .truncated
  | b1 :: rest =>
    match layout b1 with
    | .plain t => t.parse rest
    | .modrm f =>
      match decodeModRM rest with
      | none => .error .truncated
      | some (reg, rm, rest) => (f reg rm).parse rest

/-! ## The encoder -/

/-- A word as two bytes of the instruction stream, low-order byte first (`20_memory.md` R66). -/
def wordBytes (v : Word) : List Byte := [lowByte v, highByte v]

/-- The bits of D and W in a two-operand opcode, and of a register in a one-byte opcode: `b1 + k`. -/
def opcodeWith (b1 : Byte) (k : BitVec 3) : Byte := b1 + k.setWidth 8

def Width.bit : Width → BitVec 3
  | .byte => 0
  | .word => 1

/-- The bytes of an ALU form for the instruction of number `n` (`41_arithmetic.md` R240: `B` = 8n). -/
def AluForm.encode (n : BitVec 3) : AluForm → List Byte
  | .rm8R8 d s => (n.setWidth 8 <<< 3) :: encodeModRM s.bits (d.map Reg8.bits)
  | .rm16R16 d s => ((n.setWidth 8 <<< 3) + 1) :: encodeModRM s.bits (d.map Reg16.bits)
  | .r8Rm8 d s => ((n.setWidth 8 <<< 3) + 2) :: encodeModRM d.bits (s.map Reg8.bits)
  | .r16Rm16 d s => ((n.setWidth 8 <<< 3) + 3) :: encodeModRM d.bits (s.map Reg16.bits)
  | .alImm8 v => [(n.setWidth 8 <<< 3) + 4, v]
  | .axImm16 v => ((n.setWidth 8 <<< 3) + 5) :: wordBytes v
  | .rm8Imm8 d v => 0x80 :: encodeModRM n (d.map Reg8.bits) ++ [v]
  | .rm16Imm16 d v => 0x81 :: encodeModRM n (d.map Reg16.bits) ++ wordBytes v
  | .rm8Imm8Alt d v => 0x82 :: encodeModRM n (d.map Reg8.bits) ++ [v]
  | .rm16Imm8 d v => 0x83 :: encodeModRM n (d.map Reg16.bits) ++ [v]

/-- INC (`n` = 0) and DEC (`n` = 1): `40+8n+r`, FE /n, FF /n. -/
def IncForm.encode (n : BitVec 3) : IncForm → List Byte
  | .r16 r => [opcodeWith (0x40 + (n.setWidth 8 <<< 3)) r.bits]
  | .rm8 d => 0xFE :: encodeModRM n (d.map Reg8.bits)
  | .rm16 d => 0xFF :: encodeModRM n (d.map Reg16.bits)

/-- Group 3 with sub-code `n`: F6 /n, F7 /n. -/
def UnaryForm.encode (n : BitVec 3) : UnaryForm → List Byte
  | .rm8 d => 0xF6 :: encodeModRM n (d.map Reg8.bits)
  | .rm16 d => 0xF7 :: encodeModRM n (d.map Reg16.bits)

/-- The shift or rotate with sub-code `n`: D0 /n to D3 /n. -/
def ShiftForm.encode (n : BitVec 3) : ShiftForm → List Byte
  | .rm8 d .one => 0xD0 :: encodeModRM n (d.map Reg8.bits)
  | .rm16 d .one => 0xD1 :: encodeModRM n (d.map Reg16.bits)
  | .rm8 d .cl => 0xD2 :: encodeModRM n (d.map Reg8.bits)
  | .rm16 d .cl => 0xD3 :: encodeModRM n (d.map Reg16.bits)

def TestForm.encode : TestForm → List Byte
  | .rm8R8 a b => 0x84 :: encodeModRM b.bits (a.map Reg8.bits)
  | .rm16R16 a b => 0x85 :: encodeModRM b.bits (a.map Reg16.bits)
  | .alImm8 v => [0xA8, v]
  | .axImm16 v => 0xA9 :: wordBytes v
  | .rm8Imm8 a v => 0xF6 :: encodeModRM 0 (a.map Reg8.bits) ++ [v]
  | .rm16Imm16 a v => 0xF7 :: encodeModRM 0 (a.map Reg16.bits) ++ wordBytes v

def MovForm.encode : MovForm → List Byte
  | .rm8R8 d s => 0x88 :: encodeModRM s.bits (d.map Reg8.bits)
  | .rm16R16 d s => 0x89 :: encodeModRM s.bits (d.map Reg16.bits)
  | .r8Rm8 d s => 0x8A :: encodeModRM d.bits (s.map Reg8.bits)
  | .r16Rm16 d s => 0x8B :: encodeModRM d.bits (s.map Reg16.bits)

def MovImmForm.encode : MovImmForm → List Byte
  | .r8 d v => [opcodeWith 0xB0 d.bits, v]
  | .r16 d v => opcodeWith 0xB8 d.bits :: wordBytes v
  | .rm8 d v => 0xC6 :: encodeModRM 0 (d.map Reg8.bits) ++ [v]
  | .rm16 d v => 0xC7 :: encodeModRM 0 (d.map Reg16.bits) ++ wordBytes v

def XchgForm.encode : XchgForm → List Byte
  | .r8Rm8 a b => 0x86 :: encodeModRM a.bits (b.map Reg8.bits)
  | .r16Rm16 a b => 0x87 :: encodeModRM a.bits (b.map Reg16.bits)
  | .axR16 r => [opcodeWith 0x90 r.bits]

/-- `000 SR 11p` and `001 SR 110`: an opcode with a segment register code in `b1[4:3]` (`30_encoding.md` R114). -/
def segOpcode (b1 : Byte) (q : SegReg) : Byte := b1 + (q.bits.setWidth 8 <<< 3)

/-- E4 to E7 with DATA-8, EC to EF with DX (`40_data_transfer.md` R201, R210); `b1` is E4 for IN and E6 for OUT. -/
def encodePort (b1 : Byte) (w : Width) : Port → List Byte
  | .imm8 p => [opcodeWith b1 w.bit, p]
  | .dx => [opcodeWith (b1 + 8) w.bit]

/-- The bytes of a well-formed instruction (`30_encoding.md` R118, R121, R122). A second name writes the bytes it shares. -/
def encode : Instr → List Byte
  | .input w p => encodePort 0xE4 w p
  | .lahf => [0x9F]
  | .lds d m => 0xC5 :: encodeModRM d.bits (.mem m)
  | .lea d m => 0x8D :: encodeModRM d.bits (.mem m)
  | .les d m => 0xC4 :: encodeModRM d.bits (.mem m)
  | .movReg f => f.encode
  | .movFromSeg d q => 0x8C :: encodeModRM (q.bits.setWidth 3) (d.map Reg16.bits)
  | .movToSeg q s => 0x8E :: encodeModRM (q.bits.setWidth 3) (s.map Reg16.bits)
  | .movLoad w a => opcodeWith 0xA0 w.bit :: wordBytes a
  | .movStore w a => opcodeWith 0xA2 w.bit :: wordBytes a
  | .movImm f => f.encode
  | .output w p => encodePort 0xE6 w p
  | .pop (.seg q) => [segOpcode 0x07 q]
  | .pop (.r16 r) => [opcodeWith 0x58 r.bits]
  | .pop (.rm16 d) => 0x8F :: encodeModRM 0 (d.map Reg16.bits)
  | .popf => [0x9D]
  | .push (.seg q) => [segOpcode 0x06 q]
  | .push (.r16 r) => [opcodeWith 0x50 r.bits]
  | .push (.rm16 s) => 0xFF :: encodeModRM 6 (s.map Reg16.bits)
  | .pushf => [0x9C]
  | .sahf => [0x9E]
  | .xchg f => f.encode
  | .xlat => [0xD7]
  | .aaa => [0x37]
  | .aad => [0xD5, 0x0A]
  | .aam => [0xD4, 0x0A]
  | .aas => [0x3F]
  | .adc f => f.encode 2
  | .add f => f.encode 0
  | .cbw => [0x98]
  | .cmp f => f.encode 7
  | .cwd => [0x99]
  | .daa => [0x27]
  | .das => [0x2F]
  | .dec f => f.encode 1
  | .div f => f.encode 6
  | .idiv f => f.encode 7
  | .imul f => f.encode 5
  | .inc f => f.encode 0
  | .mul f => f.encode 4
  | .neg f => f.encode 3
  | .sbb f => f.encode 3
  | .sub f => f.encode 5
  | .and f => f.encode 4
  | .not f => f.encode 2
  | .or f => f.encode 1
  | .rcl f => f.encode 2
  | .rcr f => f.encode 3
  | .rol f => f.encode 0
  | .ror f => f.encode 1
  | .sal f => f.encode 4
  | .sar f => f.encode 7
  | .shr f => f.encode 5
  | .test f => f.encode
  | .xor f => f.encode 6
  | .cmps w => [opcodeWith 0xA6 w.bit]
  | .lods w => [opcodeWith 0xAC w.bit]
  | .movs w => [opcodeWith 0xA4 w.bit]
  | .scas w => [opcodeWith 0xAE w.bit]
  | .stos w => [opcodeWith 0xAA w.bit]
  | .rep => [0xF3]
  | .repe => [0xF3]
  | .repne => [0xF2]
  | .callNear inc => 0xE8 :: wordBytes inc
  | .callNearIndirect t => 0xFF :: encodeModRM 2 (t.map Reg16.bits)
  | .callFar ip cs => 0x9A :: wordBytes ip ++ wordBytes cs
  | .callFarIndirect m => 0xFF :: encodeModRM 3 (.mem m)
  | .int3 => [0xCC]
  | .int t => [0xCD, t]
  | .into => [0xCE]
  | .iret => [0xCF]
  | .jo d => [0x70, d]
  | .jno d => [0x71, d]
  | .jb d => [0x72, d]
  | .jae d => [0x73, d]
  | .je d => [0x74, d]
  | .jne d => [0x75, d]
  | .jbe d => [0x76, d]
  | .ja d => [0x77, d]
  | .js d => [0x78, d]
  | .jns d => [0x79, d]
  | .jp d => [0x7A, d]
  | .jnp d => [0x7B, d]
  | .jl d => [0x7C, d]
  | .jge d => [0x7D, d]
  | .jle d => [0x7E, d]
  | .jg d => [0x7F, d]
  | .jc d => [0x72, d]
  | .jnc d => [0x73, d]
  | .jcxz d => [0xE3, d]
  | .jmpNear inc => 0xE9 :: wordBytes inc
  | .jmpFar ip cs => 0xEA :: wordBytes ip ++ wordBytes cs
  | .jmpShort d => [0xEB, d]
  | .jmpNearIndirect t => 0xFF :: encodeModRM 4 (t.map Reg16.bits)
  | .jmpFarIndirect m => 0xFF :: encodeModRM 5 (.mem m)
  | .loop d => [0xE2, d]
  | .loope d => [0xE1, d]
  | .loopne d => [0xE0, d]
  | .retNear => [0xC3]
  | .retNearPop n => 0xC2 :: wordBytes n
  | .retFar => [0xCB]
  | .retFarPop n => 0xCA :: wordBytes n
  | .clc => [0xF8]
  | .cld => [0xFC]
  | .cli => [0xFA]
  | .cmc => [0xF5]
  | .esc op s => opcodeWith 0xD8 (op.extractLsb' 3 3) :: encodeModRM (op.extractLsb' 0 3) (s.map Reg16.bits)
  | .hlt => [0xF4]
  | .lock => [0xF0]
  | .nop => [0x90]
  | .stc => [0xF9]
  | .std => [0xFD]
  | .sti => [0xFB]
  | .wait => [0x9B]
  | .esOverride => [segOpcode 0x26 .es]
  | .csOverride => [segOpcode 0x26 .cs]
  | .ssOverride => [segOpcode 0x26 .ss]
  | .dsOverride => [segOpcode 0x26 .ds]

/-! ## Classes of instructions -/

/-- The prefix bytes (`30_encoding.md` R119), with REP, the second name of REPE's byte. -/
def Instr.isPrefix : Instr → Bool
  | .rep | .repe | .repne | .lock | .esOverride | .csOverride | .ssOverride | .dsOverride => true
  | _ => false

/-- The five string instructions (`43_string.md` R330). -/
def Instr.isString : Instr → Bool
  | .cmps _ | .lods _ | .movs _ | .scas _ | .stos _ => true
  | _ => false

/-- The name the decoder answers for a second name of the same bytes (`30_encoding.md` R128, R130: `alias_of`). -/
def Instr.canonical : Instr → Instr
  | .jc d => .jb d
  | .jnc d => .jae d
  | .rep => .repe
  | .xchg (.axR16 .ax) => .nop
  | i => i

/-! ## The opcode table's numbering -/

/-- The bytes of a table word: `spec/opcode_table.json` numbers bits as `(b1 << 8) | b2` (`30_encoding.md` R130), so the first byte
is the most significant of the `nbits`; zeros follow up to the longest instruction (log 21). -/
def tableBytes (nbits w : Nat) : List Byte :=
  (List.range (nbits / 8)).map (fun k => BitVec.ofNat 8 (w >>> (nbits - 8 * (k + 1)))) ++ List.replicate 6 0

/-- The instruction the decoder reads from a table word. -/
def decodeTableWord (nbits w : Nat) : Option Instr :=
  match decode (tableBytes nbits w) with
  | .ok (i, _) => some i
  | .error _ => none

end Sys2Proof
end

