-- ==== Sys2Proof/Machine/State.lean ====
section
/-! DEFINITION. The machine's state as plain data, and the state after reset (`10_state.md` R20 to R38). -/

namespace Sys2Proof.Machine

/-- The eight general registers (`10_state.md` R20). -/
structure Gprs where
  ax : Word
  cx : Word
  dx : Word
  bx : Word
  sp : Word
  bp : Word
  si : Word
  di : Word
deriving DecidableEq, Repr

/-- The four segment registers (`10_state.md` R23). -/
structure SegRegs where
  es : Word
  cs : Word
  ss : Word
  ds : Word
deriving DecidableEq, Repr

/-- Which of the six arithmetic flags hold `undef` (`10_state.md` R33 (a), R38; log 1). -/
structure UndefFlags where
  CF : Bool
  PF : Bool
  AF : Bool
  ZF : Bool
  SF : Bool
  OF : Bool
deriving DecidableEq, Repr

/-- No flag holds `undef`. -/
def UndefFlags.none : UndefFlags := { CF := false, PF := false, AF := false, ZF := false, SF := false, OF := false }

/-- Every arithmetic flag holds `undef`. -/
def UndefFlags.all : UndefFlags := { CF := true, PF := true, AF := true, ZF := true, SF := true, OF := true }

/-- The nine flags (`10_state.md` R26, R34), each of the six arithmetic ones possibly `undef` (R38): then its bit here is a free
value (log 1). The other positions of the stored word hold no state (R33 (b)). -/
structure Flags where
  CF : Bool
  PF : Bool
  AF : Bool
  ZF : Bool
  SF : Bool
  TF : Bool
  IF : Bool
  DF : Bool
  OF : Bool
  undef : UndefFlags
deriving DecidableEq, Repr

/-- The interrupt window (`10_state.md` R35, `60_exceptions.md` R511): what is held off at the next boundary. -/
inductive Window where
  /-- nothing is held off -/
  | closed
  /-- after STI: INTR is held off -/
  | intr
  /-- after MOV or POP to a segment register: NMI, INTR and single-step are held off -/
  | all
deriving DecidableEq, Repr

/-- The repeat prefixes (`30_encoding.md` R113, R119): Z = 0 and Z = 1. -/
inductive RepeatWith where
  | f2
  | f3
deriving DecidableEq, Repr

/-- How far an instruction or an interrupt sequence had come when RESET cut it short (`70_reset_and_hazards.md` R560, log 5). -/
structure Cut where
  /-- The addresses whose stores had been made, in any order: nothing is promised of them. -/
  landed : List Addr
  /-- How many of the events it causes the environment had seen. -/
  seen : Nat
deriving DecidableEq, Repr

/-- When, in what a step does, RESET is activated: it can be at any moment (`70_reset_and_hazards.md` R560, log 5). -/
inductive ResetMoment where
  /-- before any of it -/
  | before
  /-- in the middle of the instruction -/
  | inInstruction (c : Cut)
  /-- after the instruction, in the middle of the interrupt sequences recognised there -/
  | inBoundary (c : Cut)
deriving DecidableEq, Repr

/-- One sample of the processor's input lines (`10_state.md` R36, log 7). -/
structure Lines where
  /-- RESET is activated during this step, and when. -/
  reset : Option ResetMoment
  /-- A request edge on NMI since the last sample. -/
  nmi : Bool
  /-- A further NMI edge during the interrupt sequences of this recognition point (`60_exceptions.md` R510, step 4). -/
  nmiLate : Bool
  /-- INTR is asserted, with the type the environment would supply. -/
  intr : Option Byte
  /-- TEST is active. -/
  test : Bool
deriving DecidableEq, Repr

/-- No request, and TEST active (`10_state.md` R36, decision D39). -/
def Lines.quiet : Lines := { reset := none, nmi := false, nmiLate := false, intr := none, test := true }

/-- What the environment sees besides memory (`20_memory.md` R82, `45_processor_control.md` R424; log 9). -/
inductive BusEvent where
  | portRead8 (port : Word) (v : Byte)
  | portRead16 (port : Word) (v : Word)
  | portWrite8 (port : Word) (v : Byte)
  | portWrite16 (port : Word) (v : Word)
  /-- ESC: the external opcode, and the segment, offset and value of the word read when the source is memory. -/
  | escape (opcode : BitVec 6) (operand : Option (Word × Word × Word))
  /-- The LOCK output becomes active or inactive (`45_processor_control.md` R426, `20_memory.md` R78; log 24). -/
  | lock (active : Bool)
deriving DecidableEq, Repr

/-- The memory space (`20_memory.md` R60): physical address and byte, addresses strictly rising, and no entry equal to
what an unlisted address reads as (`Memory.wf`). -/
abbrev Memory := List Host.Cell

/-- Faults. There are none: no memory or port access can fail, there is no opcode, alignment, stack, protection or
privilege fault (`60_exceptions.md` R507, `20_memory.md` R75), and every interrupt is a next state (R508). -/
inductive Fault where
deriving DecidableEq, Repr

/-- Why a step has no next state: the spec's `refuse` (`00_scope.md` R9). -/
inductive Refusal where
  /-- Raised by `exec`'s arm of an instruction that has no meaning yet. Safe. No arm of this model uses it. -/
  | notModelled (mnemonic : String)
  /-- Raised by `step` when the bytes at CS:IP are no encoding the spec lists (`30_encoding.md` R123, R124, R125). Safe. -/
  | undecoded (e : DecodeError)
  /-- Raised by `step` for F2 or F3 before an opcode that is no string instruction, and F2 before MOVS, LODS or STOS
  (`30_encoding.md` R119, decision D26). Safe. -/
  | meaninglessRepeat
  /-- Raised by `step` where the next instruction has a byte that was stored to while it was one of the next `PREFETCH_BYTES` bytes
  of the instruction stream, with no taken control transfer since (`70_reset_and_hazards.md` R563, decision D14). Safe. -/
  | storeIntoPrefetch
deriving DecidableEq, Repr

/-- The state of the machine (`10_state.md` R38), its input and output lists, and the model's bookkeeping. -/
structure State where
  gpr : Gprs
  segs : SegRegs
  /-- IP; during an instruction it holds `IP_next` (`10_state.md` R25). -/
  ip : Word
  flags : Flags
  mem : Memory
  halted : Bool
  waiting : Bool
  window : Window
  segOverride : Option SegReg
  repeatWith : Option RepeatWith
  /-- The LOCK prefix of the current instruction (`10_state.md` R35). -/
  lockPrefix : Bool
  /-- The repeated string instruction between two of its iterations (`43_string.md` R339). -/
  repeating : Option Instr
  /-- The bytes stored to while they might already be fetched, since the last taken control transfer
  (`20_memory.md` R79, `70_reset_and_hazards.md` R563; log 15). -/
  staleCode : List Addr
  /-- A remembered NMI request (`60_exceptions.md` R503). -/
  nmiPending : Bool
  /-- The samples of the input lines to come, one a step; an exhausted list is quiet (log 7). -/
  inputs : List Lines
  /-- What the environment has seen, latest first (log 9). -/
  events : List BusEvent
  /-- MODEL's own: `IP_start` of the current instruction (`10_state.md` R25; log 11). -/
  ipStart : Word
  /-- MODEL's own: the number of draws of `undef` so far (log 1). -/
  draws : Nat
deriving DecidableEq, Repr

/-- One step's answer. -/
abbrev Result := Host.Outcome State Fault Refusal

/-- All nine flags 0 (`10_state.md` R37). -/
def Flags.cleared : Flags :=
  { CF := false, PF := false, AF := false, ZF := false, SF := false, TF := false, IF := false, DF := false, OF := false
    undef := .none }

/-- The machine right after RESET at power-on (`10_state.md` R37, `70_reset_and_hazards.md` R560). The general registers are
`undef` there; the model names 0 for them (log 4). -/
def State.reset : State where
  gpr := { ax := 0, cx := 0, dx := 0, bx := 0, sp := 0, bp := 0, si := 0, di := 0 }
  segs := { es := 0, cs := 0xFFFF, ss := 0, ds := 0 }
  ip := 0
  flags := Flags.cleared
  mem := []
  halted := false
  waiting := false
  window := .closed
  segOverride := none
  repeatWith := none
  lockPrefix := false
  repeating := none
  staleCode := []
  nmiPending := false
  inputs := []
  events := []
  ipStart := 0
  draws := 0

end Sys2Proof.Machine
end

