-- ==== Sys2Proof/Machine/Flags.lean ====
section
/-! DEFINITION. Every flag computation of the spec, over words of any width (`10_state.md` R26 to R33), and the arithmetic
whose result the flags describe. Nothing here reads or writes the state. -/

namespace Sys2Proof.Machine

/-! ## The stored word -/

/-- One flag at its place in the stored word. -/
def flagBit (b : Bool) (place : Word) : Word := if b then place else 0

/-- The FLAGS word (`10_state.md` R26); its undefined positions 1, 3, 5, 12 to 15 are those of `u` (R33 (b)). -/
def Flags.word (f : Flags) (u : Word) : Word :=
  (u &&& 0xF02A) ||| flagBit f.CF 0x0001 ||| flagBit f.PF 0x0004 ||| flagBit f.AF 0x0010 ||| flagBit f.ZF 0x0040 |||
    flagBit f.SF 0x0080 ||| flagBit f.TF 0x0100 ||| flagBit f.IF 0x0200 ||| flagBit f.DF 0x0400 ||| flagBit f.OF 0x0800

/-- The nine flags of a stored word; the other positions are ignored (`40_data_transfer.md` R212, `10_state.md` R33 (b)). -/
def Flags.ofWord (v : Word) : Flags where
  CF := v.getLsbD 0
  PF := v.getLsbD 2
  AF := v.getLsbD 4
  ZF := v.getLsbD 6
  SF := v.getLsbD 7
  TF := v.getLsbD 8
  IF := v.getLsbD 9
  DF := v.getLsbD 10
  OF := v.getLsbD 11
  undef := .none

/-- The five flags SAHF loads from a byte (`40_data_transfer.md` R215). -/
def Flags.loadLow (f : Flags) (b : Byte) : Flags :=
  { f with
    CF := b.getLsbD 0, PF := b.getLsbD 2, AF := b.getLsbD 4, ZF := b.getLsbD 6, SF := b.getLsbD 7
    undef := { UndefFlags.none with OF := f.undef.OF } }

/-! ## Flags that hold `undef` (`10_state.md` R33 (a); log 1) -/

/-- The flag holds `undef`. TF, IF and DF never do: no flag list has a `u` for them. -/
def Flags.isUndef (f : Flags) : FlagName → Bool
  | .CF => f.undef.CF
  | .PF => f.undef.PF
  | .AF => f.undef.AF
  | .ZF => f.undef.ZF
  | .SF => f.undef.SF
  | .TF => false
  | .IF => false
  | .DF => false
  | .OF => f.undef.OF

/-- One of the flags that are read holds `undef`, so what is computed from them is `undef` (decision D8, U18). -/
def Flags.readsUndef (f : Flags) (reads : List FlagName) : Bool := reads.any f.isUndef

/-- `CF <- b`. -/
def Flags.setCF (f : Flags) (b : Bool) : Flags := { f with CF := b, undef := { f.undef with CF := false } }

/-- CF as it was in `old`, also if it was `undef` (INC and DEC do not alter it: `41_arithmetic.md` R252, R256). -/
def Flags.keepCF (f old : Flags) : Flags := { f with CF := old.CF, undef := { f.undef with CF := old.undef.CF } }

/-! ## Results -/

/-- The number of 1 bits in the low byte is even (`10_state.md` R29). -/
def evenParity {n : Nat} (r : BitVec n) : Bool :=
  ((List.range 8).countP fun i => r.getLsbD i) % 2 == 0

/-- `SZP(r, N)` (`10_state.md` R29). -/
def Flags.szp {n : Nat} (f : Flags) (r : BitVec n) : Flags :=
  { f with
    ZF := r == 0, SF := r.msb, PF := evenParity r
    undef := { f.undef with ZF := false, SF := false, PF := false } }

/-- `AddFlags(a, b, c, N)` (`10_state.md` R30): the sum and the six flags. -/
def addFlags {n : Nat} (a b : BitVec n) (c : Bool) (f : Flags) : BitVec n × Flags :=
  let t := a.toNat + b.toNat + c.toNat
  let r := BitVec.ofNat n t
  (r, { f.szp r with
    CF := decide (2 ^ n ≤ t)
    AF := decide (16 ≤ a.toNat % 16 + b.toNat % 16 + c.toNat)
    OF := a.msb == b.msb && r.msb != a.msb
    undef := .none })

/-- `SubFlags(a, b, c, N)` (`10_state.md` R31): the difference and the six flags. -/
def subFlags {n : Nat} (a b : BitVec n) (c : Bool) (f : Flags) : BitVec n × Flags :=
  let r := BitVec.ofInt n ((a.toNat : Int) - (b.toNat : Int) - (c.toNat : Int))
  (r, { f.szp r with
    CF := decide (a.toNat < b.toNat + c.toNat)
    AF := decide (a.toNat % 16 < b.toNat % 16 + c.toNat)
    OF := a.msb != b.msb && r.msb != a.msb
    undef := .none })

/-- `LogicFlags(r, N)` (`10_state.md` R32); AF is `undef`, draw `n`. -/
def Flags.logic {k : Nat} (n : Nat) (f : Flags) (r : BitVec k) : Flags :=
  { f.szp r with
    OF := false, CF := false, AF := Config.undefFlag n .AF
    undef := { UndefFlags.none with AF := true } }

/-- All six arithmetic flags `undef` (DIV, IDIV: `41_arithmetic.md` R253, R254; ADC after an `undef` CF: R245). -/
def Flags.undefined (n : Nat) (f : Flags) : Flags :=
  { f with
    OF := Config.undefFlag n .OF, SF := Config.undefFlag n .SF, ZF := Config.undefFlag n .ZF
    AF := Config.undefFlag n .AF, PF := Config.undefFlag n .PF, CF := Config.undefFlag n .CF
    undef := .all }

/-- MUL and IMUL (`41_arithmetic.md` R255, R257): CF and OF say whether the upper half matters; SF, ZF, AF, PF are `undef`. -/
def Flags.multiplied (n : Nat) (upperMatters : Bool) (f : Flags) : Flags :=
  { f with
    CF := upperMatters, OF := upperMatters
    SF := Config.undefFlag n .SF, ZF := Config.undefFlag n .ZF
    AF := Config.undefFlag n .AF, PF := Config.undefFlag n .PF
    undef := { UndefFlags.all with CF := false, OF := false } }

/-- AAA and AAS (`41_arithmetic.md` R241, R244): AF and CF say whether an adjustment was made; OF, SF, ZF, PF are `undef`. -/
def Flags.asciiAdjusted (n : Nat) (adjusted : Bool) (f : Flags) : Flags :=
  { f with
    AF := adjusted, CF := adjusted
    OF := Config.undefFlag n .OF, SF := Config.undefFlag n .SF
    ZF := Config.undefFlag n .ZF, PF := Config.undefFlag n .PF
    undef := { UndefFlags.all with AF := false, CF := false } }

/-- AAD and AAM (`41_arithmetic.md` R242, R243): SF, ZF, PF from AL; OF, AF, CF are `undef`. -/
def Flags.asciiScaled (n : Nat) (al : Byte) (f : Flags) : Flags :=
  { f.szp al with
    OF := Config.undefFlag n .OF, AF := Config.undefFlag n .AF, CF := Config.undefFlag n .CF
    undef := { UndefFlags.none with OF := true, AF := true, CF := true } }

/-- DAA and DAS (`41_arithmetic.md` R250, R251): AF and CF as given, SF, ZF, PF from AL; OF is `undef`. -/
def Flags.decimalAdjusted (n : Nat) (al : Byte) (af cf : Bool) (f : Flags) : Flags :=
  { f.szp al with
    AF := af, CF := cf, OF := Config.undefFlag n .OF
    undef := { UndefFlags.none with OF := true } }

/-! ## Shifts and rotates (`42_logic_shift.md` R290) -/

/-- One-bit step of ROL (R296). -/
def rolStep {n : Nat} (p : BitVec n × Bool) : BitVec n × Bool :=
  (BitVec.ofNat n (p.1.toNat * 2 + p.1.msb.toNat), p.1.msb)

/-- One-bit step of ROR (R297). -/
def rorStep {n : Nat} (p : BitVec n × Bool) : BitVec n × Bool :=
  (BitVec.ofNat n (p.1.toNat / 2 + (p.1.getLsbD 0).toNat * 2 ^ (n - 1)), p.1.getLsbD 0)

/-- One-bit step of RCL (R294). -/
def rclStep {n : Nat} (p : BitVec n × Bool) : BitVec n × Bool :=
  (BitVec.ofNat n (p.1.toNat * 2 + p.2.toNat), p.1.msb)

/-- One-bit step of RCR (R295). -/
def rcrStep {n : Nat} (p : BitVec n × Bool) : BitVec n × Bool :=
  (BitVec.ofNat n (p.1.toNat / 2 + p.2.toNat * 2 ^ (n - 1)), p.1.getLsbD 0)

/-- One-bit step of SAL (R298). -/
def salStep {n : Nat} (p : BitVec n × Bool) : BitVec n × Bool :=
  (BitVec.ofNat n (p.1.toNat * 2), p.1.msb)

/-- One-bit step of SAR (R299). -/
def sarStep {n : Nat} (p : BitVec n × Bool) : BitVec n × Bool :=
  (BitVec.ofNat n (p.1.toNat / 2 + p.1.msb.toNat * 2 ^ (n - 1)), p.1.getLsbD 0)

/-- One-bit step of SHR (R300). -/
def shrStep {n : Nat} (p : BitVec n × Bool) : BitVec n × Bool :=
  (BitVec.ofNat n (p.1.toNat / 2), p.1.getLsbD 0)

/-- `repeat count times` (R290). -/
def repeatStep {n : Nat} (f : BitVec n × Bool → BitVec n × Bool) : Nat → BitVec n × Bool → BitVec n × Bool
  | 0, p => p
  | k + 1, p => repeatStep f k (f p)

/-- CF and OF of a shift or rotate by `count` ≠ 0 from `x0` to `x` (R290, decisions D23, D42): OF is `undef` unless the count is 1. -/
def Flags.rotated {k : Nat} (n count : Nat) (x0 x : BitVec k) (cf : Bool) (f : Flags) : Flags :=
  { f with
    CF := cf, OF := if count = 1 then x.msb != x0.msb else Config.undefFlag n .OF
    undef := { f.undef with CF := false, OF := count != 1 } }

/-- RCL and RCR that rotate through an `undef` CF: CF and OF are `undef` too (`93_implementation_defined.md` U18). -/
def Flags.rotatedUndef (n : Nat) (f : Flags) : Flags :=
  { f with
    CF := Config.undefFlag n .CF, OF := Config.undefFlag n .OF
    undef := { f.undef with CF := true, OF := true } }

/-- SAL, SHR and SAR also write SF, ZF, PF from the result and leave AF `undef` (R290, decision D18). -/
def Flags.shifted {k : Nat} (n count : Nat) (x0 x : BitVec k) (cf : Bool) (f : Flags) : Flags :=
  { (f.rotated n count x0 x cf).szp x with
    AF := Config.undefFlag n .AF
    undef := { UndefFlags.none with AF := true, OF := count != 1 } }

/-! ## Division -/

/-- DIV (`41_arithmetic.md` R253): quotient and remainder, or none for a divide error. -/
def unsignedDivide (n num d : Nat) : Option (Nat × Nat) :=
  if d = 0 ∨ 2 ^ n - 1 < num / d then none else some (num / d, num % d)

/-- IDIV (`41_arithmetic.md` R254): truncation toward zero, or none for a divide error. -/
def signedDivide (n : Nat) (num d : Int) : Option (Int × Int) :=
  if d = 0 then none
  else
    let q := num.tdiv d
    if 2 ^ (n - 1) - 1 < q ∨ q < -2 ^ (n - 1) then none
    else if q = -2 ^ (n - 1) ∧ Config.idivMinFaults = true then none
    else some (q, num - q * d)

end Sys2Proof.Machine
end

