-- ==== Sys2Proof/Machine/Ops.lean ====
section
/-! DEFINITION. The named operations over memory, registers, the stack, ports and prefixes, and taking an interrupt and
returning from one. -/

namespace Sys2Proof.Machine

/-! ## Memory (`20_memory.md` R60, R65) -/

/-- What an address that is not listed reads as: power-on memory has no stated contents; the model names 0 (log 6). -/
def Memory.unlisted : Byte := 0

/-- The byte at a physical address (`20_memory.md` R65). -/
def Memory.read : Memory → Nat → Byte
  | [], _ => Memory.unlisted
  | (k, v) :: m, a => if k = a then v else Memory.read m a

/-- Every entry but the one at `a`. -/
def Memory.erase (m : Memory) (a : Nat) : Memory := m.filter fun c => c.1 != a

/-- Put an entry before the first greater address. -/
def Memory.insert : Memory → Nat → Byte → Memory
  | [], a, v => [(a, v)]
  | (k, w) :: m, a, v => if a < k then (a, v) :: (k, w) :: m else (k, w) :: Memory.insert m a v

/-- Replace the byte at a physical address (`20_memory.md` R65), in the canonical form. -/
def Memory.write (m : Memory) (a : Nat) (v : Byte) : Memory :=
  if v = Memory.unlisted then m.erase a else (m.erase a).insert a v

/-- The canonical form: addresses strictly rising and inside the space, no entry equal to an unlisted byte. -/
abbrev Memory.wf (m : Memory) : Prop :=
  m.Pairwise (fun c d => c.1 < d.1) ∧ ∀ c ∈ m, c.2 ≠ Memory.unlisted ∧ c.1 < 2 ^ 20

/-- `Phys(s, off) = (s * 16 + off) mod 2^20` (`20_memory.md` R61). -/
def phys (seg off : Word) : Addr := BitVec.ofNat 20 (seg.toNat * 16 + off.toNat)

/-- `MemRead(addr, 1)`. -/
def State.byteAt (s : State) (a : Addr) : Byte := s.mem.read a.toNat

/-- `SegRead(s, off, 1)` (`00_scope.md` R8). -/
def State.read8 (s : State) (seg off : Word) : Byte := s.byteAt (phys seg off)

/-- `SegRead(s, off, 2)`: little-endian, the second byte at `off + 1 mod 2^16` (`20_memory.md` R66, R69). -/
def State.read16 (s : State) (seg off : Word) : Word := wordOf (s.read8 seg (off + 1)) (s.read8 seg off)

/-- Put a byte in memory: what memory is after `SegWrite(s, off, 1, v)`. -/
def State.write8 (s : State) (seg off : Word) (v : Byte) : State :=
  { s with mem := s.mem.write (phys seg off).toNat v }

/-- Put a word in memory (`20_memory.md` R66, R69). -/
def State.write16 (s : State) (seg off : Word) (v : Word) : State :=
  (s.write8 seg off (lowByte v)).write8 seg (off + 1) (highByte v)

/-- The byte at `a` may already be fetched: it is one of the next `PREFETCH_BYTES` bytes of the instruction stream
(`20_memory.md` R79, decision D14). -/
def State.prefetched (s : State) (a : Addr) : Bool :=
  (List.range Config.maxPrefetchBytes).any fun k =>
    a == phys s.segs.cs (s.ip + BitVec.ofNat 16 k) && decide (k < Config.prefetchBytes)

/-- The bytes to remember after stores to `bytes`: those that are stored to while they may already be fetched, until the next
taken control transfer (`70_reset_and_hazards.md` R563; log 15). -/
def State.noted (s : State) (bytes : List Addr) : List Addr := bytes.filter s.prefetched ++ s.staleCode

/-- `SegWrite(s, off, 1, v)` (`00_scope.md` R8). -/
def State.store8 (s : State) (seg off : Word) (v : Byte) : State :=
  { s.write8 seg off v with staleCode := s.noted [phys seg off] }

/-- `SegWrite(s, off, 2, v)` (`20_memory.md` R66, R69). -/
def State.store16 (s : State) (seg off : Word) (v : Word) : State :=
  { s.write16 seg off v with staleCode := s.noted [phys seg off, phys seg (off + 1)] }

/-! ## Registers (`10_state.md` R20, R21, R23) -/

def Gprs.get (g : Gprs) : Reg16 → Word
  | .ax => g.ax | .cx => g.cx | .dx => g.dx | .bx => g.bx | .sp => g.sp | .bp => g.bp | .si => g.si | .di => g.di

def Gprs.set (g : Gprs) (v : Word) : Reg16 → Gprs
  | .ax => { g with ax := v }
  | .cx => { g with cx := v }
  | .dx => { g with dx := v }
  | .bx => { g with bx := v }
  | .sp => { g with sp := v }
  | .bp => { g with bp := v }
  | .si => { g with si := v }
  | .di => { g with di := v }

/-- `r16[i]`. -/
def State.reg16 (s : State) (r : Reg16) : Word := s.gpr.get r

/-- `r16[i] <- v`. -/
def State.setReg16 (s : State) (r : Reg16) (v : Word) : State := { s with gpr := s.gpr.set v r }

/-- The word register a byte register is half of (`10_state.md` R21). -/
def Reg8Parent : Reg8 → Reg16
  | .al => .ax | .cl => .cx | .dl => .dx | .bl => .bx | .ah => .ax | .ch => .cx | .dh => .dx | .bh => .bx

/-- AH, CH, DH and BH are bits 15:8 of their word register (`10_state.md` R21). -/
def Reg8High : Reg8 → Bool
  | .al => false | .cl => false | .dl => false | .bl => false | .ah => true | .ch => true | .dh => true | .bh => true

/-- `r8[i]` (`10_state.md` R21). -/
def State.reg8 (s : State) (r : Reg8) : Byte :=
  if Reg8High r then highByte (s.reg16 (Reg8Parent r)) else lowByte (s.reg16 (Reg8Parent r))

/-- `r8[i] <- v`: the other half of the word register is unchanged (`10_state.md` R21). -/
def State.setReg8 (s : State) (r : Reg8) (v : Byte) : State :=
  s.setReg16 (Reg8Parent r)
    (if Reg8High r then wordOf v (lowByte (s.reg16 (Reg8Parent r))) else wordOf (highByte (s.reg16 (Reg8Parent r))) v)

def SegRegs.get (q : SegRegs) : SegReg → Word
  | .es => q.es | .cs => q.cs | .ss => q.ss | .ds => q.ds

def SegRegs.set (q : SegRegs) (v : Word) : SegReg → SegRegs
  | .es => { q with es := v }
  | .cs => { q with cs := v }
  | .ss => { q with ss := v }
  | .ds => { q with ds := v }

/-- `sr[i]`. -/
def State.sreg (s : State) (q : SegReg) : Word := s.segs.get q

/-- `DX ++ AX`. -/
def State.dxAx (s : State) : BitVec 32 := s.gpr.dx ++ s.gpr.ax

/-- `DX <- v[31:16]; AX <- v[15:0]`. -/
def State.setDxAx (s : State) (v : BitVec 32) : State :=
  (s.setReg16 .dx (v.extractLsb' 16 16)).setReg16 .ax (v.extractLsb' 0 16)

/-- `sr[i] <- v`. -/
def State.setSreg (s : State) (q : SegReg) (v : Word) : State := { s with segs := s.segs.set v q }

/-- Continue at CS:IP: a taken control transfer, which empties the prefetch queue (`20_memory.md` R79). -/
def State.jumpFar (s : State) (cs ip : Word) : State := { s with ip := ip, segs := s.segs.set cs .cs, staleCode := [] }

/-- Continue at IP, likewise. -/
def State.withIp (s : State) (ip : Word) : State := { s with ip := ip, staleCode := [] }

def State.withFlags (s : State) (f : Flags) : State := { s with flags := f }

/-- One draw of `undef` is used up (`00_scope.md` R9; log 1). -/
def State.nextDraw (s : State) : State := { s with draws := s.draws + 1 }

/-- `IP_next` plus an increment, mod 2^16 (`30_encoding.md` R116): a taken control transfer. -/
def State.branch (s : State) (inc : Word) : State := s.withIp (s.ip + inc)

/-- `if cond: Rel8()` (`44_control_transfer.md` R350, R358). -/
def State.branchIf (s : State) (cond : Bool) (inc : Byte) : State := if cond then s.branch (sextByte inc) else s

/-- A choice that reads the flags `reads`: if one of them is `undef`, so is the choice (`44_control_transfer.md` R356, R358,
`93_implementation_defined.md` U18; log 1). -/
def State.choose (s : State) (reads : List FlagName) (cond : Bool) : Bool :=
  if s.flags.readsUndef reads then Config.undefChoice s.draws else cond

/-- The state after such a choice: an `undef` one is a draw. -/
def State.chosen (s : State) (reads : List FlagName) : State := if s.flags.readsUndef reads then s.nextDraw else s

/-- Open the interrupt window (`60_exceptions.md` R511). -/
def State.openWindow (s : State) (w : Window) : State := { s with window := w }

/-! ## The stack (`20_memory.md` R81) -/

/-- `Push16(v)`. -/
def State.push16 (s : State) (v : Word) : State :=
  (s.setReg16 .sp (s.gpr.sp - 2)).store16 s.segs.ss (s.gpr.sp - 2) v

/-- The word `Pop16()` returns. -/
def State.top16 (s : State) : Word := s.read16 s.segs.ss s.gpr.sp

/-- The state `Pop16()` leaves. -/
def State.drop16 (s : State) : State := s.setReg16 .sp (s.gpr.sp + 2)

/-! ## The environment's side (`10_state.md` R36) -/

/-- The environment sees an event. -/
def State.emit (s : State) (e : BusEvent) : State := { s with events := e :: s.events }

/-- The level of LOCK after these events, latest first; it starts inactive (log 24). -/
def lockLevel : List BusEvent → Bool
  | [] => false
  | .lock b :: _ => b
  | _ :: es => lockLevel es

/-- The LOCK output (`10_state.md` R36): what the events so far have made it. -/
def State.lockOutput (s : State) : Bool := lockLevel s.events

/-- Make the LOCK output active or inactive; the environment sees a change. -/
def State.setLock (s : State) (b : Bool) : State :=
  { s with events := if s.lockOutput = b then s.events else .lock b :: s.events }

/-- The sample of the input lines this step sees. -/
def State.lines (s : State) : Lines := s.inputs.headD Lines.quiet

/-- Do something with LOCK active, if `locks`; then it is as it was before. -/
def State.underLock (s : State) (locks : Bool) (work : State → State) : State :=
  if locks then (work (s.setLock true)).setLock s.lockOutput else work s

/-! ## Prefixes (`30_encoding.md` R119, `20_memory.md` R63) -/

/-- A prefix byte has been read and its instruction has not ended. -/
def State.hasPrefix (s : State) : Bool := s.segOverride.isSome || s.repeatWith.isSome || s.lockPrefix

/-- Prefix state ends with the instruction, and so does what the LOCK prefix asserts (`45_processor_control.md` R426). -/
def State.clearPrefixes (s : State) : State :=
  { s.setLock false with segOverride := none, repeatWith := none, lockPrefix := false }

/-- The segment value of an overridable access whose default is `q` (`20_memory.md` R62, R63). -/
def State.dataSeg (s : State) (q : SegReg) : Word := s.sreg (s.segOverride.getD q)

/-! ## Ports (`20_memory.md` R64, R82) -/

/-- The answer of `PortRead(p, 1)`. -/
def State.portAnswer8 (s : State) (p : Word) : Byte := Config.portByte s.draws p

/-- The answer of `PortRead(p, 2)`. -/
def State.portAnswer16 (s : State) (p : Word) : Word := Config.portWord s.draws p

/-! ## Taking an interrupt and returning from one -/

/-- Where vector `t` stands in segment 0: physical `4 * t` (`20_memory.md` R73). -/
def vectorOffset (t : Byte) : Word := 4 * zextByte t

/-- `Interrupt(t, ip_saved)` with `ip_saved` in IP (`60_exceptions.md` R508): push FLAGS, clear IF and TF, push CS and IP, then
continue at the vector. -/
def State.interrupt (s : State) (t : Byte) : State :=
  let pushed := (s.push16 (s.flags.word (Config.undefFlagBits s.draws))).nextDraw
  let masked := pushed.withFlags { pushed.flags with IF := false, TF := false }
  let framed := (masked.push16 masked.segs.cs).push16 masked.ip
  framed.jumpFar (framed.read16 0 (vectorOffset t + 2)) (framed.read16 0 (vectorOffset t))

/-- IRET (`44_control_transfer.md` R357, `60_exceptions.md` R512): pop IP, CS and the flags. -/
def State.interruptReturn (s : State) : State :=
  let popped := s.drop16.drop16
  (popped.drop16.jumpFar s.drop16.top16 s.top16).withFlags (Flags.ofWord popped.top16)

/-- A byte divide error (`41_arithmetic.md` R253, R254; `60_exceptions.md` R501): AL, AH and six flags `undef`, type 0. -/
def State.divideError8 (s : State) : State :=
  (((s.setReg16 .ax (Config.undefReg s.draws 0)).withFlags (s.flags.undefined s.draws)).nextDraw).interrupt 0

/-- A word divide error: AX, DX and six flags `undef`, type 0. -/
def State.divideError16 (s : State) : State :=
  ((((s.setReg16 .ax (Config.undefReg s.draws 0)).setReg16 .dx (Config.undefReg s.draws 2)).withFlags
    (s.flags.undefined s.draws)).nextDraw).interrupt 0

end Sys2Proof.Machine
end

