-- ==== Sys2Proof/Machine/Operands.lean ====
section
/-! DEFINITION. Operand forms: effective addresses, `ReadRM` and `WriteRM`, and the operands of each form of an instruction
(`30_encoding.md` R104 to R107, `40_data_transfer.md` R200, `41_arithmetic.md` R240). -/

namespace Sys2Proof.Machine

/-! ## Effective addresses -/

/-- Base plus index, mod 2^16 (`30_encoding.md` R106, R107). -/
def State.eaBase (s : State) : EaBase → Word
  | .bxSi => s.gpr.bx + s.gpr.si
  | .bxDi => s.gpr.bx + s.gpr.di
  | .bpSi => s.gpr.bp + s.gpr.si
  | .bpDi => s.gpr.bp + s.gpr.di
  | .si => s.gpr.si
  | .di => s.gpr.di
  | .bp => s.gpr.bp
  | .bx => s.gpr.bx

/-- The displacement: D8 is sign-extended, an absent one is 0 (`30_encoding.md` R107, decision D3). -/
def dispValue : Disp → Word
  | .none => 0
  | .d8 d => sextByte d
  | .d16 d => d

/-- EA (`30_encoding.md` R106, R107). -/
def State.ea (s : State) : Mem → Word
  | .direct a => a
  | .based b d => s.eaBase b + dispValue d

/-- The default segment register: SS for the forms that use BP, DS for every other (`20_memory.md` R62). -/
def defaultSeg : Mem → SegReg
  | .based .bpSi _ => .ss
  | .based .bpDi _ => .ss
  | .based .bp _ => .ss
  | _ => .ds

/-- The value of the segment register a memory operand uses (`20_memory.md` R62, R63). -/
def State.memSeg (s : State) (m : Mem) : Word := s.dataSeg (defaultSeg m)

/-! ## Places -/

/-- Where an operand lives, fixed before the instruction writes anything (`40_data_transfer.md` R200). -/
inductive Loc (ρ : Type) where
  | reg (r : ρ)
  | mem (seg off : Word)
deriving DecidableEq, Repr

/-- The operand is in memory (MOD is not 11). -/
def RmIsMem {ρ : Type} : RM ρ → Bool
  | .reg _ => false
  | .mem _ => true

/-- The place MOD and R/M select. -/
def State.locate {ρ : Type} (s : State) : RM ρ → Loc ρ
  | .reg r => .reg r
  | .mem m => .mem (s.memSeg m) (s.ea m)

/-- `ReadRM(0)`. -/
def State.get8 (s : State) : Loc Reg8 → Byte
  | .reg r => s.reg8 r
  | .mem seg off => s.read8 seg off

/-- `ReadRM(1)`. -/
def State.get16 (s : State) : Loc Reg16 → Word
  | .reg r => s.reg16 r
  | .mem seg off => s.read16 seg off

/-- `WriteRM(0, v)`. -/
def State.put8 (s : State) (v : Byte) : Loc Reg8 → State
  | .reg r => s.setReg8 r v
  | .mem seg off => s.store8 seg off v

/-- `WriteRM(1, v)`. -/
def State.put16 (s : State) (v : Word) : Loc Reg16 → State
  | .reg r => s.setReg16 r v
  | .mem seg off => s.store16 seg off v

/-! ## Operands of the forms -/

/-- A destination, with its width. -/
inductive Dest where
  | byte (l : Loc Reg8)
  | word (l : Loc Reg16)
deriving DecidableEq, Repr

/-- A destination and a source value of the same width. -/
inductive Operands where
  | byte (dst : Loc Reg8) (src : Byte)
  | word (dst : Loc Reg16) (src : Word)
deriving DecidableEq, Repr

/-- The operands of the ten ALU forms (`41_arithmetic.md` R240). -/
def State.aluOperands (s : State) : AluForm → Operands
  | .rm8R8 d r => .byte (s.locate d) (s.reg8 r)
  | .rm16R16 d r => .word (s.locate d) (s.reg16 r)
  | .r8Rm8 d rm => .byte (.reg d) (s.get8 (s.locate rm))
  | .r16Rm16 d rm => .word (.reg d) (s.get16 (s.locate rm))
  | .alImm8 v => .byte (.reg .al) v
  | .axImm16 v => .word (.reg .ax) v
  | .rm8Imm8 d v => .byte (s.locate d) v
  | .rm16Imm16 d v => .word (s.locate d) v
  | .rm8Imm8Alt d v => .byte (s.locate d) v
  | .rm16Imm8 d v => .word (s.locate d) (sextByte v)

/-- The operands of TEST (`42_logic_shift.md` R301). -/
def State.testOperands (s : State) : TestForm → Operands
  | .rm8R8 a r => .byte (s.locate a) (s.reg8 r)
  | .rm16R16 a r => .word (s.locate a) (s.reg16 r)
  | .alImm8 v => .byte (.reg .al) v
  | .axImm16 v => .word (.reg .ax) v
  | .rm8Imm8 a v => .byte (s.locate a) v
  | .rm16Imm16 a v => .word (s.locate a) v

/-- The operands of MOV register/memory (`40_data_transfer.md` R206). -/
def State.movOperands (s : State) : MovForm → Operands
  | .rm8R8 d r => .byte (s.locate d) (s.reg8 r)
  | .rm16R16 d r => .word (s.locate d) (s.reg16 r)
  | .r8Rm8 d rm => .byte (.reg d) (s.get8 (s.locate rm))
  | .r16Rm16 d rm => .word (.reg d) (s.get16 (s.locate rm))

/-- The operands of MOV immediate (`40_data_transfer.md` R209). -/
def State.movImmOperands (s : State) : MovImmForm → Operands
  | .r8 d v => .byte (.reg d) v
  | .r16 d v => .word (.reg d) v
  | .rm8 d v => .byte (s.locate d) v
  | .rm16 d v => .word (s.locate d) v

/-- The destination of INC and DEC (`41_arithmetic.md` R252, R256). -/
def State.incDest (s : State) : IncForm → Dest
  | .r16 r => .word (.reg r)
  | .rm8 d => .byte (s.locate d)
  | .rm16 d => .word (s.locate d)

/-- The operand of NOT, NEG, MUL, IMUL, DIV and IDIV. -/
def State.unaryDest (s : State) : UnaryForm → Dest
  | .rm8 d => .byte (s.locate d)
  | .rm16 d => .word (s.locate d)

/-- The destination of a shift or rotate (`42_logic_shift.md` R290). -/
def State.shiftDest (s : State) : ShiftForm → Dest
  | .rm8 d _ => .byte (s.locate d)
  | .rm16 d _ => .word (s.locate d)

/-- The count of a shift or rotate: 1, or all eight bits of CL (`42_logic_shift.md` R290). -/
def State.shiftCount (s : State) : ShiftForm → Nat
  | .rm8 _ .one => 1
  | .rm16 _ .one => 1
  | .rm8 _ .cl => (s.reg8 .cl).toNat
  | .rm16 _ .cl => (s.reg8 .cl).toNat

/-- The port number: DATA-8 zero-extended, or DX (`40_data_transfer.md` R201, R210). -/
def State.portNumber (s : State) : Port → Word
  | .imm8 p => zextByte p
  | .dx => s.gpr.dx

/-- The first word of a double-word pointer: the offset (`20_memory.md` R67). -/
def State.pointerOffset (s : State) (m : Mem) : Word := s.read16 (s.memSeg m) (s.ea m)

/-- The second word of a double-word pointer: the segment (`20_memory.md` R67). -/
def State.pointerSegment (s : State) (m : Mem) : Word := s.read16 (s.memSeg m) (s.ea m + 2)

/-- The word PUSH pushes (`40_data_transfer.md` R213). -/
def State.stackSource (s : State) : StackForm → Word
  | .seg q => s.sreg q
  | .r16 r => s.reg16 r
  | .rm16 o => s.get16 (s.locate o)

/-! ## Reading, computing and writing back -/

/-- Write a value to a destination of either width. -/
def State.assign (s : State) : Operands → State
  | .byte d v => s.put8 v d
  | .word d v => s.put16 v d

/-- `r <- op(a, b)` with its flags, written to the destination (`41_arithmetic.md` R240). -/
def State.combine (s : State) (op : {n : Nat} → BitVec n → BitVec n → Flags → BitVec n × Flags) : Operands → State
  | .byte d b => (s.withFlags (op (s.get8 d) b s.flags).2).put8 (op (s.get8 d) b s.flags).1 d
  | .word d b => (s.withFlags (op (s.get16 d) b s.flags).2).put16 (op (s.get16 d) b s.flags).1 d

/-- The same for an operation with a carry in: if CF is `undef` on entry, the result and all six flags are `undef`
(`41_arithmetic.md` R245, `93_implementation_defined.md` U18; log 1). -/
def State.combineWithCarry (s : State) (op : {n : Nat} → BitVec n → BitVec n → Flags → BitVec n × Flags) (o : Operands) :
    State :=
  if s.flags.undef.CF then
    s.nextDraw.combine (fun {n} _ _ fl => (Config.undefResult s.draws n, fl.undefined s.draws)) o
  else s.combine op o

/-- The flags of `op(a, b)`, the result discarded (CMP, TEST). -/
def State.compare (s : State) (op : {n : Nat} → BitVec n → BitVec n → Flags → BitVec n × Flags) : Operands → State
  | .byte d b => s.withFlags (op (s.get8 d) b s.flags).2
  | .word d b => s.withFlags (op (s.get16 d) b s.flags).2

/-- `r <- op(a)` with its flags, written back to where `a` was read. -/
def State.modify (s : State) (op : {n : Nat} → BitVec n → Flags → BitVec n × Flags) : Dest → State
  | .byte d => (s.withFlags (op (s.get8 d) s.flags).2).put8 (op (s.get8 d) s.flags).1 d
  | .word d => (s.withFlags (op (s.get16 d) s.flags).2).put16 (op (s.get16 d) s.flags).1 d

end Sys2Proof.Machine
end

