-- ==== Sys2Proof/Machine/Arithmetic.lean ====
section
/-! DEFINITION. The arithmetic instructions (`41_arithmetic.md`). -/

namespace Sys2Proof.Machine

/-- The algorithm AAA and AAS share (R241, R244): `units` and `tens` are what an adjustment adds to AL and AH. It reads AF: if
that is `undef`, so are AX and the flags (`93_implementation_defined.md` U18; log 1). -/
def State.asciiAdjust (s : State) (units tens : Byte) : State :=
  if s.flags.undef.AF then
    ((s.setReg16 .ax (Config.undefResult s.draws 16)).withFlags (s.flags.undefined s.draws)).nextDraw
  else
    let adjust := decide (9 < (s.reg8 .al).toNat % 16) || s.flags.AF
    let al := (if adjust then s.reg8 .al + units else s.reg8 .al) &&& 0x0F
    let ah := if adjust then s.reg8 .ah + tens else s.reg8 .ah
    ((s.setReg16 .ax (wordOf ah al)).withFlags (s.flags.asciiAdjusted s.draws adjust)).nextDraw

/-- The algorithm DAA and DAS share (R250, R251): `units` and `tens` are what the two adjustments add to AL. It reads AF and
CF: if one is `undef`, so are AL and the flags (`93_implementation_defined.md` U18; log 1). -/
def State.decimalAdjust (s : State) (units tens : Byte) : State :=
  if s.flags.readsUndef [.AF, .CF] then
    ((s.setReg8 .al (Config.undefResult s.draws 8)).withFlags (s.flags.undefined s.draws)).nextDraw
  else
    let old := s.reg8 .al
    let low := decide (9 < old.toNat % 16) || s.flags.AF
    let high := decide (0x99 < old.toNat) || s.flags.CF
    let first := if low then old + units else old
    let al := if high then first + tens else first
    ((s.setReg8 .al al).withFlags (s.flags.decimalAdjusted s.draws al low high)).nextDraw

/-- AAA (R241, decision D24). -/
def execAaa (s : State) : Result := .next (s.asciiAdjust 6 1)

/-- AAD (R242, decision D24). -/
def execAad (s : State) : Result :=
  let al := BitVec.ofNat 8 ((s.reg8 .ah).toNat * 10 + (s.reg8 .al).toNat)
  .next (((s.setReg16 .ax (zextByte al)).withFlags (s.flags.asciiScaled s.draws al)).nextDraw)

/-- AAM (R243, decision D24). -/
def execAam (s : State) : Result :=
  let al := BitVec.ofNat 8 ((s.reg8 .al).toNat % 10)
  let ah := BitVec.ofNat 8 ((s.reg8 .al).toNat / 10)
  .next (((s.setReg16 .ax (wordOf ah al)).withFlags (s.flags.asciiScaled s.draws al)).nextDraw)

/-- AAS (R244, decision D24). -/
def execAas (s : State) : Result := .next (s.asciiAdjust (-6) (-1))

/-- ADC (R245). -/
def execAdc (f : AluForm) (s : State) : Result :=
  .next (s.combineWithCarry (fun a b fl => addFlags a b fl.CF fl) (s.aluOperands f))

/-- ADD (R246). -/
def execAdd (f : AluForm) (s : State) : Result :=
  .next (s.combine (fun a b fl => addFlags a b false fl) (s.aluOperands f))

/-- CBW (R247). -/
def execCbw (s : State) : Result := .next (s.setReg16 .ax (sextByte (s.reg8 .al)))

/-- CMP (R248). -/
def execCmp (f : AluForm) (s : State) : Result :=
  .next (s.compare (fun a b fl => subFlags a b false fl) (s.aluOperands f))

/-- CWD (R249). -/
def execCwd (s : State) : Result := .next (s.setReg16 .dx (if s.gpr.ax.msb then 0xFFFF else 0x0000))

/-- DAA (R250, decision D24; log 27). -/
def execDaa (s : State) : Result := .next (s.decimalAdjust 6 0x60)

/-- DAS (R251, decision D24; log 27). -/
def execDas (s : State) : Result := .next (s.decimalAdjust (-6) (-0x60))

/-- DEC (R252): CF is not altered. -/
def execDec (f : IncForm) (s : State) : Result :=
  .next (s.modify (fun a fl => ((subFlags a 1 false fl).1, (subFlags a 1 false fl).2.keepCF fl)) (s.incDest f))

/-- DIV (R253, decision D22). -/
def execDiv (f : UnaryForm) (s : State) : Result :=
  match s.unaryDest f with
  | .byte d =>
    match unsignedDivide 8 s.gpr.ax.toNat (s.get8 d).toNat with
    | some (q, r) =>
      .next (((s.setReg16 .ax (wordOf (BitVec.ofNat 8 r) (BitVec.ofNat 8 q))).withFlags
        (s.flags.undefined s.draws)).nextDraw)
    | none => .next s.divideError8
  | .word d =>
    match unsignedDivide 16 s.dxAx.toNat (s.get16 d).toNat with
    | some (q, r) =>
      .next ((((s.setReg16 .ax (BitVec.ofNat 16 q)).setReg16 .dx (BitVec.ofNat 16 r)).withFlags
        (s.flags.undefined s.draws)).nextDraw)
    | none => .next s.divideError16

/-- IDIV (R254, decisions D21, D22). -/
def execIdiv (f : UnaryForm) (s : State) : Result :=
  match s.unaryDest f with
  | .byte d =>
    match signedDivide 8 s.gpr.ax.toInt (s.get8 d).toInt with
    | some (q, r) =>
      .next (((s.setReg16 .ax (wordOf (BitVec.ofInt 8 r) (BitVec.ofInt 8 q))).withFlags
        (s.flags.undefined s.draws)).nextDraw)
    | none => .next s.divideError8
  | .word d =>
    match signedDivide 16 s.dxAx.toInt (s.get16 d).toInt with
    | some (q, r) =>
      .next ((((s.setReg16 .ax (BitVec.ofInt 16 q)).setReg16 .dx (BitVec.ofInt 16 r)).withFlags
        (s.flags.undefined s.draws)).nextDraw)
    | none => .next s.divideError16

/-- IMUL (R255): CF and OF are clear iff the upper half is the sign extension of the lower. -/
def execImul (f : UnaryForm) (s : State) : Result :=
  match s.unaryDest f with
  | .byte d =>
    let p := BitVec.ofInt 16 ((s.reg8 .al).toInt * (s.get8 d).toInt)
    .next (((s.setReg16 .ax p).withFlags (s.flags.multiplied s.draws (p != sextByte (lowByte p)))).nextDraw)
  | .word d =>
    let p := BitVec.ofInt 32 (s.gpr.ax.toInt * (s.get16 d).toInt)
    .next (((s.setDxAx p).withFlags
      (s.flags.multiplied s.draws (p != (p.extractLsb' 0 16).signExtend 32))).nextDraw)

/-- INC (R256): CF is not altered. -/
def execInc (f : IncForm) (s : State) : Result :=
  .next (s.modify (fun a fl => ((addFlags a 1 false fl).1, (addFlags a 1 false fl).2.keepCF fl)) (s.incDest f))

/-- MUL (R257): CF and OF are set iff the upper half is not zero. -/
def execMul (f : UnaryForm) (s : State) : Result :=
  match s.unaryDest f with
  | .byte d =>
    let p := BitVec.ofNat 16 ((s.reg8 .al).toNat * (s.get8 d).toNat)
    .next (((s.setReg16 .ax p).withFlags (s.flags.multiplied s.draws (highByte p != 0))).nextDraw)
  | .word d =>
    let p := BitVec.ofNat 32 (s.gpr.ax.toNat * (s.get16 d).toNat)
    .next (((s.setDxAx p).withFlags (s.flags.multiplied s.draws (p.extractLsb' 16 16 != 0))).nextDraw)

/-- NEG (R258, decision D19). -/
def execNeg (f : UnaryForm) (s : State) : Result :=
  .next (s.modify (fun a fl => subFlags 0 a false fl) (s.unaryDest f))

/-- SBB (R259). -/
def execSbb (f : AluForm) (s : State) : Result :=
  .next (s.combineWithCarry (fun a b fl => subFlags a b fl.CF fl) (s.aluOperands f))

/-- SUB (R260). -/
def execSub (f : AluForm) (s : State) : Result :=
  .next (s.combine (fun a b fl => subFlags a b false fl) (s.aluOperands f))

end Sys2Proof.Machine
end

