-- ==== Sys2Proof/Machine/Control.lean ====
section
/-! DEFINITION. The control transfer instructions (`44_control_transfer.md`). -/

namespace Sys2Proof.Machine

/-- CALL, intrasegment direct (R351). -/
def execCallNear (inc : Word) (s : State) : Result := .next ((s.push16 s.ip).branch inc)

/-- CALL, intrasegment indirect (R352, decision D20): the operand is read before the push. -/
def execCallNearIndirect (target : RM Reg16) (s : State) : Result :=
  .next ((s.push16 s.ip).withIp (s.get16 (s.locate target)))

/-- CALL, intersegment direct (R353). -/
def execCallFar (ip cs : Word) (s : State) : Result := .next (((s.push16 s.segs.cs).push16 s.ip).jumpFar cs ip)

/-- CALL, intersegment indirect (R354). -/
def execCallFarIndirect (target : Mem) (s : State) : Result :=
  .next (((s.push16 s.segs.cs).push16 s.ip).jumpFar (s.pointerSegment target) (s.pointerOffset target))

/-- INT 3, the one-byte form (R355). -/
def execInt3 (s : State) : Result := .next (s.interrupt 3)

/-- INT (R355). -/
def execInt (type : Byte) (s : State) : Result := .next (s.interrupt type)

/-- INTO (R356). -/
def execInto (s : State) : Result :=
  .next (if s.choose [.OF] s.flags.OF then (s.chosen [.OF]).interrupt 4 else s.chosen [.OF])

/-- IRET (R357). -/
def execIret (s : State) : Result := .next s.interruptReturn

/-- `if cond: Rel8()`, where `cond` reads the flags `reads` (R358). -/
def State.jumpIf (s : State) (reads : List FlagName) (cond : Bool) (inc : Byte) : State :=
  (s.chosen reads).branchIf (s.choose reads cond) inc

/-- JO (R375). -/
def execJo (inc : Byte) (s : State) : Result := .next (s.jumpIf [.OF] s.flags.OF inc)

/-- JNO (R372). -/
def execJno (inc : Byte) (s : State) : Result := .next (s.jumpIf [.OF] (!s.flags.OF) inc)

/-- JB (R361). -/
def execJb (inc : Byte) (s : State) : Result := .next (s.jumpIf [.CF] s.flags.CF inc)

/-- JAE (R360). -/
def execJae (inc : Byte) (s : State) : Result := .next (s.jumpIf [.CF] (!s.flags.CF) inc)

/-- JE (R365). -/
def execJe (inc : Byte) (s : State) : Result := .next (s.jumpIf [.ZF] s.flags.ZF inc)

/-- JNE (R371). -/
def execJne (inc : Byte) (s : State) : Result := .next (s.jumpIf [.ZF] (!s.flags.ZF) inc)

/-- JBE (R362). -/
def execJbe (inc : Byte) (s : State) : Result := .next (s.jumpIf [.CF, .ZF] (s.flags.CF || s.flags.ZF) inc)

/-- JA (R359). -/
def execJa (inc : Byte) (s : State) : Result := .next (s.jumpIf [.CF, .ZF] (!s.flags.CF && !s.flags.ZF) inc)

/-- JS (R377). -/
def execJs (inc : Byte) (s : State) : Result := .next (s.jumpIf [.SF] s.flags.SF inc)

/-- JNS (R374). -/
def execJns (inc : Byte) (s : State) : Result := .next (s.jumpIf [.SF] (!s.flags.SF) inc)

/-- JP (R376). -/
def execJp (inc : Byte) (s : State) : Result := .next (s.jumpIf [.PF] s.flags.PF inc)

/-- JNP (R373). -/
def execJnp (inc : Byte) (s : State) : Result := .next (s.jumpIf [.PF] (!s.flags.PF) inc)

/-- JL (R368). -/
def execJl (inc : Byte) (s : State) : Result := .next (s.jumpIf [.SF, .OF] (s.flags.SF != s.flags.OF) inc)

/-- JGE (R367). -/
def execJge (inc : Byte) (s : State) : Result := .next (s.jumpIf [.SF, .OF] (s.flags.SF == s.flags.OF) inc)

/-- JLE (R369). -/
def execJle (inc : Byte) (s : State) : Result :=
  .next (s.jumpIf [.ZF, .SF, .OF] (s.flags.ZF || s.flags.SF != s.flags.OF) inc)

/-- JG (R366). -/
def execJg (inc : Byte) (s : State) : Result :=
  .next (s.jumpIf [.ZF, .SF, .OF] (!s.flags.ZF && s.flags.SF == s.flags.OF) inc)

/-- JC (R363), the second name of JB's bytes. -/
def execJc (inc : Byte) (s : State) : Result := .next (s.jumpIf [.CF] s.flags.CF inc)

/-- JNC (R370), the second name of JAE's bytes. -/
def execJnc (inc : Byte) (s : State) : Result := .next (s.jumpIf [.CF] (!s.flags.CF) inc)

/-- JCXZ (R364). -/
def execJcxz (inc : Byte) (s : State) : Result := .next (s.branchIf (s.gpr.cx == 0) inc)

/-- JMP, intrasegment direct, near (R378). -/
def execJmpNear (inc : Word) (s : State) : Result := .next (s.branch inc)

/-- JMP, intersegment direct (R379). -/
def execJmpFar (ip cs : Word) (s : State) : Result := .next (s.jumpFar cs ip)

/-- JMP, intrasegment direct, short (R380). -/
def execJmpShort (inc : Byte) (s : State) : Result := .next (s.branch (sextByte inc))

/-- JMP, intrasegment indirect (R381). -/
def execJmpNearIndirect (target : RM Reg16) (s : State) : Result := .next (s.withIp (s.get16 (s.locate target)))

/-- JMP, intersegment indirect (R382): both words are read first. -/
def execJmpFarIndirect (target : Mem) (s : State) : Result :=
  .next (s.jumpFar (s.pointerSegment target) (s.pointerOffset target))

/-- `CX <- (CX - 1) mod 2^16`; no flag is affected (R383). -/
def State.countDown (s : State) : State := s.setReg16 .cx (s.gpr.cx - 1)

/-- LOOP (R383). -/
def execLoop (inc : Byte) (s : State) : Result := .next (s.countDown.branchIf (s.gpr.cx - 1 != 0) inc)

/-- LOOPE (R384). -/
def execLoope (inc : Byte) (s : State) : Result :=
  .next ((s.chosen [.ZF]).countDown.branchIf (s.gpr.cx - 1 != 0 && s.choose [.ZF] s.flags.ZF) inc)

/-- LOOPNE (R385). -/
def execLoopne (inc : Byte) (s : State) : Result :=
  .next ((s.chosen [.ZF]).countDown.branchIf (s.gpr.cx - 1 != 0 && s.choose [.ZF] (!s.flags.ZF)) inc)

/-- `SP <- (SP + n) mod 2^16`, after the pops of a RET with a pop value (R386). -/
def State.discard (s : State) (n : Word) : State := s.setReg16 .sp (s.gpr.sp + n)

/-- RET, intrasegment (R386: C3). -/
def execRetNear (s : State) : Result := .next (s.drop16.withIp s.top16)

/-- RET, intrasegment, with a pop value (R386: C2). -/
def execRetNearPop (n : Word) (s : State) : Result := .next ((s.drop16.withIp s.top16).discard n)

/-- RET, intersegment (R387: CB). -/
def execRetFar (s : State) : Result := .next (s.drop16.drop16.jumpFar s.drop16.top16 s.top16)

/-- RET, intersegment, with a pop value (R387: CA). -/
def execRetFarPop (n : Word) (s : State) : Result :=
  .next ((s.drop16.drop16.jumpFar s.drop16.top16 s.top16).discard n)

end Sys2Proof.Machine
end

