-- ==== Sys2Proof/Machine/DataTransfer.lean ====
section
/-! DEFINITION. The data transfer instructions (`40_data_transfer.md`). IP holds `IP_next` when a meaning runs. -/

namespace Sys2Proof.Machine

/-- IN (R201). -/
def execInput (w : Width) (p : Port) (s : State) : Result :=
  let n := s.portNumber p
  match w with
  | .byte => .next (((s.setReg8 .al (s.portAnswer8 n)).emit (.portRead8 n (s.portAnswer8 n))).nextDraw)
  | .word => .next (((s.setReg16 .ax (s.portAnswer16 n)).emit (.portRead16 n (s.portAnswer16 n))).nextDraw)

/-- LAHF (R202). -/
def execLahf (s : State) : Result :=
  .next ((s.setReg8 .ah (lowByte (s.flags.word (Config.undefFlagBits s.draws)))).nextDraw)

/-- LDS (R203). -/
def execLds (dst : Reg16) (src : Mem) (s : State) : Result :=
  .next ((s.setReg16 dst (s.pointerOffset src)).setSreg .ds (s.pointerSegment src))

/-- LEA (R204). -/
def execLea (dst : Reg16) (src : Mem) (s : State) : Result := .next (s.setReg16 dst (s.ea src))

/-- LES (R205). -/
def execLes (dst : Reg16) (src : Mem) (s : State) : Result :=
  .next ((s.setReg16 dst (s.pointerOffset src)).setSreg .es (s.pointerSegment src))

/-- MOV, register/memory to or from register (R206). -/
def execMovReg (f : MovForm) (s : State) : Result := .next (s.assign (s.movOperands f))

/-- MOV from a segment register (R207: 8C). -/
def execMovFromSeg (dst : RM Reg16) (q : SegReg) (s : State) : Result := .next (s.put16 (s.sreg q) (s.locate dst))

/-- MOV to a segment register (R207: 8E). -/
def execMovToSeg (q : SegReg) (src : RM Reg16) (s : State) : Result :=
  .next ((s.setSreg q (s.get16 (s.locate src))).openWindow .all)

/-- MOV from a direct address to the accumulator (R208: A0, A1). -/
def execMovLoad (w : Width) (addr : Word) (s : State) : Result :=
  match w with
  | .byte => .next (s.setReg8 .al (s.read8 (s.dataSeg .ds) addr))
  | .word => .next (s.setReg16 .ax (s.read16 (s.dataSeg .ds) addr))

/-- MOV from the accumulator to a direct address (R208: A2, A3). -/
def execMovStore (w : Width) (addr : Word) (s : State) : Result :=
  match w with
  | .byte => .next (s.store8 (s.dataSeg .ds) addr (s.reg8 .al))
  | .word => .next (s.store16 (s.dataSeg .ds) addr (s.reg16 .ax))

/-- MOV, immediate (R209). -/
def execMovImm (f : MovImmForm) (s : State) : Result := .next (s.assign (s.movImmOperands f))

/-- OUT (R210). -/
def execOutput (w : Width) (p : Port) (s : State) : Result :=
  match w with
  | .byte => .next (s.emit (.portWrite8 (s.portNumber p) (s.reg8 .al)))
  | .word => .next (s.emit (.portWrite16 (s.portNumber p) (s.reg16 .ax)))

/-- POP (R211, decisions D20, D35). -/
def execPop (dst : StackForm) (s : State) : Result :=
  match dst with
  | .seg q => .next ((s.drop16.setSreg q s.top16).openWindow .all)
  | .r16 r => .next (s.drop16.setReg16 r s.top16)
  | .rm16 d => .next (s.drop16.put16 s.top16 (s.locate d))

/-- POPF (R212). -/
def execPopf (s : State) : Result := .next (s.drop16.withFlags (Flags.ofWord s.top16))

/-- PUSH (R213, decision D20): the source is read after SP was decremented. -/
def execPush (src : StackForm) (s : State) : Result :=
  .next (s.push16 ((s.setReg16 .sp (s.gpr.sp - 2)).stackSource src))

/-- PUSHF (R214). -/
def execPushf (s : State) : Result :=
  .next (s.nextDraw.push16 (s.flags.word (Config.undefFlagBits s.draws)))

/-- SAHF (R215). -/
def execSahf (s : State) : Result := .next (s.withFlags (s.flags.loadLow (s.reg8 .ah)))

/-- XCHG (R216): with a memory operand it asserts LOCK for the read and the write, without a prefix (`20_memory.md` R78). -/
def execXchg (f : XchgForm) (s : State) : Result :=
  match f with
  | .r8Rm8 r rm =>
    .next (s.underLock (RmIsMem rm) fun u => (u.put8 (s.reg8 r) (s.locate rm)).setReg8 r (s.get8 (s.locate rm)))
  | .r16Rm16 r rm =>
    .next (s.underLock (RmIsMem rm) fun u => (u.put16 (s.reg16 r) (s.locate rm)).setReg16 r (s.get16 (s.locate rm)))
  | .axR16 r => .next ((s.setReg16 r s.gpr.ax).setReg16 .ax (s.reg16 r))

/-- XLAT (R217). -/
def execXlat (s : State) : Result :=
  .next (s.setReg8 .al (s.read8 (s.dataSeg .ds) (s.gpr.bx + zextByte (s.reg8 .al))))

end Sys2Proof.Machine
end

