-- ==== Sys2Proof/Machine/Logic.lean ====
section
/-! DEFINITION. The logical, shift and rotate instructions (`42_logic_shift.md`). -/

namespace Sys2Proof.Machine

/-- The common form of the seven shifts and rotates (R290, decision D23): `step` is the one-bit step and `flags` the flags
of a count other than 0. A count of 0 changes nothing. -/
def State.shift (s : State) (step : {n : Nat} → BitVec n × Bool → BitVec n × Bool)
    (flags : {n : Nat} → Nat → Nat → BitVec n → BitVec n → Bool → Flags → Flags) (count : Nat) (d : Dest) : State :=
  if count = 0 then s
  else
    s.nextDraw.modify
      (fun x fl =>
        ((repeatStep step count (x, fl.CF)).1,
          flags s.draws count x (repeatStep step count (x, fl.CF)).1 (repeatStep step count (x, fl.CF)).2 fl)) d

/-- RCL and RCR: the same through CF; if CF is `undef`, so are the result, CF and OF (`93_implementation_defined.md` U18; log 1). -/
def State.shiftThroughCarry (s : State) (step : {n : Nat} → BitVec n × Bool → BitVec n × Bool) (count : Nat) (d : Dest) :
    State :=
  if s.flags.undef.CF && count != 0 then
    s.nextDraw.modify (fun {n} _ fl => (Config.undefResult s.draws n, fl.rotatedUndef s.draws)) d
  else s.shift step (fun n c x0 x cf fl => fl.rotated n c x0 x cf) count d

/-- AND (R291). -/
def execAnd (f : AluForm) (s : State) : Result :=
  .next (s.nextDraw.combine (fun a b fl => (a &&& b, fl.logic s.draws (a &&& b))) (s.aluOperands f))

/-- NOT (R292). -/
def execNot (f : UnaryForm) (s : State) : Result := .next (s.modify (fun a fl => (~~~a, fl)) (s.unaryDest f))

/-- OR (R293). -/
def execOr (f : AluForm) (s : State) : Result :=
  .next (s.nextDraw.combine (fun a b fl => (a ||| b, fl.logic s.draws (a ||| b))) (s.aluOperands f))

/-- RCL (R294). -/
def execRcl (f : ShiftForm) (s : State) : Result :=
  .next (s.shiftThroughCarry rclStep (s.shiftCount f) (s.shiftDest f))

/-- RCR (R295). -/
def execRcr (f : ShiftForm) (s : State) : Result :=
  .next (s.shiftThroughCarry rcrStep (s.shiftCount f) (s.shiftDest f))

/-- ROL (R296). -/
def execRol (f : ShiftForm) (s : State) : Result :=
  .next (s.shift rolStep (fun n c x0 x cf fl => fl.rotated n c x0 x cf) (s.shiftCount f) (s.shiftDest f))

/-- ROR (R297). -/
def execRor (f : ShiftForm) (s : State) : Result :=
  .next (s.shift rorStep (fun n c x0 x cf fl => fl.rotated n c x0 x cf) (s.shiftCount f) (s.shiftDest f))

/-- SAL = SHL (R298, decision D18). -/
def execSal (f : ShiftForm) (s : State) : Result :=
  .next (s.shift salStep (fun n c x0 x cf fl => fl.shifted n c x0 x cf) (s.shiftCount f) (s.shiftDest f))

/-- SAR (R299). -/
def execSar (f : ShiftForm) (s : State) : Result :=
  .next (s.shift sarStep (fun n c x0 x cf fl => fl.shifted n c x0 x cf) (s.shiftCount f) (s.shiftDest f))

/-- SHR (R300, decision D18). -/
def execShr (f : ShiftForm) (s : State) : Result :=
  .next (s.shift shrStep (fun n c x0 x cf fl => fl.shifted n c x0 x cf) (s.shiftCount f) (s.shiftDest f))

/-- TEST (R301). -/
def execTest (f : TestForm) (s : State) : Result :=
  .next (s.nextDraw.compare (fun a b fl => (a &&& b, fl.logic s.draws (a &&& b))) (s.testOperands f))

/-- XOR (R302). -/
def execXor (f : AluForm) (s : State) : Result :=
  .next (s.nextDraw.combine (fun a b fl => (a ^^^ b, fl.logic s.draws (a ^^^ b))) (s.aluOperands f))

end Sys2Proof.Machine
end

