-- ==== Sys2Proof/Machine/Processor.lean ====
section
/-! DEFINITION. The processor control instructions and the prefixes that are no repeat prefixes (`45_processor_control.md`). -/

namespace Sys2Proof.Machine

/-- CLC (R420). -/
def execClc (s : State) : Result := .next (s.withFlags (s.flags.setCF false))

/-- CLD (R421). -/
def execCld (s : State) : Result := .next (s.withFlags { s.flags with DF := false })

/-- CLI (R422). -/
def execCli (s : State) : Result := .next (s.withFlags { s.flags with IF := false })

/-- CMC (R423): an `undef` CF stays `undef`. -/
def execCmc (s : State) : Result := .next (s.withFlags { s.flags with CF := !s.flags.CF })

/-- ESC (R424, decision D40): the opcode is visible outside, and so is a memory operand, which is read and discarded. -/
def execEsc (opcode : BitVec 6) (source : RM Reg16) (s : State) : Result :=
  match source with
  | .reg _ => .next (s.emit (.escape opcode none))
  | .mem m => .next (s.emit (.escape opcode (some (s.memSeg m, s.ea m, s.read16 (s.memSeg m) (s.ea m)))))

/-- HLT (R425). -/
def execHlt (s : State) : Result := .next { s with halted := true }

/-- LOCK (R426): LOCK is asserted while the following instruction executes (`State.assertLock`). -/
def execLock (s : State) : Result := .next { s with lockPrefix := true }

/-- NOP (R427). -/
def execNop (s : State) : Result := .next s

/-- STC (R428). -/
def execStc (s : State) : Result := .next (s.withFlags (s.flags.setCF true))

/-- STD (R429). -/
def execStd (s : State) : Result := .next (s.withFlags { s.flags with DF := true })

/-- STI (R430): if IF was already 1 nothing changes, so no window opens (log 14). -/
def execSti (s : State) : Result :=
  .next (if s.flags.IF then s else (s.withFlags { s.flags with IF := true }).openWindow .intr)

/-- WAIT (R431): hold while TEST is not active. -/
def execWait (s : State) : Result := .next { s with waiting := !s.lines.test }

/-- ES: (R432). -/
def execEsOverride (s : State) : Result := .next { s with segOverride := some .es }

/-- CS: (R432). -/
def execCsOverride (s : State) : Result := .next { s with segOverride := some .cs }

/-- SS: (R432). -/
def execSsOverride (s : State) : Result := .next { s with segOverride := some .ss }

/-- DS: (R432). -/
def execDsOverride (s : State) : Result := .next { s with segOverride := some .ds }

end Sys2Proof.Machine
end

