-- ==== Sys2Proof/Machine/Strings.lean ====
section
/-! DEFINITION. The string instructions and the repeat prefixes (`43_string.md`). One step of the machine runs one iteration of
a repeated string instruction (log 26). -/

namespace Sys2Proof.Machine

/-- `delta` (R330): up while DF = 0, down while DF = 1. -/
def State.delta (s : State) : Width → Word
  | .byte => if s.flags.DF then -1 else 1
  | .word => if s.flags.DF then -2 else 2

/-- `Step(SI)` (R330). -/
def State.stepSi (s : State) (w : Width) : State := s.setReg16 .si (s.gpr.si + s.delta w)

/-- `Step(DI)` (R330). -/
def State.stepDi (s : State) (w : Width) : State := s.setReg16 .di (s.gpr.di + s.delta w)

/-- `Src(0)`: the override reaches the source (R330). -/
def State.src8 (s : State) : Byte := s.read8 (s.dataSeg .ds) s.gpr.si

/-- `Src(1)`. -/
def State.src16 (s : State) : Word := s.read16 (s.dataSeg .ds) s.gpr.si

/-- `Dst(0)`: always in ES (R330). -/
def State.dst8 (s : State) : Byte := s.read8 s.segs.es s.gpr.di

/-- `Dst(1)`. -/
def State.dst16 (s : State) : Word := s.read16 s.segs.es s.gpr.di

/-- One element of CMPS (R331): source minus destination. -/
def State.cmpsElement (w : Width) (s : State) : State :=
  match w with
  | .byte => ((s.withFlags (subFlags s.src8 s.dst8 false s.flags).2).stepSi .byte).stepDi .byte
  | .word => ((s.withFlags (subFlags s.src16 s.dst16 false s.flags).2).stepSi .word).stepDi .word

/-- One element of LODS (R332). -/
def State.lodsElement (w : Width) (s : State) : State :=
  match w with
  | .byte => (s.setReg8 .al s.src8).stepSi .byte
  | .word => (s.setReg16 .ax s.src16).stepSi .word

/-- One element of MOVS (R333). -/
def State.movsElement (w : Width) (s : State) : State :=
  match w with
  | .byte => ((s.store8 s.segs.es s.gpr.di s.src8).stepSi .byte).stepDi .byte
  | .word => ((s.store16 s.segs.es s.gpr.di s.src16).stepSi .word).stepDi .word

/-- One element of SCAS (R337). -/
def State.scasElement (w : Width) (s : State) : State :=
  match w with
  | .byte => (s.withFlags (subFlags (s.reg8 .al) s.dst8 false s.flags).2).stepDi .byte
  | .word => (s.withFlags (subFlags (s.reg16 .ax) s.dst16 false s.flags).2).stepDi .word

/-- One element of STOS (R338). -/
def State.stosElement (w : Width) (s : State) : State :=
  match w with
  | .byte => (s.store8 s.segs.es s.gpr.di (s.reg8 .al)).stepDi .byte
  | .word => (s.store16 s.segs.es s.gpr.di (s.reg16 .ax)).stepDi .word

/-- `zwant` (R335, R336; `30_encoding.md` R113). -/
def RepeatWith.zwant : RepeatWith → Bool
  | .f2 => false
  | .f3 => true

/-- Is the repetition over after an iteration that left this CX and ZF (R339)? -/
def RepeatWith.ends (z : RepeatWith) (testsZF : Bool) (cx : Word) (zf : Bool) : Bool :=
  cx == 0 || (testsZF && zf != z.zwant)

/-- A string instruction `i` whose one element is `element` (R339, decision D25): once without a repeat prefix; with one,
nothing if CX = 0, and otherwise one iteration, after which `repeating` says whether another is due. -/
def State.stringStep (i : Instr) (testsZF : Bool) (element : State → State) (s : State) : State :=
  match s.repeatWith with
  | none => element s
  | some z =>
    if s.gpr.cx = 0 then { s with repeating := none }
    else
      let t := element s
      { t.setReg16 .cx (t.gpr.cx - 1) with
        repeating := if z.ends testsZF (t.gpr.cx - 1) t.flags.ZF then none else some i }

/-- CMPS (R331, R339). -/
def execCmps (w : Width) (s : State) : Result := .next (s.stringStep (.cmps w) true (State.cmpsElement w))

/-- LODS (R332, R339, decision D43). -/
def execLods (w : Width) (s : State) : Result := .next (s.stringStep (.lods w) false (State.lodsElement w))

/-- MOVS (R333, R339). -/
def execMovs (w : Width) (s : State) : Result := .next (s.stringStep (.movs w) false (State.movsElement w))

/-- SCAS (R337, R339). -/
def execScas (w : Width) (s : State) : Result := .next (s.stringStep (.scas w) true (State.scasElement w))

/-- STOS (R338, R339). -/
def execStos (w : Width) (s : State) : Result := .next (s.stringStep (.stos w) false (State.stosElement w))

/-- REP (R334): the prefix byte F3. -/
def execRep (s : State) : Result := .next { s with repeatWith := some .f3 }

/-- REPE (R335): the prefix byte F3. -/
def execRepe (s : State) : Result := .next { s with repeatWith := some .f3 }

/-- REPNE (R336): the prefix byte F2. -/
def execRepne (s : State) : Result := .next { s with repeatWith := some .f2 }

end Sys2Proof.Machine
end

