-- ==== Sys2Proof/Machine/Dispatch.lean ====
section
/-! DEFINITION. From an instruction to its meaning: one arm per constructor of `Instr`. -/

namespace Sys2Proof.Machine

def exec (i : Instr) (s : State) : Host.Outcome State Fault Refusal :=
  match i with
  -- 40_data_transfer.md
  | .input w p => Sys2Proof.Machine.execInput w p s
  | .lahf => Sys2Proof.Machine.execLahf s
  | .lds dst src => Sys2Proof.Machine.execLds dst src s
  | .lea dst src => Sys2Proof.Machine.execLea dst src s
  | .les dst src => Sys2Proof.Machine.execLes dst src s
  | .movReg f => Sys2Proof.Machine.execMovReg f s
  | .movFromSeg dst q => Sys2Proof.Machine.execMovFromSeg dst q s
  | .movToSeg q src => Sys2Proof.Machine.execMovToSeg q src s
  | .movLoad w addr => Sys2Proof.Machine.execMovLoad w addr s
  | .movStore w addr => Sys2Proof.Machine.execMovStore w addr s
  | .movImm f => Sys2Proof.Machine.execMovImm f s
  | .output w p => Sys2Proof.Machine.execOutput w p s
  | .pop dst => Sys2Proof.Machine.execPop dst s
  | .popf => Sys2Proof.Machine.execPopf s
  | .push src => Sys2Proof.Machine.execPush src s
  | .pushf => Sys2Proof.Machine.execPushf s
  | .sahf => Sys2Proof.Machine.execSahf s
  | .xchg f => Sys2Proof.Machine.execXchg f s
  | .xlat => Sys2Proof.Machine.execXlat s
  -- 41_arithmetic.md
  | .aaa => Sys2Proof.Machine.execAaa s
  | .aad => Sys2Proof.Machine.execAad s
  | .aam => Sys2Proof.Machine.execAam s
  | .aas => Sys2Proof.Machine.execAas s
  | .adc f => Sys2Proof.Machine.execAdc f s
  | .add f => Sys2Proof.Machine.execAdd f s
  | .cbw => Sys2Proof.Machine.execCbw s
  | .cmp f => Sys2Proof.Machine.execCmp f s
  | .cwd => Sys2Proof.Machine.execCwd s
  | .daa => Sys2Proof.Machine.execDaa s
  | .das => Sys2Proof.Machine.execDas s
  | .dec f => Sys2Proof.Machine.execDec f s
  | .div f => Sys2Proof.Machine.execDiv f s
  | .idiv f => Sys2Proof.Machine.execIdiv f s
  | .imul f => Sys2Proof.Machine.execImul f s
  | .inc f => Sys2Proof.Machine.execInc f s
  | .mul f => Sys2Proof.Machine.execMul f s
  | .neg f => Sys2Proof.Machine.execNeg f s
  | .sbb f => Sys2Proof.Machine.execSbb f s
  | .sub f => Sys2Proof.Machine.execSub f s
  -- 42_logic_shift.md
  | .and f => Sys2Proof.Machine.execAnd f s
  | .not f => Sys2Proof.Machine.execNot f s
  | .or f => Sys2Proof.Machine.execOr f s
  | .rcl f => Sys2Proof.Machine.execRcl f s
  | .rcr f => Sys2Proof.Machine.execRcr f s
  | .rol f => Sys2Proof.Machine.execRol f s
  | .ror f => Sys2Proof.Machine.execRor f s
  | .sal f => Sys2Proof.Machine.execSal f s
  | .sar f => Sys2Proof.Machine.execSar f s
  | .shr f => Sys2Proof.Machine.execShr f s
  | .test f => Sys2Proof.Machine.execTest f s
  | .xor f => Sys2Proof.Machine.execXor f s
  -- 43_string.md
  | .cmps w => Sys2Proof.Machine.execCmps w s
  | .lods w => Sys2Proof.Machine.execLods w s
  | .movs w => Sys2Proof.Machine.execMovs w s
  | .scas w => Sys2Proof.Machine.execScas w s
  | .stos w => Sys2Proof.Machine.execStos w s
  | .rep => Sys2Proof.Machine.execRep s
  | .repe => Sys2Proof.Machine.execRepe s
  | .repne => Sys2Proof.Machine.execRepne s
  -- 44_control_transfer.md
  | .callNear inc => Sys2Proof.Machine.execCallNear inc s
  | .callNearIndirect target => Sys2Proof.Machine.execCallNearIndirect target s
  | .callFar ip cs => Sys2Proof.Machine.execCallFar ip cs s
  | .callFarIndirect target => Sys2Proof.Machine.execCallFarIndirect target s
  | .int3 => Sys2Proof.Machine.execInt3 s
  | .int t => Sys2Proof.Machine.execInt t s
  | .into => Sys2Proof.Machine.execInto s
  | .iret => Sys2Proof.Machine.execIret s
  | .jo inc => Sys2Proof.Machine.execJo inc s
  | .jno inc => Sys2Proof.Machine.execJno inc s
  | .jb inc => Sys2Proof.Machine.execJb inc s
  | .jae inc => Sys2Proof.Machine.execJae inc s
  | .je inc => Sys2Proof.Machine.execJe inc s
  | .jne inc => Sys2Proof.Machine.execJne inc s
  | .jbe inc => Sys2Proof.Machine.execJbe inc s
  | .ja inc => Sys2Proof.Machine.execJa inc s
  | .js inc => Sys2Proof.Machine.execJs inc s
  | .jns inc => Sys2Proof.Machine.execJns inc s
  | .jp inc => Sys2Proof.Machine.execJp inc s
  | .jnp inc => Sys2Proof.Machine.execJnp inc s
  | .jl inc => Sys2Proof.Machine.execJl inc s
  | .jge inc => Sys2Proof.Machine.execJge inc s
  | .jle inc => Sys2Proof.Machine.execJle inc s
  | .jg inc => Sys2Proof.Machine.execJg inc s
  | .jc inc => Sys2Proof.Machine.execJc inc s
  | .jnc inc => Sys2Proof.Machine.execJnc inc s
  | .jcxz inc => Sys2Proof.Machine.execJcxz inc s
  | .jmpNear inc => Sys2Proof.Machine.execJmpNear inc s
  | .jmpFar ip cs => Sys2Proof.Machine.execJmpFar ip cs s
  | .jmpShort inc => Sys2Proof.Machine.execJmpShort inc s
  | .jmpNearIndirect target => Sys2Proof.Machine.execJmpNearIndirect target s
  | .jmpFarIndirect target => Sys2Proof.Machine.execJmpFarIndirect target s
  | .loop inc => Sys2Proof.Machine.execLoop inc s
  | .loope inc => Sys2Proof.Machine.execLoope inc s
  | .loopne inc => Sys2Proof.Machine.execLoopne inc s
  | .retNear => Sys2Proof.Machine.execRetNear s
  | .retNearPop n => Sys2Proof.Machine.execRetNearPop n s
  | .retFar => Sys2Proof.Machine.execRetFar s
  | .retFarPop n => Sys2Proof.Machine.execRetFarPop n s
  -- 45_processor_control.md
  | .clc => Sys2Proof.Machine.execClc s
  | .cld => Sys2Proof.Machine.execCld s
  | .cli => Sys2Proof.Machine.execCli s
  | .cmc => Sys2Proof.Machine.execCmc s
  | .esc opcode source => Sys2Proof.Machine.execEsc opcode source s
  | .hlt => Sys2Proof.Machine.execHlt s
  | .lock => Sys2Proof.Machine.execLock s
  | .nop => Sys2Proof.Machine.execNop s
  | .stc => Sys2Proof.Machine.execStc s
  | .std => Sys2Proof.Machine.execStd s
  | .sti => Sys2Proof.Machine.execSti s
  | .wait => Sys2Proof.Machine.execWait s
  | .esOverride => Sys2Proof.Machine.execEsOverride s
  | .csOverride => Sys2Proof.Machine.execCsOverride s
  | .ssOverride => Sys2Proof.Machine.execSsOverride s
  | .dsOverride => Sys2Proof.Machine.execDsOverride s

end Sys2Proof.Machine
end

