-- ==== Sys2Proof/Machine/Interrupts.lean ====
section
/-! DEFINITION. What happens at a recognition point (`60_exceptions.md` R509 to R511) and on the RESET line (R560). -/

namespace Sys2Proof.Machine

/-- IP becomes the saved IP of an interrupt recognised here (R509). A repeated string instruction is left for the byte before
its opcode (`43_string.md` R339, `70_reset_and_hazards.md` R565), WAIT for its own first byte; their prefixes are forgotten, and
so is a LOCK that a WAIT held. -/
def State.resumePoint (s : State) : State :=
  if s.repeating.isSome then { s.clearPrefixes with ip := s.ip - 2, repeating := none }
  else if s.waiting then { s.clearPrefixes with ip := s.ipStart, waiting := false }
  else s

/-- Take an interrupt recognised here; it ends the halt state (`45_processor_control.md` R425). -/
def State.enter (t : Byte) (s : State) : State := { s.resumePoint.interrupt t with halted := false }

/-- Serve the remembered NMI request, which is forgotten (R503). -/
def State.enterNmi (s : State) : State := { s with nmiPending := false }.enter 2

/-- The INTR request that is recognised here, if any (R506, R511). -/
def State.maskableRequest (s : State) : Option Byte :=
  if s.flags.IF && s.window == .closed then s.lines.intr else none

/-- Steps 1 and 2 of R510: NMI, else INTR. -/
def State.recogniseExternal (s : State) : State :=
  if s.nmiPending then s.enterNmi
  else
    match s.maskableRequest with
    | some t => s.enter t
    | none => s

/-- Step 3 of R510: single-step, where `tf` is TF when the instruction started (R502). -/
def State.recogniseSingleStep (tf : Bool) (s : State) : State := if tf then s.enter 1 else s

/-- Step 4 of R510: an NMI edge that came during the sequences above (log 25). -/
def State.recogniseLateNmi (s : State) : State := if s.lines.nmiLate then s.enterNmi else s

/-- A recognition point (R510). After a segment load all three are held off, and an NMI edge is remembered (R511). -/
def State.recognise (tf : Bool) (s : State) : State :=
  match s.window with
  | .all => { s with nmiPending := s.nmiPending || s.lines.nmiLate }
  | .intr => (s.recogniseExternal.recogniseSingleStep tf).recogniseLateNmi
  | .closed => (s.recogniseExternal.recogniseSingleStep tf).recogniseLateNmi

/-- An edge on NMI is remembered (R503). -/
def State.latchNmi (s : State) : State := { s with nmiPending := s.nmiPending || s.lines.nmi }

/-- The next sample of the input lines (log 7). -/
def State.nextSample (s : State) : State := { s with inputs := s.inputs.tail }

/-- What memory and the environment have seen where RESET comes in the middle of the work from `s` to `t`: the stores that had
landed and the events that had been seen, and of the others nothing (`70_reset_and_hazards.md` R560, log 5). -/
def State.cut (s t : State) (c : Cut) : State :=
  { t with
    mem := c.landed.foldl (fun m a => m.write a.toNat (t.byteAt a)) s.mem
    events := t.events.drop (t.events.length - s.events.length - c.seen) }

/-- RESET (`70_reset_and_hazards.md` R560): the reset state, but memory is unchanged and the general registers are free (log 5);
LOCK becomes inactive (log 24). -/
def State.resetLine (s : State) : State :=
  { State.reset with
    gpr :=
      { ax := Config.undefReg s.draws 0, cx := Config.undefReg s.draws 1, dx := Config.undefReg s.draws 2
        bx := Config.undefReg s.draws 3, sp := Config.undefReg s.draws 4, bp := Config.undefReg s.draws 5
        si := Config.undefReg s.draws 6, di := Config.undefReg s.draws 7 }
    mem := s.mem
    inputs := s.inputs
    events := (s.setLock false).events
    draws := s.draws + 1 }

end Sys2Proof.Machine
end

