-- ==== Sys2Proof/Machine/Fetch.lean ====
section
/-! DEFINITION. Fetching an instruction's bytes, and what surrounds its meaning in a step: the move to `IP_next`, the repeat
prefixes without meaning, and the boundary after it. -/

namespace Sys2Proof.Machine

/-- The longest instruction without prefixes (`30_encoding.md` R100). -/
def maxInstrBytes : Nat := 6

/-- The bytes at CS:IP, offsets mod 2^16 (`10_state.md` R25, `20_memory.md` R62, R79). -/
def State.fetch (s : State) : List Byte :=
  (List.range maxInstrBytes).map fun k => s.byteAt (phys s.segs.cs (s.ip + BitVec.ofNat 16 k))

/-- Put bytes at offsets `off`, `off + 1`, ... of a segment. -/
def State.place (seg : Word) : Word → List Byte → State → State
  | _, [], s => s
  | off, b :: bs, s => State.place seg (off + 1) bs (s.write8 seg off b)

/-- F3 belongs before a string instruction, F2 before CMPS or SCAS, or before a further prefix (`30_encoding.md` R119,
decision D26). -/
def repeatAllowed (z : RepeatWith) (i : Instr) : Bool :=
  match i with
  | .cmps _ | .scas _ => true
  | .movs _ | .stos _ | .lods _ => z == .f3
  | i => i.isPrefix

/-- The repeat prefix read before instruction `i` gives it no meaning. -/
def State.repeatMeaningless (s : State) (i : Instr) : Bool := s.repeatWith.any fun z => !repeatAllowed z i

/-- One of the next `len` bytes was stored to while it might already be fetched, and no control transfer was taken since
(`20_memory.md` R79, `70_reset_and_hazards.md` R563). -/
def State.staleBytes (s : State) (len : Nat) : Bool :=
  (List.range len).any fun k => decide (phys s.segs.cs (s.ip + BitVec.ofNat 16 k) ∈ s.staleCode)

/-- An instruction of `len` bytes starts: IP becomes `IP_next` (`10_state.md` R25) and the interrupt window closes with this
instruction (`60_exceptions.md` R511). -/
def State.begin (s : State) (len : Nat) : State :=
  { s with
    ipStart := if s.hasPrefix then s.ipStart else s.ip
    ip := s.ip + BitVec.ofNat 16 len
    window := .closed }

/-- LOCK is asserted while the instruction after the prefix executes (`45_processor_control.md` R426; log 24). -/
def State.assertLock (i : Instr) (s : State) : State := if s.lockPrefix && !i.isPrefix then s.setLock true else s

/-- The boundary after instruction `i`, with the window and TF as they were when it started. A prefix byte is no instruction
of its own and no recognition point (`60_exceptions.md` R502, R511); an instruction that is not over keeps its prefixes and the
window; LOCK covers each iteration of a repetition, not the whole (`45_processor_control.md` R426); WAIT is not single-stepped
while it holds (log 12). -/
def State.complete (i : Instr) (w : Window) (tf : Bool) (s : State) : State :=
  if i.isPrefix then { s with window := w, nmiPending := s.nmiPending || s.lines.nmiLate }
  else if s.repeating.isSome then ({ s.setLock false with window := w }).recognise tf
  else if s.waiting then ({ s with window := w }).recognise false
  else s.clearPrefixes.recognise tf

end Sys2Proof.Machine
end

