-- ==== Sys2Proof/Machine/Run.lean ====
section
/-! DEFINITION. What a step is made of (log 10, log 12, log 26): the instruction that is due, which is the next one, one prefix
byte, one more iteration of a repeated string instruction, or one more look at TEST; its meaning; and the boundary after it. -/

namespace Sys2Proof.Machine

/-- Go on with the state an answer holds, if it holds one. -/
def andThen (r : Result) (k : State → Result) : Result :=
  match r with
  | .next s => k s
  | .fault e => .fault e
  | .refused e => .refused e

/-- The instruction that is due while the processor is not halted, and the state its meaning starts from. -/
def State.due (s : State) : Except Refusal (Instr × State) :=
  if s.waiting then .ok (.wait, s.openWindow .closed)
  else
    match s.repeating with
    | some i => .ok (i, s.openWindow .closed)
    | none =>
      match decode s.fetch with
      | .error e => .error (.undecoded e)
      | .ok (i, rest) =>
        if s.staleBytes (maxInstrBytes - rest.length) then .error .storeIntoPrefetch
        else if s.repeatMeaningless i then .error .meaninglessRepeat
        else .ok (i, s.begin (maxInstrBytes - rest.length))

/-- Run the instruction that is due, and then what `boundary` says follows it. While halted none is due. -/
def State.runDue (s : State) (boundary : Option Instr → State → State) : Result :=
  if s.halted then .next (boundary none s)
  else
    match s.due with
    | .error e => .refused e
    | .ok (i, b) => andThen (exec i (b.assertLock i)) fun t => .next (boundary (some i) t)

/-- The boundary after the instruction that `s` began with, or the look at the requests while halted
(`45_processor_control.md` R425). -/
def State.boundary (s : State) (i : Option Instr) (t : State) : State :=
  match i with
  | some i => t.complete i s.window s.flags.TF
  | none => t.recognise false

/-- What the processor does in one step while RESET is not active. -/
def State.advance (s : State) : Result := s.runDue s.boundary

/-- What it has done of that when RESET cuts it short (`70_reset_and_hazards.md` R560, log 5). -/
def State.cutShort (s : State) : ResetMoment → Result
  | .before => .next s
  | .inInstruction c => s.runDue fun _ t => s.cut t c
  | .inBoundary c => s.runDue fun i t => t.cut (s.boundary i t) c

end Sys2Proof.Machine
end

