-- ==== Sys2Proof/Machine/Step.lean ====
section
/-! DEFINITION. One step of the machine, and the placing of an instruction for the host. -/

namespace Sys2Proof.Machine

/-- One step. The input lines are sampled once (log 7). -/
def step (s : State) : Host.Outcome State Fault Refusal :=
  match s.lines.reset with
  | some m => andThen (s.latchNmi.cutShort m) fun t => .next t.resetLine.nextSample
  | none => andThen s.latchNmi.advance fun t => .next t.nextSample

/-- The state whose next step fetches and runs the instruction of a table word (log 20, log 21). -/
def State.withFetchWord (s : State) (nbits w : Nat) : State :=
  State.place s.segs.cs s.ip ((tableBytes nbits w).take maxInstrBytes)
    { s with
      segOverride := none, repeatWith := none, lockPrefix := false, halted := false, waiting := false, repeating := none
      staleCode := [], inputs := [] }

end Sys2Proof.Machine
end

