-- ==== Sys2Proof/Safety.lean ====
section
/-! DEFINITION. What the statements say about states and instructions, in the terms of the spec: the invariant of a run, and
what each instruction may write. -/

namespace Sys2Proof.Machine

/-- What holds of every state a run reaches: memory is in its canonical form, only a string instruction with a repeat prefix
is between iterations (`43_string.md` R339), WAIT does not hold meanwhile (`45_processor_control.md` R431), a halted processor is in
no instruction (R425), and between two steps LOCK is active only where a WAIT with a LOCK prefix holds (R426). -/
structure State.Inv (s : State) : Prop where
  memory : s.mem.wf
  repeatingString : ∀ i, s.repeating = some i → i.isString = true ∧ s.repeatWith.isSome = true
  oneHold : s.waiting = true → s.repeating = none
  haltedIdle : s.halted = true → s.waiting = false ∧ s.repeating = none ∧ s.hasPrefix = false
  lockHeld : s.lockOutput = true → s.waiting = true ∧ s.lockPrefix = true

/-! ## Reading a flag by its name -/

/-- One of the nine flags (`10_state.md` R26). -/
def Flags.get (f : Flags) : FlagName → Bool
  | .CF => f.CF
  | .PF => f.PF
  | .AF => f.AF
  | .ZF => f.ZF
  | .SF => f.SF
  | .TF => f.TF
  | .IF => f.IF
  | .DF => f.DF
  | .OF => f.OF

/-- The six flags an arithmetic result describes (`10_state.md` R27, R34). -/
def arithmeticFlags : List FlagName := [.OF, .SF, .ZF, .AF, .PF, .CF]

/-! ## The bytes of a place -/

/-- The two bytes of the word at `seg:off` (`20_memory.md` R66, R69). -/
def wordAt (seg off : Word) : List Addr := [phys seg off, phys seg (off + 1)]

/-- The byte or the two bytes at `seg:off`. -/
def bytesAt (w : Width) (seg off : Word) : List Addr :=
  match w with
  | .byte => [phys seg off]
  | .word => wordAt seg off

/-- The bytes of memory a byte operand occupies. -/
def Loc.bytes8 : Loc Reg8 → List Addr
  | .reg _ => []
  | .mem seg off => [phys seg off]

/-- The bytes of memory a word operand occupies. -/
def Loc.bytes16 : Loc Reg16 → List Addr
  | .reg _ => []
  | .mem seg off => wordAt seg off

/-- The word register a byte operand lies in, if it is a register. -/
def Loc.regs8 : Loc Reg8 → List Reg16
  | .reg r => [Reg8Parent r]
  | .mem _ _ => []

/-- The register a word operand is, if it is one. -/
def Loc.regs16 : Loc Reg16 → List Reg16
  | .reg r => [r]
  | .mem _ _ => []

def Dest.bytes : Dest → List Addr
  | .byte d => d.bytes8
  | .word d => d.bytes16

def Dest.regs : Dest → List Reg16
  | .byte d => d.regs8
  | .word d => d.regs16

/-- The bytes of the destination. -/
def Operands.bytes : Operands → List Addr
  | .byte d _ => d.bytes8
  | .word d _ => d.bytes16

/-- The word register of the destination. -/
def Operands.regs : Operands → List Reg16
  | .byte d _ => d.regs8
  | .word d _ => d.regs16

/-! ## What a write to a place leaves -/

/-- `t` is `s` with the byte `v` in the place `d`: the place reads as `v`, and no other register, half of a register, segment
register or byte of memory differs. -/
structure Stored8 (s t : State) (d : Loc Reg8) (v : Byte) : Prop where
  value : t.get8 d = v
  halves : ∀ q : Reg8, d ≠ .reg q → t.reg8 q = s.reg8 q
  regs : ∀ r, r ∉ d.regs8 → t.reg16 r = s.reg16 r
  memory : ∀ a, a ∉ d.bytes8 → t.byteAt a = s.byteAt a
  segs : t.segs = s.segs

/-- `t` is `s` with the word `v` in the place `d`. -/
structure Stored16 (s t : State) (d : Loc Reg16) (v : Word) : Prop where
  value : t.get16 d = v
  regs : ∀ r, r ∉ d.regs16 → t.reg16 r = s.reg16 r
  memory : ∀ a, a ∉ d.bytes16 → t.byteAt a = s.byteAt a
  segs : t.segs = s.segs

/-- The source was moved to the destination. -/
def Moved (s t : State) : Operands → Prop
  | .byte d v => Stored8 s t d v
  | .word d v => Stored16 s t d v

/-- A result `r` that stands in the relation `P` to the old destination and the source was written to the destination. -/
def Combined (s t : State) (P : {n : Nat} → (a b r : BitVec n) → Prop) : Operands → Prop
  | .byte d b => ∃ r, Stored8 s t d r ∧ P (s.get8 d) b r
  | .word d b => ∃ r, Stored16 s t d r ∧ P (s.get16 d) b r

/-- A result `r` that stands in the relation `P` to the old operand was written back to it. -/
def Updated (s t : State) (P : {n : Nat} → (x r : BitVec n) → Prop) : Dest → Prop
  | .byte d => ∃ r, Stored8 s t d r ∧ P (s.get8 d) r
  | .word d => ∃ r, Stored16 s t d r ∧ P (s.get16 d) r

/-- The two operands stand in the relation `P`. -/
def Compared (s : State) (P : {n : Nat} → (a b : BitVec n) → Prop) : Operands → Prop
  | .byte d b => P (s.get8 d) b
  | .word d b => P (s.get16 d) b

/-- ZF, SF and PF describe the result (`10_state.md` R29). -/
def Describes {n : Nat} (f : Flags) (r : BitVec n) : Prop :=
  (f.ZF = true ↔ r = 0) ∧ f.SF = r.msb ∧ (f.PF = true ↔ ((List.range 8).countP fun i => r.getLsbD i) % 2 = 0)

/-- The flags with none `undef`: what a stored word gives back (`10_state.md` R33). -/
def Flags.defined (f : Flags) : Flags := { f with undef := .none }

/-- TF, IF and DF are the same in both (`10_state.md` R34: the control fields). -/
def SameControl (f g : Flags) : Prop := f.TF = g.TF ∧ f.IF = g.IF ∧ f.DF = g.DF

/-- The general registers but those of `changed` are the same in both. -/
def SameRegsBut (changed : List Reg16) (s t : State) : Prop := ∀ r, r ∉ changed → t.reg16 r = s.reg16 r

/-- Memory is the same in both outside `stored`. -/
def SameMemoryBut (stored : List Addr) (s t : State) : Prop := ∀ a, a ∉ stored → t.byteAt a = s.byteAt a

/-- Where a jump of the increment `d` leads: a taken control transfer (`44_control_transfer.md` R350). -/
def State.jumped (s : State) (d : Byte) : State := { s with ip := BitVec.ofInt 16 (s.ip.toNat + d.toInt), staleCode := [] }

/-- No flag changed but CF and OF, which are defined but for OF after a count other than 1 (`42_logic_shift.md` R290). -/
def OnlyRotated (f : ShiftForm) (s t : State) : Prop :=
  t.flags = { s.flags with
    CF := t.flags.CF, OF := t.flags.OF, undef := { s.flags.undef with CF := false, OF := s.shiftCount f != 1 } }

/-- What the environment has seen after an XCHG: LOCK active and inactive again, if an operand is in memory and LOCK was not active
(`20_memory.md` R78; log 24). -/
def xchgEvents {ρ : Type} (s : State) : RM ρ → List BusEvent
  | .reg _ => s.events
  | .mem _ => if s.lockOutput then s.events else .lock false :: .lock true :: s.events

/-! ## What an instruction may write -/

/-- The word a push stores (`20_memory.md` R81). -/
def State.pushBytes (s : State) : List Addr := wordAt s.segs.ss (s.gpr.sp - 2)

/-- The two words a far call stores. -/
def State.farFrame (s : State) : List Addr := s.pushBytes ++ wordAt s.segs.ss (s.gpr.sp - 4)

/-- The three words the interrupt sequence stores (`60_exceptions.md` R508). -/
def State.interruptFrame (s : State) : List Addr := s.farFrame ++ wordAt s.segs.ss (s.gpr.sp - 6)

/-- The division raises type 0 (`41_arithmetic.md` R253). -/
def State.divFaults (s : State) (f : UnaryForm) : Bool :=
  match s.unaryDest f with
  | .byte d => (unsignedDivide 8 s.gpr.ax.toNat (s.get8 d).toNat).isNone
  | .word d => (unsignedDivide 16 s.dxAx.toNat (s.get16 d).toNat).isNone

/-- The signed division raises type 0 (`41_arithmetic.md` R254). -/
def State.idivFaults (s : State) (f : UnaryForm) : Bool :=
  match s.unaryDest f with
  | .byte d => (signedDivide 8 s.gpr.ax.toInt (s.get8 d).toInt).isNone
  | .word d => (signedDivide 16 s.dxAx.toInt (s.get16 d).toInt).isNone

/-- A string instruction processes an element now: it has no repeat prefix, or CX is not 0 (`43_string.md` R339). -/
def State.hasElement (s : State) : Bool := s.repeatWith.isNone || s.gpr.cx != 0

/-- The destination element (`43_string.md` R330). -/
def State.elementBytes (s : State) (w : Width) : List Addr := bytesAt w s.segs.es s.gpr.di

/-- The operand POP writes, if it is memory. -/
def State.popBytes (s : State) : StackForm → List Addr
  | .seg _ => []
  | .r16 _ => []
  | .rm16 d => (s.locate d).bytes16

/-- The operand of XCHG that can be memory. -/
def State.xchgBytes (s : State) : XchgForm → List Addr
  | .r8Rm8 _ rm => (s.locate rm).bytes8
  | .r16Rm16 _ rm => (s.locate rm).bytes16
  | .axR16 _ => []

/-- The general register POP loads, if any. -/
def State.popRegs (s : State) : StackForm → List Reg16
  | .seg _ => []
  | .r16 r => [r]
  | .rm16 d => (s.locate d).regs16

/-- The segment register POP loads, if any. -/
def popSegs : StackForm → List SegReg
  | .seg q => [q]
  | .r16 _ => []
  | .rm16 _ => []

/-- The word registers XCHG writes. -/
def State.xchgRegs (s : State) : XchgForm → List Reg16
  | .r8Rm8 r rm => Reg8Parent r :: (s.locate rm).regs8
  | .r16Rm16 r rm => r :: (s.locate rm).regs16
  | .axR16 r => [.ax, r]

/-- CX, where a repeat prefix counts an element down. -/
def State.repeatCount (s : State) : List Reg16 := if s.repeatWith.isSome then [.cx] else []

end Sys2Proof.Machine

namespace Sys2Proof

open Machine

/-- Every byte of memory the instruction stores to, when it starts in `s`. -/
def Instr.storesAt (s : State) : Instr → List Addr
  | .movReg f => (s.movOperands f).bytes
  | .movFromSeg d _ => (s.locate d).bytes16
  | .movStore w a => bytesAt w (s.dataSeg .ds) a
  | .movImm f => (s.movImmOperands f).bytes
  | .pop f => s.popBytes f
  | .push _ => s.pushBytes
  | .pushf => s.pushBytes
  | .xchg f => s.xchgBytes f
  | .adc f => (s.aluOperands f).bytes
  | .add f => (s.aluOperands f).bytes
  | .dec f => (s.incDest f).bytes
  | .div f => if s.divFaults f then s.interruptFrame else []
  | .idiv f => if s.idivFaults f then s.interruptFrame else []
  | .inc f => (s.incDest f).bytes
  | .neg f => (s.unaryDest f).bytes
  | .sbb f => (s.aluOperands f).bytes
  | .sub f => (s.aluOperands f).bytes
  | .and f => (s.aluOperands f).bytes
  | .not f => (s.unaryDest f).bytes
  | .or f => (s.aluOperands f).bytes
  | .rcl f => if s.shiftCount f = 0 then [] else (s.shiftDest f).bytes
  | .rcr f => if s.shiftCount f = 0 then [] else (s.shiftDest f).bytes
  | .rol f => if s.shiftCount f = 0 then [] else (s.shiftDest f).bytes
  | .ror f => if s.shiftCount f = 0 then [] else (s.shiftDest f).bytes
  | .sal f => if s.shiftCount f = 0 then [] else (s.shiftDest f).bytes
  | .sar f => if s.shiftCount f = 0 then [] else (s.shiftDest f).bytes
  | .shr f => if s.shiftCount f = 0 then [] else (s.shiftDest f).bytes
  | .xor f => (s.aluOperands f).bytes
  | .movs w => if s.hasElement then s.elementBytes w else []
  | .stos w => if s.hasElement then s.elementBytes w else []
  | .callNear _ => s.pushBytes
  | .callNearIndirect _ => s.pushBytes
  | .callFar _ _ => s.farFrame
  | .callFarIndirect _ => s.farFrame
  | .int3 => s.interruptFrame
  | .int _ => s.interruptFrame
  | .into => if s.choose [.OF] s.flags.OF then s.interruptFrame else []
  | .input _ _ | .lahf | .lds _ _ | .lea _ _ | .les _ _ | .movToSeg _ _ | .movLoad _ _ | .output _ _ | .popf
  | .sahf | .xlat | .aaa | .aad | .aam | .aas | .cbw | .cmp _ | .cwd | .daa | .das | .imul _ | .mul _ | .test _
  | .cmps _ | .lods _ | .scas _ | .rep | .repe | .repne | .iret | .jo _ | .jno _ | .jb _ | .jae _ | .je _ | .jne _
  | .jbe _ | .ja _ | .js _ | .jns _ | .jp _ | .jnp _ | .jl _ | .jge _ | .jle _ | .jg _ | .jc _ | .jnc _ | .jcxz _
  | .jmpNear _ | .jmpFar _ _ | .jmpShort _ | .jmpNearIndirect _ | .jmpFarIndirect _ | .loop _ | .loope _
  | .loopne _ | .retNear | .retNearPop _ | .retFar | .retFarPop _ | .clc | .cld | .cli | .cmc | .esc _ _ | .hlt
  | .lock | .nop | .stc | .std | .sti | .wait | .esOverride | .csOverride | .ssOverride | .dsOverride => []

/-- AX of a byte multiplication or division, DX and AX of a word one (`10_state.md` R22). -/
def UnaryForm.accumulator : UnaryForm → List Reg16
  | .rm8 _ => [.ax]
  | .rm16 _ => [.ax, .dx]

/-- Every general register the instruction may write, when it starts in `s` (`10_state.md` R22). -/
def Instr.regsWritten (s : State) : Instr → List Reg16
  | .input _ _ => [.ax]
  | .lahf => [.ax]
  | .lds d _ => [d]
  | .lea d _ => [d]
  | .les d _ => [d]
  | .movReg f => (s.movOperands f).regs
  | .movFromSeg d _ => (s.locate d).regs16
  | .movLoad _ _ => [.ax]
  | .movImm f => (s.movImmOperands f).regs
  | .pop f => .sp :: s.popRegs f
  | .popf => [.sp]
  | .push _ => [.sp]
  | .pushf => [.sp]
  | .xchg f => s.xchgRegs f
  | .xlat => [.ax]
  | .aaa => [.ax]
  | .aad => [.ax]
  | .aam => [.ax]
  | .aas => [.ax]
  | .adc f => (s.aluOperands f).regs
  | .add f => (s.aluOperands f).regs
  | .cbw => [.ax]
  | .cwd => [.dx]
  | .daa => [.ax]
  | .das => [.ax]
  | .dec f => (s.incDest f).regs
  | .div f => if s.divFaults f then .sp :: f.accumulator else f.accumulator
  | .idiv f => if s.idivFaults f then .sp :: f.accumulator else f.accumulator
  | .imul f => f.accumulator
  | .inc f => (s.incDest f).regs
  | .mul f => f.accumulator
  | .neg f => (s.unaryDest f).regs
  | .sbb f => (s.aluOperands f).regs
  | .sub f => (s.aluOperands f).regs
  | .and f => (s.aluOperands f).regs
  | .not f => (s.unaryDest f).regs
  | .or f => (s.aluOperands f).regs
  | .rcl f => if s.shiftCount f = 0 then [] else (s.shiftDest f).regs
  | .rcr f => if s.shiftCount f = 0 then [] else (s.shiftDest f).regs
  | .rol f => if s.shiftCount f = 0 then [] else (s.shiftDest f).regs
  | .ror f => if s.shiftCount f = 0 then [] else (s.shiftDest f).regs
  | .sal f => if s.shiftCount f = 0 then [] else (s.shiftDest f).regs
  | .sar f => if s.shiftCount f = 0 then [] else (s.shiftDest f).regs
  | .shr f => if s.shiftCount f = 0 then [] else (s.shiftDest f).regs
  | .xor f => (s.aluOperands f).regs
  | .cmps _ => if s.hasElement then [.si, .di] ++ s.repeatCount else []
  | .lods _ => if s.hasElement then [.ax, .si] ++ s.repeatCount else []
  | .movs _ => if s.hasElement then [.si, .di] ++ s.repeatCount else []
  | .scas _ => if s.hasElement then [.di] ++ s.repeatCount else []
  | .stos _ => if s.hasElement then [.di] ++ s.repeatCount else []
  | .callNear _ => [.sp]
  | .callNearIndirect _ => [.sp]
  | .callFar _ _ => [.sp]
  | .callFarIndirect _ => [.sp]
  | .int3 => [.sp]
  | .int _ => [.sp]
  | .into => if s.choose [.OF] s.flags.OF then [.sp] else []
  | .iret => [.sp]
  | .loop _ => [.cx]
  | .loope _ => [.cx]
  | .loopne _ => [.cx]
  | .retNear => [.sp]
  | .retNearPop _ => [.sp]
  | .retFar => [.sp]
  | .retFarPop _ => [.sp]
  | .movToSeg _ _ | .movStore _ _ | .output _ _ | .sahf | .cmp _ | .test _ | .rep | .repe | .repne | .jo _ | .jno _
  | .jb _ | .jae _ | .je _ | .jne _ | .jbe _ | .ja _ | .js _ | .jns _ | .jp _ | .jnp _ | .jl _ | .jge _ | .jle _
  | .jg _ | .jc _ | .jnc _ | .jcxz _ | .jmpNear _ | .jmpFar _ _ | .jmpShort _ | .jmpNearIndirect _
  | .jmpFarIndirect _ | .clc | .cld | .cli | .cmc | .esc _ _ | .hlt | .lock | .nop | .stc | .std | .sti | .wait
  | .esOverride | .csOverride | .ssOverride | .dsOverride => []

/-- The segment registers the instruction may write, when it starts in `s` (`10_state.md` R23). -/
def Instr.segsWritten (s : State) : Instr → List SegReg
  | .lds _ _ => [.ds]
  | .les _ _ => [.es]
  | .movToSeg q _ => [q]
  | .pop f => popSegs f
  | .div f => if s.divFaults f then [.cs] else []
  | .idiv f => if s.idivFaults f then [.cs] else []
  | .callFar _ _ => [.cs]
  | .callFarIndirect _ => [.cs]
  | .int3 => [.cs]
  | .int _ => [.cs]
  | .into => if s.choose [.OF] s.flags.OF then [.cs] else []
  | .iret => [.cs]
  | .jmpFar _ _ => [.cs]
  | .jmpFarIndirect _ => [.cs]
  | .retFar => [.cs]
  | .retFarPop _ => [.cs]
  | .input _ _ | .lahf | .lea _ _ | .movReg _ | .movFromSeg _ _ | .movLoad _ _ | .movStore _ _ | .movImm _
  | .output _ _ | .popf | .push _ | .pushf | .sahf | .xchg _ | .xlat | .aaa | .aad | .aam | .aas | .adc _ | .add _
  | .cbw | .cmp _ | .cwd | .daa | .das | .dec _ | .imul _ | .inc _ | .mul _ | .neg _ | .sbb _ | .sub _ | .and _
  | .not _ | .or _ | .rcl _ | .rcr _ | .rol _ | .ror _ | .sal _ | .sar _ | .shr _ | .test _ | .xor _ | .cmps _
  | .lods _ | .movs _ | .scas _ | .stos _ | .rep | .repe | .repne | .callNear _ | .callNearIndirect _ | .jo _
  | .jno _ | .jb _ | .jae _ | .je _ | .jne _ | .jbe _ | .ja _ | .js _ | .jns _ | .jp _ | .jnp _ | .jl _ | .jge _
  | .jle _ | .jg _ | .jc _ | .jnc _ | .jcxz _ | .jmpNear _ | .jmpShort _ | .jmpNearIndirect _ | .loop _ | .loope _
  | .loopne _ | .retNear | .retNearPop _ | .clc | .cld | .cli | .cmc | .esc _ _ | .hlt | .lock | .nop | .stc | .std
  | .sti | .wait | .esOverride | .csOverride | .ssOverride | .dsOverride => []

/-- The flag list of each mnemonic, as `10_state.md` R28 collects them; a divide error adds what the interrupt sequence clears. -/
def Instr.flagsWritten (s : State) : Instr → List FlagName
  | .aaa | .aas | .aad | .aam => arithmeticFlags
  | .adc _ | .add _ | .cmp _ | .sbb _ | .sub _ | .neg _ => arithmeticFlags
  | .cmps _ | .scas _ => if s.hasElement then arithmeticFlags else []
  | .and _ | .or _ | .test _ | .xor _ => arithmeticFlags
  | .daa | .das => arithmeticFlags
  | .dec _ | .inc _ => [.OF, .SF, .ZF, .AF, .PF]
  | .div f => if s.divFaults f then arithmeticFlags ++ [.IF, .TF] else arithmeticFlags
  | .idiv f => if s.idivFaults f then arithmeticFlags ++ [.IF, .TF] else arithmeticFlags
  | .imul _ | .mul _ => arithmeticFlags
  | .rcl f | .rcr f | .rol f | .ror f => if s.shiftCount f = 0 then [] else [.OF, .CF]
  | .sal f | .sar f | .shr f => if s.shiftCount f = 0 then [] else arithmeticFlags
  | .clc | .stc | .cmc => [.CF]
  | .cld | .std => [.DF]
  | .cli | .sti => [.IF]
  | .int3 | .int _ => [.IF, .TF]
  | .into => if s.choose [.OF] s.flags.OF then [.IF, .TF] else []
  | .iret | .popf => [.CF, .PF, .AF, .ZF, .SF, .TF, .IF, .DF, .OF]
  | .sahf => [.SF, .ZF, .AF, .PF, .CF]
  | .input _ _ | .lahf | .lds _ _ | .lea _ _ | .les _ _ | .movReg _ | .movFromSeg _ _ | .movToSeg _ _
  | .movLoad _ _ | .movStore _ _ | .movImm _ | .output _ _ | .pop _ | .push _ | .pushf | .xchg _ | .xlat | .cbw
  | .cwd | .not _ | .lods _ | .movs _ | .stos _ | .rep | .repe | .repne | .callNear _ | .callNearIndirect _
  | .callFar _ _ | .callFarIndirect _ | .jo _ | .jno _ | .jb _ | .jae _ | .je _ | .jne _ | .jbe _ | .ja _ | .js _
  | .jns _ | .jp _ | .jnp _ | .jl _ | .jge _ | .jle _ | .jg _ | .jc _ | .jnc _ | .jcxz _ | .jmpNear _ | .jmpFar _ _
  | .jmpShort _ | .jmpNearIndirect _ | .jmpFarIndirect _ | .loop _ | .loope _ | .loopne _ | .retNear
  | .retNearPop _ | .retFar | .retFarPop _ | .esc _ _ | .hlt | .lock | .nop | .wait | .esOverride | .csOverride
  | .ssOverride | .dsOverride => []

/-- The instruction is a taken control transfer (`44_control_transfer.md`; a divide error for DIV and IDIV). Every other ends with
IP = `IP_next`. -/
def Instr.isTransfer (s : State) : Instr → Bool
  | .div f => s.divFaults f
  | .idiv f => s.idivFaults f
  | .callNear _ | .callNearIndirect _ | .callFar _ _ | .callFarIndirect _ => true
  | .int3 | .int _ | .iret => true
  | .into => s.choose [.OF] s.flags.OF
  | .jo _ => s.choose [.OF] s.flags.OF
  | .jno _ => s.choose [.OF] (!s.flags.OF)
  | .jb _ | .jc _ => s.choose [.CF] s.flags.CF
  | .jae _ | .jnc _ => s.choose [.CF] (!s.flags.CF)
  | .je _ => s.choose [.ZF] s.flags.ZF
  | .jne _ => s.choose [.ZF] (!s.flags.ZF)
  | .jbe _ => s.choose [.CF, .ZF] (s.flags.CF || s.flags.ZF)
  | .ja _ => s.choose [.CF, .ZF] (!(s.flags.CF || s.flags.ZF))
  | .js _ => s.choose [.SF] s.flags.SF
  | .jns _ => s.choose [.SF] (!s.flags.SF)
  | .jp _ => s.choose [.PF] s.flags.PF
  | .jnp _ => s.choose [.PF] (!s.flags.PF)
  | .jl _ => s.choose [.SF, .OF] (s.flags.SF != s.flags.OF)
  | .jge _ => s.choose [.SF, .OF] (s.flags.SF == s.flags.OF)
  | .jle _ => s.choose [.ZF, .SF, .OF] (s.flags.ZF || s.flags.SF != s.flags.OF)
  | .jg _ => s.choose [.ZF, .SF, .OF] (!(s.flags.ZF || s.flags.SF != s.flags.OF))
  | .jcxz _ => s.gpr.cx == 0
  | .jmpNear _ | .jmpFar _ _ | .jmpShort _ | .jmpNearIndirect _ | .jmpFarIndirect _ => true
  | .loop _ => s.gpr.cx != 1
  | .loope _ => s.gpr.cx != 1 && s.choose [.ZF] s.flags.ZF
  | .loopne _ => s.gpr.cx != 1 && s.choose [.ZF] (!s.flags.ZF)
  | .retNear | .retNearPop _ | .retFar | .retFarPop _ => true
  | .input _ _ | .lahf | .lds _ _ | .lea _ _ | .les _ _ | .movReg _ | .movFromSeg _ _ | .movToSeg _ _
  | .movLoad _ _ | .movStore _ _ | .movImm _ | .output _ _ | .pop _ | .popf | .push _ | .pushf | .sahf | .xchg _
  | .xlat | .aaa | .aad | .aam | .aas | .adc _ | .add _ | .cbw | .cmp _ | .cwd | .daa | .das | .dec _ | .imul _
  | .inc _ | .mul _ | .neg _ | .sbb _ | .sub _ | .and _ | .not _ | .or _ | .rcl _ | .rcr _ | .rol _ | .ror _
  | .sal _ | .sar _ | .shr _ | .test _ | .xor _ | .cmps _ | .lods _ | .movs _ | .scas _ | .stos _ | .rep | .repe
  | .repne | .clc | .cld | .cli | .cmc | .esc _ _ | .hlt | .lock | .nop | .stc | .std | .sti | .wait | .esOverride
  | .csOverride | .ssOverride | .dsOverride => false

end Sys2Proof
end

