-- ==== Sys2Proof/Certificates/Slice0/Obligations.lean ====
section
/-! DEFINITION. The statements for the provers. Each docstring names the rules of `spec/` it rests on. -/

open Sys2Proof Sys2Proof.Machine

/-! ## Reset -/

/-- `10_state.md` R37, `70_reset_and_hazards.md` R561: what the spec gives for reset. (The general registers, memory and the
inputs at reset are the model's choice, logs 4, 6, 7, and nothing is said of them here.) -/
def Obligations.ResetStateAsGiven : Prop :=
  (∀ f, State.reset.flags.get f = false ∧ State.reset.flags.isUndef f = false) ∧ State.reset.ip = 0 ∧ State.reset.segs.cs = 0xFFFF ∧
    State.reset.segs.ds = 0 ∧ State.reset.segs.es = 0 ∧ State.reset.segs.ss = 0 ∧
    State.reset.halted = false ∧ State.reset.waiting = false ∧ State.reset.window = .closed ∧
    State.reset.hasPrefix = false ∧ State.reset.repeating = none ∧ State.reset.staleCode = [] ∧ State.reset.nmiPending = false ∧
    phys State.reset.segs.cs State.reset.ip = 0xFFFF0

/-- `70_reset_and_hazards.md` R560: RESET at any moment of a step (log 5: which moments a sample can name is the model's choice,
and nothing is said of the general registers). Of an instruction or an interrupt sequence that is cut short the stores in `landed`
have been made and no other; LOCK becomes inactive (log 24). -/
def Obligations.ResetLineEndsEverything : Prop :=
  ∀ (s : State) (m : ResetMoment), s.lines.reset = some m →
    (m ≠ .before → ∃ u, s.latchNmi.runDue (fun _ t => t) = .next u) →
    ∃ t, step s = .next t ∧ (∀ f, t.flags.get f = false ∧ t.flags.isUndef f = false) ∧ t.ip = 0 ∧ t.segs.cs = 0xFFFF ∧
      t.segs.ds = 0 ∧ t.segs.es = 0 ∧ t.segs.ss = 0 ∧ t.halted = false ∧ t.waiting = false ∧ t.window = .closed ∧
      t.hasPrefix = false ∧ t.repeating = none ∧ t.staleCode = [] ∧ t.nmiPending = false ∧ t.lockOutput = false ∧
      (m = .before → t.mem = s.mem ∧ (s.lockOutput = false → t.events = s.events)) ∧
      (∀ c u, m = .inInstruction c → s.latchNmi.runDue (fun _ t => t) = .next u →
        ∀ a, t.byteAt a = if a ∈ c.landed then u.byteAt a else s.byteAt a) ∧
      (∀ c u v, m = .inBoundary c → s.latchNmi.runDue (fun _ t => t) = .next u → s.latchNmi.advance = .next v →
        ∀ a, t.byteAt a = if a ∈ c.landed then v.byteAt a else u.byteAt a)

/-! ## Registers and memory -/

/-- `10_state.md` R21. -/
def Obligations.ByteRegistersAreHalves : Prop :=
  ∀ (s : State) (r : Reg8) (v : Byte),
    (s.reg8 r =
      if r.bits.toNat < 4 then (s.reg16 (Reg16.ofBits r.bits)).extractLsb' 0 8
      else (s.reg16 (Reg16.ofBits (r.bits - 4))).extractLsb' 8 8) ∧
    (s.setReg8 r v).reg8 r = v ∧
    (∀ q, q ≠ r → (s.setReg8 r v).reg8 q = s.reg8 q) ∧
    (∀ q ∈ [Reg16.sp, .bp, .si, .di], (s.setReg8 r v).reg16 q = s.reg16 q)

/-- `20_memory.md` R65, R66, R69. -/
def Obligations.StoresAreReadBack : Prop :=
  ∀ (s : State) (seg off v : Word) (b : Byte),
    (∀ a, (s.write8 seg off b).byteAt a = if a = phys seg off then b else s.byteAt a) ∧
    (s.write16 seg off v).read16 seg off = v ∧
    (s.write16 seg off v).read8 seg off = lowByte v ∧
    (s.write16 seg off v).read8 seg (off + 1) = highByte v ∧
    (∀ a, a ∉ wordAt seg off → (s.write16 seg off v).byteAt a = s.byteAt a) ∧
    (wordAt seg 0xFFFF = [phys seg 0xFFFF, phys seg 0])

/-- `20_memory.md` R60 with log 6: equal contents are equal data. -/
def Obligations.CanonicalMemoryIsUnique : Prop :=
  ∀ m m' : Memory, m.wf → m'.wf → (∀ a, m.read a = m'.read a) → m = m'

/-- `30_encoding.md` R106 (the table), R107, `20_memory.md` R61 to R63: addresses and segments of memory operands. That an 8-bit
displacement is sign-extended is decision D3, where the source says unsigned (log 22). -/
def Obligations.MemoryOperandAddresses : Prop :=
  ∀ (s : State) (b : EaBase) (d : Byte) (w a : Word) (q : SegReg),
    ([EaBase.bxSi, .bxDi, .bpSi, .bpDi, .si, .di, .bp, .bx].map s.eaBase =
      [s.gpr.bx + s.gpr.si, s.gpr.bx + s.gpr.di, s.gpr.bp + s.gpr.si, s.gpr.bp + s.gpr.di, s.gpr.si, s.gpr.di,
        s.gpr.bp, s.gpr.bx]) ∧
    (s.ea (.direct a) = a ∧ s.ea (.based b .none) = s.eaBase b ∧
      s.ea (.based b (.d16 w)) = s.eaBase b + w ∧
      ((s.ea (.based b (.d8 d))).toNat : Int) = ((s.eaBase b).toNat + d.toInt) % 65536) ∧
    (s.segOverride = some q → ∀ m, s.memSeg m = s.sreg q) ∧
    (s.segOverride = none →
      s.memSeg (.direct a) = s.segs.ds ∧
      ∀ x, s.memSeg (.based b x) = if b = .bpSi ∨ b = .bpDi ∨ b = .bp then s.segs.ss else s.segs.ds) ∧
    (phys w a).toNat = (w.toNat * 16 + a.toNat) % 1048576

/-! ## Flags -/

/-- `10_state.md` R26, R33 (b): the place of each flag in the stored word, and the undefined positions. That a flag loaded from a word is
not `undef`, whatever was stored, is log 1. -/
def Obligations.FlagsWordFormat : Prop :=
  ∀ (f : Flags) (u v : Word),
    ([0, 2, 4, 6, 7, 8, 9, 10, 11].map (f.word u).getLsbD =
      [f.CF, f.PF, f.AF, f.ZF, f.SF, f.TF, f.IF, f.DF, f.OF]) ∧
    Flags.ofWord (f.word u) = f.defined ∧
    (∀ i ∈ [1, 3, 5, 12, 13, 14, 15], (f.word u).getLsbD i = u.getLsbD i) ∧
    (f.word u &&& 0x0FD5) = (f.word v &&& 0x0FD5) ∧
    Flags.ofWord (v &&& 0x0FD5) = Flags.ofWord v

/-- `10_state.md` R29, R30, with the signed reading of OF. -/
def Obligations.AdditionFlags : Prop :=
  ∀ (n : Nat) (a b : BitVec n) (c : Bool) (f : Flags), 0 < n →
    (addFlags a b c f).1.toNat = (a.toNat + b.toNat + c.toNat) % 2 ^ n ∧
    Describes (addFlags a b c f).2 (addFlags a b c f).1 ∧
    ((addFlags a b c f).2.CF = true ↔ 2 ^ n ≤ a.toNat + b.toNat + c.toNat) ∧
    ((addFlags a b c f).2.AF = true ↔ 16 ≤ a.toNat % 16 + b.toNat % 16 + c.toNat) ∧
    ((addFlags a b c f).2.OF = true ↔
      2 ^ (n - 1) ≤ a.toInt + b.toInt + c.toNat ∨ a.toInt + b.toInt + c.toNat < -2 ^ (n - 1)) ∧
    ((addFlags a b c f).2.OF = true ↔ a.msb = b.msb ∧ (addFlags a b c f).1.msb ≠ a.msb) ∧
    (addFlags a b c f).2.undef = .none ∧ SameControl (addFlags a b c f).2 f

/-- `10_state.md` R29, R31, with the signed reading of OF. -/
def Obligations.SubtractionFlags : Prop :=
  ∀ (n : Nat) (a b : BitVec n) (c : Bool) (f : Flags), 0 < n →
    ((subFlags a b c f).1.toNat : Int) = ((a.toNat : Int) - b.toNat - c.toNat) % 2 ^ n ∧
    Describes (subFlags a b c f).2 (subFlags a b c f).1 ∧
    ((subFlags a b c f).2.CF = true ↔ a.toNat < b.toNat + c.toNat) ∧
    ((subFlags a b c f).2.AF = true ↔ a.toNat % 16 < b.toNat % 16 + c.toNat) ∧
    ((subFlags a b c f).2.OF = true ↔
      2 ^ (n - 1) ≤ a.toInt - b.toInt - c.toNat ∨ a.toInt - b.toInt - c.toNat < -2 ^ (n - 1)) ∧
    ((subFlags a b c f).2.OF = true ↔ a.msb ≠ b.msb ∧ (subFlags a b c f).1.msb ≠ a.msb) ∧
    (subFlags a b c f).2.undef = .none ∧ SameControl (subFlags a b c f).2 f

/-- `41_arithmetic.md` R248 and the last column of `44_control_transfer.md` R358: after CMP of `a` and `b`, each jump goes to
`IP_next` plus its sign-extended increment exactly when its relation holds, and otherwise changes nothing. -/
def Obligations.CompareThenJump : Prop :=
  ∀ (f : AluForm) (s : State), ∃ t, exec (.cmp f) s = .next t ∧
    Compared s (fun a b => ∀ d : Byte,
      exec (.je d) t = .next (if a = b then t.jumped d else t) ∧
      exec (.jne d) t = .next (if a = b then t else t.jumped d) ∧
      exec (.jb d) t = .next (if a.toNat < b.toNat then t.jumped d else t) ∧
      exec (.jae d) t = .next (if a.toNat < b.toNat then t else t.jumped d) ∧
      exec (.jbe d) t = .next (if a.toNat ≤ b.toNat then t.jumped d else t) ∧
      exec (.ja d) t = .next (if a.toNat ≤ b.toNat then t else t.jumped d) ∧
      exec (.jl d) t = .next (if a.toInt < b.toInt then t.jumped d else t) ∧
      exec (.jge d) t = .next (if a.toInt < b.toInt then t else t.jumped d) ∧
      exec (.jle d) t = .next (if a.toInt ≤ b.toInt then t.jumped d else t) ∧
      exec (.jg d) t = .next (if a.toInt ≤ b.toInt then t else t.jumped d)) (s.aluOperands f)

/-! ## Data transfer -/

/-- `40_data_transfer.md` R206, R208, R209. -/
def Obligations.MovMovesTheSource : Prop :=
  ∀ s : State,
    (∀ f, ∃ t, exec (.movReg f) s = .next t ∧ Moved s t (s.movOperands f) ∧ t.flags = s.flags) ∧
    (∀ f, ∃ t, exec (.movImm f) s = .next t ∧ Moved s t (s.movImmOperands f) ∧ t.flags = s.flags) ∧
    (∀ a, ∃ t, exec (.movLoad .byte a) s = .next t ∧
      Stored8 s t (.reg .al) (s.read8 (s.dataSeg .ds) a) ∧ t.flags = s.flags) ∧
    (∀ a, ∃ t, exec (.movLoad .word a) s = .next t ∧
      Stored16 s t (.reg .ax) (s.read16 (s.dataSeg .ds) a) ∧ t.flags = s.flags) ∧
    (∀ a, ∃ t, exec (.movStore .byte a) s = .next t ∧
      Stored8 s t (.mem (s.dataSeg .ds) a) (s.reg8 .al) ∧ t.flags = s.flags) ∧
    (∀ a, ∃ t, exec (.movStore .word a) s = .next t ∧
      Stored16 s t (.mem (s.dataSeg .ds) a) s.gpr.ax ∧ t.flags = s.flags)

/-- `40_data_transfer.md` R207, for the encodings it lists. -/
def Obligations.MovSegmentRegister : Prop :=
  ∀ (s : State) (rm : RM Reg16) (q : SegReg),
    (∃ t, exec (.movFromSeg rm q) s = .next t ∧
      Stored16 s t (s.locate rm) (s.sreg q) ∧ t.flags = s.flags ∧ t.window = s.window) ∧
    (q ≠ .cs →
      ∃ t, exec (.movToSeg q rm) s = .next t ∧ t.sreg q = s.get16 (s.locate rm) ∧
        (∀ p, p ≠ q → t.sreg p = s.sreg p) ∧ t.window = .all ∧ t.gpr = s.gpr ∧ t.mem = s.mem ∧ t.flags = s.flags)

/-- `40_data_transfer.md` R203, R204, R205: LDS, LES and LEA; both words are read before either register is written. -/
def Obligations.PointerLoadsAndLea : Prop :=
  ∀ (s : State) (d : Reg16) (m : Mem),
    (∃ t, exec (.lds d m) s = .next t ∧ t.reg16 d = s.read16 (s.memSeg m) (s.ea m) ∧
      t.segs.ds = s.read16 (s.memSeg m) (s.ea m + 2) ∧
      t.segs.es = s.segs.es ∧ t.segs.cs = s.segs.cs ∧ t.segs.ss = s.segs.ss ∧
      SameRegsBut [d] s t ∧ t.mem = s.mem ∧ t.flags = s.flags) ∧
    (∃ t, exec (.les d m) s = .next t ∧ t.reg16 d = s.read16 (s.memSeg m) (s.ea m) ∧
      t.segs.es = s.read16 (s.memSeg m) (s.ea m + 2) ∧
      t.segs.ds = s.segs.ds ∧ t.segs.cs = s.segs.cs ∧ t.segs.ss = s.segs.ss ∧
      SameRegsBut [d] s t ∧ t.mem = s.mem ∧ t.flags = s.flags) ∧
    (∃ t, exec (.lea d m) s = .next t ∧ t.reg16 d = s.ea m ∧ t.segs = s.segs ∧
      SameRegsBut [d] s t ∧ t.mem = s.mem ∧ t.flags = s.flags)

/-- `40_data_transfer.md` R202, R212, R214, R215. That the flags SAHF and POPF load are not `undef`, also where the loaded bit was stored
for an `undef` flag, is the model's choice (log 1). -/
def Obligations.FlagTransfers : Prop :=
  ∀ s : State,
    (∃ t, exec .lahf s = .next t ∧
      [(t.reg8 .ah).getLsbD 7, (t.reg8 .ah).getLsbD 6, (t.reg8 .ah).getLsbD 4, (t.reg8 .ah).getLsbD 2,
        (t.reg8 .ah).getLsbD 0] = [s.flags.SF, s.flags.ZF, s.flags.AF, s.flags.PF, s.flags.CF] ∧
      t.reg8 .al = s.reg8 .al ∧ SameRegsBut [.ax] s t ∧ t.flags = s.flags ∧ t.mem = s.mem) ∧
    (∃ t, exec .sahf s = .next t ∧
      [t.flags.SF, t.flags.ZF, t.flags.AF, t.flags.PF, t.flags.CF] =
        [(s.reg8 .ah).getLsbD 7, (s.reg8 .ah).getLsbD 6, (s.reg8 .ah).getLsbD 4, (s.reg8 .ah).getLsbD 2,
          (s.reg8 .ah).getLsbD 0] ∧
      t.flags.OF = s.flags.OF ∧ t.flags.undef = { UndefFlags.none with OF := s.flags.undef.OF } ∧
      SameControl t.flags s.flags ∧ t.gpr = s.gpr ∧ t.mem = s.mem) ∧
    (∃ t, exec .pushf s = .next t ∧ t.gpr.sp = s.gpr.sp - 2 ∧
      Flags.ofWord (t.read16 s.segs.ss (s.gpr.sp - 2)) = s.flags.defined ∧
      SameMemoryBut s.pushBytes s t ∧ SameRegsBut [.sp] s t ∧ t.flags = s.flags) ∧
    (∃ t, exec .popf s = .next t ∧ t.gpr.sp = s.gpr.sp + 2 ∧
      (∀ u, (t.flags.word u &&& 0x0FD5) = (s.read16 s.segs.ss s.gpr.sp &&& 0x0FD5)) ∧
      t.flags.undef = .none ∧ t.mem = s.mem ∧ SameRegsBut [.sp] s t)

/-- `40_data_transfer.md` R211, R213, decision D20: PUSH SP stores the decremented SP, POP SP keeps the popped word. -/
def Obligations.PushAndPop : Prop :=
  ∀ (s : State) (r : Reg16) (q : SegReg) (m : Mem),
    (∃ t, exec (.push (.seg q)) s = .next t ∧ t.gpr.sp = s.gpr.sp - 2 ∧ SameRegsBut [.sp] s t ∧
      t.read16 s.segs.ss (s.gpr.sp - 2) = s.sreg q ∧ SameMemoryBut s.pushBytes s t) ∧
    (∀ i ∈ [Instr.push (.r16 r), .push (.rm16 (.reg r))],
      ∃ t, exec i s = .next t ∧ t.gpr.sp = s.gpr.sp - 2 ∧ SameRegsBut [.sp] s t ∧
        t.read16 s.segs.ss (s.gpr.sp - 2) = (if r = .sp then s.gpr.sp - 2 else s.reg16 r) ∧
        SameMemoryBut s.pushBytes s t) ∧
    (∃ t, exec (.push (.rm16 (.mem m))) s = .next t ∧ t.gpr.sp = s.gpr.sp - 2 ∧ SameRegsBut [.sp] s t ∧
      t.read16 s.segs.ss (s.gpr.sp - 2) = s.read16 (s.memSeg m) (s.ea m) ∧ SameMemoryBut s.pushBytes s t) ∧
    (q ≠ .cs →
      ∃ t, exec (.pop (.seg q)) s = .next t ∧ t.gpr.sp = s.gpr.sp + 2 ∧ SameRegsBut [.sp] s t ∧
        t.sreg q = s.read16 s.segs.ss s.gpr.sp ∧ (∀ p, p ≠ q → t.sreg p = s.sreg p) ∧ t.window = .all ∧
        t.mem = s.mem) ∧
    (∀ i ∈ [Instr.pop (.r16 r), .pop (.rm16 (.reg r))],
      ∃ t, exec i s = .next t ∧ t.reg16 r = s.read16 s.segs.ss s.gpr.sp ∧
        (r ≠ .sp → t.gpr.sp = s.gpr.sp + 2) ∧ SameRegsBut [.sp, r] s t ∧ t.mem = s.mem) ∧
    (∃ t, exec (.pop (.rm16 (.mem m))) s = .next t ∧ t.gpr.sp = s.gpr.sp + 2 ∧ SameRegsBut [.sp] s t ∧
      t.read16 (s.memSeg m) (s.ea m) = s.read16 s.segs.ss s.gpr.sp ∧
      SameMemoryBut (wordAt (s.memSeg m) (s.ea m)) s t)

/-- `40_data_transfer.md` R216, R217, `20_memory.md` R78: with a memory operand XCHG makes LOCK active for the read and the write, if
a prefix has not done so already (how the environment sees that is log 24). -/
def Obligations.XchgAndXlat : Prop :=
  ∀ s : State,
    (∀ r rm, ∃ t, exec (.xchg (.r8Rm8 r rm)) s = .next t ∧ t.reg8 r = s.get8 (s.locate rm) ∧
      t.get8 (s.locate rm) = s.reg8 r ∧ (∀ q, q ≠ r → s.locate rm ≠ .reg q → t.reg8 q = s.reg8 q) ∧
      SameRegsBut (Reg8Parent r :: (s.locate rm).regs8) s t ∧ SameMemoryBut (s.locate rm).bytes8 s t ∧
      t.flags = s.flags ∧ t.events = xchgEvents s rm) ∧
    (∀ r rm, ∃ t, exec (.xchg (.r16Rm16 r rm)) s = .next t ∧ t.reg16 r = s.get16 (s.locate rm) ∧
      t.get16 (s.locate rm) = s.reg16 r ∧ SameRegsBut (r :: (s.locate rm).regs16) s t ∧
      SameMemoryBut (s.locate rm).bytes16 s t ∧ t.flags = s.flags ∧ t.events = xchgEvents s rm) ∧
    (∀ r, ∃ t, exec (.xchg (.axR16 r)) s = .next t ∧ t.gpr.ax = s.reg16 r ∧ t.reg16 r = s.gpr.ax ∧
      SameRegsBut [.ax, r] s t ∧ t.mem = s.mem ∧ t.flags = s.flags ∧ t.events = s.events) ∧
    (∃ t, exec .xlat s = .next t ∧
      Stored8 s t (.reg .al) (s.read8 (s.dataSeg .ds) (BitVec.ofNat 16 (s.gpr.bx.toNat + (s.reg8 .al).toNat))) ∧
      t.flags = s.flags)

/-- `40_data_transfer.md` R201, R210, `20_memory.md` R64, R82: the environment's answer is a free value (log 8), and what is
loaded is what the event reports. -/
def Obligations.PortAccesses : Prop :=
  ∀ (s : State) (p : Port) (n : Word), (p = .dx → n = s.gpr.dx) → (∀ b, p = .imm8 b → n.toNat = b.toNat) →
    (∃ t v, exec (.input .byte p) s = .next t ∧ t.events = .portRead8 n v :: s.events ∧
      Stored8 s t (.reg .al) v ∧ t.flags = s.flags) ∧
    (∃ t v, exec (.input .word p) s = .next t ∧ t.events = .portRead16 n v :: s.events ∧
      Stored16 s t (.reg .ax) v ∧ t.flags = s.flags) ∧
    exec (.output .byte p) s = .next { s with events := .portWrite8 n (s.reg8 .al) :: s.events } ∧
    exec (.output .word p) s = .next { s with events := .portWrite16 n s.gpr.ax :: s.events }

/-! ## Arithmetic -/

/-- `41_arithmetic.md` R245, R246, R248, R252, R256, R258, R259, R260, over the flag functions of `10_state.md` R30, R31. ADC and SBB
after an `undef` CF leave their result and all six flags `undef` (R245, `93_implementation_defined.md` U18; log 1). -/
def Obligations.AdditiveInstructions : Prop :=
  ∀ s : State,
    (∀ f,
      (∃ t, exec (.add f) s = .next t ∧
        Combined s t (fun a b r => (r, t.flags) = addFlags a b false s.flags) (s.aluOperands f)) ∧
      (∃ t, exec (.adc f) s = .next t ∧
        Combined s t (fun a b r => s.flags.undef.CF = false → (r, t.flags) = addFlags a b s.flags.CF s.flags)
          (s.aluOperands f) ∧
        (s.flags.undef.CF = true → t.flags.undef = .all ∧ SameControl t.flags s.flags)) ∧
      (∃ t, exec (.sub f) s = .next t ∧
        Combined s t (fun a b r => (r, t.flags) = subFlags a b false s.flags) (s.aluOperands f)) ∧
      (∃ t, exec (.sbb f) s = .next t ∧
        Combined s t (fun a b r => s.flags.undef.CF = false → (r, t.flags) = subFlags a b s.flags.CF s.flags)
          (s.aluOperands f) ∧
        (s.flags.undef.CF = true → t.flags.undef = .all ∧ SameControl t.flags s.flags))) ∧
    (∀ f, ∃ t, exec (.cmp f) s = .next t ∧ t = { s with flags := t.flags } ∧
      Compared s (fun a b => t.flags = (subFlags a b false s.flags).2) (s.aluOperands f)) ∧
    (∀ f,
      (∃ t, exec (.inc f) s = .next t ∧
        Updated s t (fun a r =>
          r = (addFlags a 1 false s.flags).1 ∧
            t.flags = { (addFlags a 1 false s.flags).2 with
              CF := s.flags.CF, undef := { UndefFlags.none with CF := s.flags.undef.CF } }) (s.incDest f)) ∧
      (∃ t, exec (.dec f) s = .next t ∧
        Updated s t (fun a r =>
          r = (subFlags a 1 false s.flags).1 ∧
            t.flags = { (subFlags a 1 false s.flags).2 with
              CF := s.flags.CF, undef := { UndefFlags.none with CF := s.flags.undef.CF } }) (s.incDest f))) ∧
    (∀ f, ∃ t, exec (.neg f) s = .next t ∧
      Updated s t (fun a r =>
        r = -a ∧ (t.flags.CF = true ↔ a ≠ 0) ∧ (t.flags.OF = true ↔ a ≠ 0 ∧ -a = a) ∧
          (t.flags.AF = true ↔ a.toNat % 16 ≠ 0) ∧ Describes t.flags r ∧ t.flags.undef = .none ∧
          SameControl t.flags s.flags)
        (s.unaryDest f))

/-- `41_arithmetic.md` R247, R249, R255, R257. After MUL and IMUL exactly SF, ZF, AF and PF are `undef` (log 1). -/
def Obligations.MultiplicationAndSignExtension : Prop :=
  ∀ (s : State) (x : RM Reg8) (y : RM Reg16),
    (∃ t, exec (.mul (.rm8 x)) s = .next t ∧
      t.gpr.ax.toNat = (s.reg8 .al).toNat * (s.get8 (s.locate x)).toNat ∧ SameRegsBut [.ax] s t ∧ t.mem = s.mem ∧
      (t.flags.CF = true ↔ 256 ≤ (s.reg8 .al).toNat * (s.get8 (s.locate x)).toNat) ∧ t.flags.OF = t.flags.CF ∧
      t.flags.undef = { UndefFlags.all with CF := false, OF := false } ∧ SameControl t.flags s.flags) ∧
    (∃ t, exec (.mul (.rm16 y)) s = .next t ∧
      t.gpr.dx.toNat * 65536 + t.gpr.ax.toNat = s.gpr.ax.toNat * (s.get16 (s.locate y)).toNat ∧
      SameRegsBut [.ax, .dx] s t ∧ t.mem = s.mem ∧
      (t.flags.CF = true ↔ 65536 ≤ s.gpr.ax.toNat * (s.get16 (s.locate y)).toNat) ∧ t.flags.OF = t.flags.CF ∧
      t.flags.undef = { UndefFlags.all with CF := false, OF := false } ∧ SameControl t.flags s.flags) ∧
    (∃ t, exec (.imul (.rm8 x)) s = .next t ∧
      t.gpr.ax.toInt = (s.reg8 .al).toInt * (s.get8 (s.locate x)).toInt ∧ SameRegsBut [.ax] s t ∧ t.mem = s.mem ∧
      (t.flags.CF = false ↔ t.gpr.ax.toInt = (t.reg8 .al).toInt) ∧ t.flags.OF = t.flags.CF ∧
      t.flags.undef = { UndefFlags.all with CF := false, OF := false } ∧ SameControl t.flags s.flags) ∧
    (∃ t, exec (.imul (.rm16 y)) s = .next t ∧
      t.dxAx.toInt = s.gpr.ax.toInt * (s.get16 (s.locate y)).toInt ∧ SameRegsBut [.ax, .dx] s t ∧ t.mem = s.mem ∧
      (t.flags.CF = false ↔ t.dxAx.toInt = t.gpr.ax.toInt) ∧ t.flags.OF = t.flags.CF ∧
      t.flags.undef = { UndefFlags.all with CF := false, OF := false } ∧ SameControl t.flags s.flags) ∧
    (∃ t, exec .cbw s = .next t ∧ t = { s with gpr := t.gpr } ∧ t.gpr.ax.toInt = (s.reg8 .al).toInt ∧
      SameRegsBut [.ax] s t) ∧
    (∃ t, exec .cwd s = .next t ∧ t = { s with gpr := t.gpr } ∧ t.dxAx.toInt = s.gpr.ax.toInt ∧
      SameRegsBut [.dx] s t)

/-- `41_arithmetic.md` R253, R254: divisions that do not raise type 0. The most negative quotient is left to
`Obligations.MostNegativeQuotient`. -/
def Obligations.DivisionsThatFit : Prop :=
  ∀ (s : State) (x : RM Reg8) (y : RM Reg16),
    ((s.get8 (s.locate x)).toNat ≠ 0 → s.gpr.ax.toNat / (s.get8 (s.locate x)).toNat < 256 →
      ∃ t, exec (.div (.rm8 x)) s = .next t ∧
        (t.reg8 .al).toNat = s.gpr.ax.toNat / (s.get8 (s.locate x)).toNat ∧
        (t.reg8 .ah).toNat = s.gpr.ax.toNat % (s.get8 (s.locate x)).toNat ∧
        SameRegsBut [.ax] s t ∧ t.mem = s.mem ∧ t.ip = s.ip ∧ t.segs = s.segs ∧ SameControl t.flags s.flags) ∧
    ((s.get16 (s.locate y)).toNat ≠ 0 → s.dxAx.toNat / (s.get16 (s.locate y)).toNat < 65536 →
      ∃ t, exec (.div (.rm16 y)) s = .next t ∧
        t.gpr.ax.toNat = s.dxAx.toNat / (s.get16 (s.locate y)).toNat ∧
        t.gpr.dx.toNat = s.dxAx.toNat % (s.get16 (s.locate y)).toNat ∧
        SameRegsBut [.ax, .dx] s t ∧ t.mem = s.mem ∧ t.ip = s.ip ∧ t.segs = s.segs ∧
        SameControl t.flags s.flags) ∧
    ((s.get8 (s.locate x)).toInt ≠ 0 → -128 < s.gpr.ax.toInt.tdiv (s.get8 (s.locate x)).toInt →
      s.gpr.ax.toInt.tdiv (s.get8 (s.locate x)).toInt < 128 →
      ∃ t, exec (.idiv (.rm8 x)) s = .next t ∧
        (t.reg8 .al).toInt = s.gpr.ax.toInt.tdiv (s.get8 (s.locate x)).toInt ∧
        (t.reg8 .ah).toInt = s.gpr.ax.toInt.tmod (s.get8 (s.locate x)).toInt ∧
        SameRegsBut [.ax] s t ∧ t.mem = s.mem ∧ t.ip = s.ip ∧ t.segs = s.segs ∧ SameControl t.flags s.flags) ∧
    ((s.get16 (s.locate y)).toInt ≠ 0 → -32768 < s.dxAx.toInt.tdiv (s.get16 (s.locate y)).toInt →
      s.dxAx.toInt.tdiv (s.get16 (s.locate y)).toInt < 32768 →
      ∃ t, exec (.idiv (.rm16 y)) s = .next t ∧
        t.gpr.ax.toInt = s.dxAx.toInt.tdiv (s.get16 (s.locate y)).toInt ∧
        t.gpr.dx.toInt = s.dxAx.toInt.tmod (s.get16 (s.locate y)).toInt ∧
        SameRegsBut [.ax, .dx] s t ∧ t.mem = s.mem ∧ t.ip = s.ip ∧ t.segs = s.segs ∧
        SameControl t.flags s.flags)

/-- `41_arithmetic.md` R253, R254, `60_exceptions.md` R501: a divide error is the interrupt sequence of type 0 from a state
`u` that still has IP = `IP_next`, CS, the stack, memory and TF, IF, DF; the quotient and remainder registers and the six
arithmetic flags of `u` are free (logs 1, 3). -/
def Obligations.DivideErrorsTrap : Prop :=
  ∀ (s : State) (x : RM Reg8) (y : RM Reg16),
    ((s.get8 (s.locate x)).toNat = 0 ∨ 255 < s.gpr.ax.toNat / (s.get8 (s.locate x)).toNat →
      ∃ u : State, exec (.div (.rm8 x)) s = .next (u.interrupt 0) ∧
        SameRegsBut [.ax] s u ∧ u.mem = s.mem ∧ u.ip = s.ip ∧ u.segs = s.segs ∧ SameControl u.flags s.flags) ∧
    ((s.get16 (s.locate y)).toNat = 0 ∨ 65535 < s.dxAx.toNat / (s.get16 (s.locate y)).toNat →
      ∃ u : State, exec (.div (.rm16 y)) s = .next (u.interrupt 0) ∧
        SameRegsBut [.ax, .dx] s u ∧ u.mem = s.mem ∧ u.ip = s.ip ∧ u.segs = s.segs ∧
        SameControl u.flags s.flags) ∧
    ((s.get8 (s.locate x)).toInt = 0 ∨ 127 < s.gpr.ax.toInt.tdiv (s.get8 (s.locate x)).toInt ∨
        s.gpr.ax.toInt.tdiv (s.get8 (s.locate x)).toInt < -128 →
      ∃ u : State, exec (.idiv (.rm8 x)) s = .next (u.interrupt 0) ∧
        SameRegsBut [.ax] s u ∧ u.mem = s.mem ∧ u.ip = s.ip ∧ u.segs = s.segs ∧ SameControl u.flags s.flags) ∧
    ((s.get16 (s.locate y)).toInt = 0 ∨ 32767 < s.dxAx.toInt.tdiv (s.get16 (s.locate y)).toInt ∨
        s.dxAx.toInt.tdiv (s.get16 (s.locate y)).toInt < -32768 →
      ∃ u : State, exec (.idiv (.rm16 y)) s = .next (u.interrupt 0) ∧
        SameRegsBut [.ax, .dx] s u ∧ u.mem = s.mem ∧ u.ip = s.ip ∧ u.segs = s.segs ∧
        SameControl u.flags s.flags)

/-- `41_arithmetic.md` R254, decision D21 (log 16): the most negative quotient, -128 or -32768, raises type 0 iff `IDIV_MIN_FAULTS`;
the remainder is the one truncation leaves. In the state `u` a divide error starts from, the quotient and remainder registers and the
six arithmetic flags are free (logs 1, 3). -/
def Obligations.MostNegativeQuotient : Prop :=
  ∀ (s : State) (x : RM Reg8) (y : RM Reg16),
    ((s.get8 (s.locate x)).toInt ≠ 0 → s.gpr.ax.toInt.tdiv (s.get8 (s.locate x)).toInt = -128 →
      if Config.idivMinFaults then
        ∃ u : State, exec (.idiv (.rm8 x)) s = .next (u.interrupt 0) ∧
          SameRegsBut [.ax] s u ∧ u.mem = s.mem ∧ u.ip = s.ip ∧ u.segs = s.segs ∧ SameControl u.flags s.flags
      else
        ∃ t, exec (.idiv (.rm8 x)) s = .next t ∧ (t.reg8 .al).toInt = -128 ∧
          (t.reg8 .ah).toInt = s.gpr.ax.toInt.tmod (s.get8 (s.locate x)).toInt ∧
          SameRegsBut [.ax] s t ∧ t.mem = s.mem ∧ t.ip = s.ip ∧ t.segs = s.segs ∧ SameControl t.flags s.flags) ∧
    ((s.get16 (s.locate y)).toInt ≠ 0 → s.dxAx.toInt.tdiv (s.get16 (s.locate y)).toInt = -32768 →
      if Config.idivMinFaults then
        ∃ u : State, exec (.idiv (.rm16 y)) s = .next (u.interrupt 0) ∧
          SameRegsBut [.ax, .dx] s u ∧ u.mem = s.mem ∧ u.ip = s.ip ∧ u.segs = s.segs ∧ SameControl u.flags s.flags
      else
        ∃ t, exec (.idiv (.rm16 y)) s = .next t ∧ t.gpr.ax.toInt = -32768 ∧
          t.gpr.dx.toInt = s.dxAx.toInt.tmod (s.get16 (s.locate y)).toInt ∧
          SameRegsBut [.ax, .dx] s t ∧ t.mem = s.mem ∧ t.ip = s.ip ∧ t.segs = s.segs ∧ SameControl t.flags s.flags)

/-- `41_arithmetic.md` R241 to R244, R250, R251, decision D24. DAA and DAS are stated for every AL, AF and CF: outside packed decimal
operands that is log 27, where R250 says descriptions of the hardware differ. The flags the
rule computes are not `undef` and the others are; where a flag that is read is `undef`, the register and all six flags are
(`93_implementation_defined.md` U18; log 1). -/
def Obligations.DecimalInstructions : Prop :=
  ∀ s : State,
    (s.flags.undef.AF = false → ∃ t, exec .aaa s = .next t ∧ SameRegsBut [.ax] s t ∧ t.mem = s.mem ∧ SameControl t.flags s.flags ∧
      t.flags.CF = t.flags.AF ∧ t.flags.undef = { UndefFlags.all with AF := false, CF := false } ∧
      (t.flags.AF = true ↔ 9 < (s.reg8 .al).toNat % 16 ∨ s.flags.AF = true) ∧
      (t.flags.AF = true → (t.reg8 .al).toNat = ((s.reg8 .al).toNat + 6) % 16 ∧ t.reg8 .ah = s.reg8 .ah + 1) ∧
      (t.flags.AF = false → (t.reg8 .al).toNat = (s.reg8 .al).toNat % 16 ∧ t.reg8 .ah = s.reg8 .ah)) ∧
    (s.flags.undef.AF = false → ∃ t, exec .aas s = .next t ∧ SameRegsBut [.ax] s t ∧ t.mem = s.mem ∧ SameControl t.flags s.flags ∧
      t.flags.CF = t.flags.AF ∧ t.flags.undef = { UndefFlags.all with AF := false, CF := false } ∧
      (t.flags.AF = true ↔ 9 < (s.reg8 .al).toNat % 16 ∨ s.flags.AF = true) ∧
      (t.flags.AF = true → (t.reg8 .al).toNat = ((s.reg8 .al).toNat + 10) % 16 ∧ t.reg8 .ah = s.reg8 .ah - 1) ∧
      (t.flags.AF = false → (t.reg8 .al).toNat = (s.reg8 .al).toNat % 16 ∧ t.reg8 .ah = s.reg8 .ah)) ∧
    (∃ t, exec .aad s = .next t ∧ SameRegsBut [.ax] s t ∧ t.mem = s.mem ∧ SameControl t.flags s.flags ∧
      (t.reg8 .al).toNat = ((s.reg8 .ah).toNat * 10 + (s.reg8 .al).toNat) % 256 ∧ t.reg8 .ah = 0 ∧
      Describes t.flags (t.reg8 .al) ∧ t.flags.undef = { UndefFlags.none with OF := true, AF := true, CF := true }) ∧
    (∃ t, exec .aam s = .next t ∧ SameRegsBut [.ax] s t ∧ t.mem = s.mem ∧ SameControl t.flags s.flags ∧
      (t.reg8 .ah).toNat = (s.reg8 .al).toNat / 10 ∧ (t.reg8 .al).toNat = (s.reg8 .al).toNat % 10 ∧
      Describes t.flags (t.reg8 .al) ∧ t.flags.undef = { UndefFlags.none with OF := true, AF := true, CF := true }) ∧
    (s.flags.undef.AF = false → s.flags.undef.CF = false →
      ∃ t, exec .daa s = .next t ∧ Stored8 s t (.reg .al) (t.reg8 .al) ∧ SameControl t.flags s.flags ∧
      (t.flags.AF = true ↔ 9 < (s.reg8 .al).toNat % 16 ∨ s.flags.AF = true) ∧
      (t.flags.CF = true ↔ 0x99 < (s.reg8 .al).toNat ∨ s.flags.CF = true) ∧
      (t.reg8 .al).toNat = ((s.reg8 .al).toNat + 6 * t.flags.AF.toNat + 0x60 * t.flags.CF.toNat) % 256 ∧
      Describes t.flags (t.reg8 .al) ∧ t.flags.undef = { UndefFlags.none with OF := true }) ∧
    (s.flags.undef.AF = false → s.flags.undef.CF = false →
      ∃ t, exec .das s = .next t ∧ Stored8 s t (.reg .al) (t.reg8 .al) ∧ SameControl t.flags s.flags ∧
      (t.flags.AF = true ↔ 9 < (s.reg8 .al).toNat % 16 ∨ s.flags.AF = true) ∧
      (t.flags.CF = true ↔ 0x99 < (s.reg8 .al).toNat ∨ s.flags.CF = true) ∧
      (s.reg8 .al).toNat = ((t.reg8 .al).toNat + 6 * t.flags.AF.toNat + 0x60 * t.flags.CF.toNat) % 256 ∧
      Describes t.flags (t.reg8 .al) ∧ t.flags.undef = { UndefFlags.none with OF := true }) ∧
    (s.flags.undef.AF = true → ∀ i ∈ [Instr.aaa, .aas],
      ∃ t, exec i s = .next t ∧ SameRegsBut [.ax] s t ∧ t.mem = s.mem ∧ t.flags.undef = .all ∧
        SameControl t.flags s.flags) ∧
    (s.flags.undef.AF = true ∨ s.flags.undef.CF = true → ∀ i ∈ [Instr.daa, .das],
      ∃ t, exec i s = .next t ∧ Stored8 s t (.reg .al) (t.reg8 .al) ∧ t.flags.undef = .all ∧
        SameControl t.flags s.flags)

/-! ## Logic, shifts and rotates -/

/-- `42_logic_shift.md` R291, R292, R293, R301, R302, `10_state.md` R32. AF is free (log 1). -/
def Obligations.LogicalInstructions : Prop :=
  ∀ s : State,
    (∀ f,
      (∃ t, exec (.and f) s = .next t ∧
        Combined s t (fun a b r => r = a &&& b ∧ t.flags.OF = false ∧ t.flags.CF = false ∧ Describes t.flags r ∧
          t.flags.undef = { UndefFlags.none with AF := true } ∧ SameControl t.flags s.flags) (s.aluOperands f)) ∧
      (∃ t, exec (.or f) s = .next t ∧
        Combined s t (fun a b r => r = a ||| b ∧ t.flags.OF = false ∧ t.flags.CF = false ∧ Describes t.flags r ∧
          t.flags.undef = { UndefFlags.none with AF := true } ∧ SameControl t.flags s.flags) (s.aluOperands f)) ∧
      (∃ t, exec (.xor f) s = .next t ∧
        Combined s t (fun a b r => r = a ^^^ b ∧ t.flags.OF = false ∧ t.flags.CF = false ∧ Describes t.flags r ∧
          t.flags.undef = { UndefFlags.none with AF := true } ∧ SameControl t.flags s.flags) (s.aluOperands f))) ∧
    (∀ f, ∃ t, exec (.test f) s = .next t ∧ t = { s with flags := t.flags, draws := t.draws } ∧
      Compared s (fun a b => t.flags.OF = false ∧ t.flags.CF = false ∧ Describes t.flags (a &&& b) ∧
        t.flags.undef = { UndefFlags.none with AF := true } ∧ SameControl t.flags s.flags) (s.testOperands f)) ∧
    (∀ f, ∃ t, exec (.not f) s = .next t ∧
      Updated s t (fun {n : Nat} (a r : BitVec n) => r.toNat = 2 ^ n - 1 - a.toNat ∧ t.flags = s.flags) (s.unaryDest f))

/-- `42_logic_shift.md` R290, R294 to R297: a count of 0 does nothing; otherwise the operand is rotated, through CF for RCL and
RCR, CF is the bit moved last, OF is defined for a count of 1, and no other flag changes. RCL and RCR through an `undef` CF leave the
result, CF and OF `undef` (`93_implementation_defined.md` U18; log 1). -/
def Obligations.RotatesByAnyCount : Prop :=
  ∀ (f : ShiftForm) (s : State),
    (s.shiftCount f = 0 → ∀ i ∈ [Instr.rol f, .ror f, .rcl f, .rcr f], exec i s = .next s) ∧
    (s.shiftCount f ≠ 0 →
      (∃ t, exec (.rol f) s = .next t ∧ OnlyRotated f s t ∧
        Updated s t (fun x r => r = x.rotateLeft (s.shiftCount f) ∧ t.flags.CF = r.getLsbD 0 ∧
          (s.shiftCount f = 1 → t.flags.OF = (r.msb != x.msb))) (s.shiftDest f)) ∧
      (∃ t, exec (.ror f) s = .next t ∧ OnlyRotated f s t ∧
        Updated s t (fun x r => r = x.rotateRight (s.shiftCount f) ∧ t.flags.CF = r.msb ∧
          (s.shiftCount f = 1 → t.flags.OF = (r.msb != x.msb))) (s.shiftDest f)) ∧
      (s.flags.undef.CF = false → ∃ t, exec (.rcl f) s = .next t ∧ OnlyRotated f s t ∧
        Updated s t (fun x r =>
          BitVec.cons t.flags.CF r = (BitVec.cons s.flags.CF x).rotateLeft (s.shiftCount f) ∧
          (s.shiftCount f = 1 → t.flags.OF = (r.msb != x.msb))) (s.shiftDest f)) ∧
      (s.flags.undef.CF = false → ∃ t, exec (.rcr f) s = .next t ∧ OnlyRotated f s t ∧
        Updated s t (fun x r =>
          BitVec.cons t.flags.CF r = (BitVec.cons s.flags.CF x).rotateRight (s.shiftCount f) ∧
          (s.shiftCount f = 1 → t.flags.OF = (r.msb != x.msb))) (s.shiftDest f)) ∧
      (s.flags.undef.CF = true → ∀ i ∈ [Instr.rcl f, .rcr f],
        ∃ t, exec i s = .next t ∧ Updated s t (fun _ _ => True) (s.shiftDest f) ∧
          t.flags = { s.flags with
            CF := t.flags.CF, OF := t.flags.OF, undef := { s.flags.undef with CF := true, OF := true } }))

/-- `42_logic_shift.md` R290, R298 to R300: the whole of CL counts; SAR rounds toward minus infinity; AF is free (log 1). -/
def Obligations.ShiftsByAnyCount : Prop :=
  ∀ (f : ShiftForm) (s : State),
    (s.shiftCount f = 0 → ∀ i ∈ [Instr.sal f, .shr f, .sar f], exec i s = .next s) ∧
    (s.shiftCount f ≠ 0 →
      (∃ t, exec (.sal f) s = .next t ∧
        Updated s t (fun x r => r = x <<< s.shiftCount f ∧ t.flags.CF = (x <<< (s.shiftCount f - 1)).msb ∧
          (s.shiftCount f = 1 → t.flags.OF = (r.msb != x.msb)) ∧ Describes t.flags r ∧
          t.flags.undef = { UndefFlags.none with AF := true, OF := s.shiftCount f != 1 } ∧
          SameControl t.flags s.flags) (s.shiftDest f)) ∧
      (∃ t, exec (.shr f) s = .next t ∧
        Updated s t (fun x r => r.toNat = x.toNat / 2 ^ s.shiftCount f ∧
          t.flags.CF = x.getLsbD (s.shiftCount f - 1) ∧
          (s.shiftCount f = 1 → t.flags.OF = x.msb) ∧ Describes t.flags r ∧
          t.flags.undef = { UndefFlags.none with AF := true, OF := s.shiftCount f != 1 } ∧
          SameControl t.flags s.flags) (s.shiftDest f)) ∧
      (∃ t, exec (.sar f) s = .next t ∧
        Updated s t (fun x r => r.toInt = x.toInt / 2 ^ s.shiftCount f ∧
          t.flags.CF = (x.sshiftRight (s.shiftCount f - 1)).getLsbD 0 ∧
          (s.shiftCount f = 1 → t.flags.OF = false) ∧ Describes t.flags r ∧
          t.flags.undef = { UndefFlags.none with AF := true, OF := s.shiftCount f != 1 } ∧
          SameControl t.flags s.flags) (s.shiftDest f)))

/-! ## Strings -/

/-- `43_string.md` R330 to R333, R337, R338: one element, without a repeat prefix. `d` is 1 or 2 up or down, as DF says. -/
def Obligations.StringElements : Prop :=
  ∀ (s : State) (w : Width) (d : Word), s.repeatWith = none →
    d = (match w, s.flags.DF with | .byte, false => 1 | .byte, true => 0xFFFF | .word, false => 2 | .word, true => 0xFFFE) →
    (∃ t, exec (.movs w) s = .next t ∧ t.gpr.si = s.gpr.si + d ∧ t.gpr.di = s.gpr.di + d ∧
      SameRegsBut [.si, .di] s t ∧ SameMemoryBut (s.elementBytes w) s t ∧ t.flags = s.flags ∧
      match w with
      | .byte => t.read8 s.segs.es s.gpr.di = s.read8 (s.dataSeg .ds) s.gpr.si
      | .word => t.read16 s.segs.es s.gpr.di = s.read16 (s.dataSeg .ds) s.gpr.si) ∧
    (∃ t, exec (.stos w) s = .next t ∧ t.gpr.di = s.gpr.di + d ∧
      SameRegsBut [.di] s t ∧ SameMemoryBut (s.elementBytes w) s t ∧ t.flags = s.flags ∧
      match w with
      | .byte => t.read8 s.segs.es s.gpr.di = s.reg8 .al
      | .word => t.read16 s.segs.es s.gpr.di = s.gpr.ax) ∧
    (∃ t, exec (.lods w) s = .next t ∧ t.gpr.si = s.gpr.si + d ∧ SameRegsBut [.ax, .si] s t ∧ t.mem = s.mem ∧
      t.flags = s.flags ∧
      match w with
      | .byte => t.reg8 .al = s.read8 (s.dataSeg .ds) s.gpr.si ∧ t.reg8 .ah = s.reg8 .ah
      | .word => t.gpr.ax = s.read16 (s.dataSeg .ds) s.gpr.si) ∧
    (∃ t, exec (.cmps w) s = .next t ∧ t.gpr.si = s.gpr.si + d ∧ t.gpr.di = s.gpr.di + d ∧
      SameRegsBut [.si, .di] s t ∧ t.mem = s.mem ∧
      match w with
      | .byte => t.flags = (subFlags (s.read8 (s.dataSeg .ds) s.gpr.si) (s.read8 s.segs.es s.gpr.di) false s.flags).2
      | .word =>
        t.flags = (subFlags (s.read16 (s.dataSeg .ds) s.gpr.si) (s.read16 s.segs.es s.gpr.di) false s.flags).2) ∧
    (∃ t, exec (.scas w) s = .next t ∧ t.gpr.di = s.gpr.di + d ∧ SameRegsBut [.di] s t ∧ t.mem = s.mem ∧
      match w with
      | .byte => t.flags = (subFlags (s.reg8 .al) (s.read8 s.segs.es s.gpr.di) false s.flags).2
      | .word => t.flags = (subFlags s.gpr.ax (s.read16 s.segs.es s.gpr.di) false s.flags).2)

/-- `43_string.md` R339, with one iteration a step (log 26): with CX = 0 nothing happens, not even to ZF; otherwise the element is
processed as without the prefix, CX is counted down, and the repetition is over iff CX is 0 or, for CMPS and SCAS, the
comparison of this very iteration left ZF other than the prefix wants (R335, R336). -/
def Obligations.RepeatedStringIteration : Prop :=
  ∀ (i : Instr) (s : State) (z : RepeatWith), i.isString = true → s.repeatWith = some z →
    (s.gpr.cx = 0 → exec i s = .next { s with repeating := none }) ∧
    (s.gpr.cx ≠ 0 → ∀ u, exec i { s with repeatWith := none } = .next u →
      ∃ t, exec i s = .next t ∧ t.gpr.cx = s.gpr.cx - 1 ∧
        (∀ r, r ≠ .cx → t.reg16 r = u.reg16 r) ∧ t.mem = u.mem ∧ t.flags = u.flags ∧ t.repeatWith = some z ∧
        (t.repeating = some i ∨ t.repeating = none) ∧
        (t.repeating = none ↔
          s.gpr.cx = 1 ∨ ((∃ w, i = .cmps w ∨ i = .scas w) ∧ (u.flags.ZF = true ↔ z = .f2))))

/-- `43_string.md` R338, R339: REP STOSB with DF = 0 runs CX iterations and leaves AL in each of the CX bytes from ES:DI on, CX = 0,
DI past them, and every other byte and register as it was (one iteration a step: log 26). -/
def Obligations.RepStosFills : Prop :=
  ∀ s : State, s.repeatWith = some .f3 → s.flags.DF = false → s.gpr.cx ≠ 0 →
    ∃ t, (Nat.iterate (fun r => andThen r (exec (.stos .byte))) s.gpr.cx.toNat (.next s)) = .next t ∧
      t.gpr.cx = 0 ∧ t.repeating = none ∧ t.gpr.di = s.gpr.di + s.gpr.cx ∧ SameRegsBut [.cx, .di] s t ∧
      t.flags = s.flags ∧
      (∀ k, k < s.gpr.cx.toNat → t.read8 s.segs.es (s.gpr.di + BitVec.ofNat 16 k) = s.reg8 .al) ∧
      (∀ a, (∀ k, k < s.gpr.cx.toNat → a ≠ phys s.segs.es (s.gpr.di + BitVec.ofNat 16 k)) → t.byteAt a = s.byteAt a)

/-- `30_encoding.md` R119, `45_processor_control.md` R426, R432, `43_string.md` R334 to R336: a prefix changes its own latch only,
and the last of a kind wins (decision D13; log 10). -/
def Obligations.PrefixesSetTheirLatch : Prop :=
  ∀ s : State,
    exec .esOverride s = .next { s with segOverride := some .es } ∧
    exec .csOverride s = .next { s with segOverride := some .cs } ∧
    exec .ssOverride s = .next { s with segOverride := some .ss } ∧
    exec .dsOverride s = .next { s with segOverride := some .ds } ∧
    exec .repne s = .next { s with repeatWith := some .f2 } ∧
    exec .repe s = .next { s with repeatWith := some .f3 } ∧
    exec .rep s = .next { s with repeatWith := some .f3 } ∧
    exec .lock s = .next { s with lockPrefix := true }

/-! ## Control transfer -/

/-- `44_control_transfer.md` R350, R358 to R377, with the second names of R363 and R370: each jump, the flags its condition reads and
the condition. If a flag it reads is `undef`, the choice is (R358; log 1). -/
def Obligations.ConditionalJumps : Prop :=
  ∀ (s : State) (d : Byte),
    (∀ i reads cond, (i, reads, cond) ∈
        ([(.jo d, [.OF], s.flags.OF), (.jno d, [.OF], !s.flags.OF), (.jb d, [.CF], s.flags.CF),
          (.jae d, [.CF], !s.flags.CF), (.je d, [.ZF], s.flags.ZF), (.jne d, [.ZF], !s.flags.ZF),
          (.jbe d, [.CF, .ZF], s.flags.CF || s.flags.ZF), (.ja d, [.CF, .ZF], !(s.flags.CF || s.flags.ZF)),
          (.js d, [.SF], s.flags.SF), (.jns d, [.SF], !s.flags.SF), (.jp d, [.PF], s.flags.PF),
          (.jnp d, [.PF], !s.flags.PF), (.jl d, [.SF, .OF], s.flags.SF != s.flags.OF),
          (.jge d, [.SF, .OF], s.flags.SF == s.flags.OF),
          (.jle d, [.ZF, .SF, .OF], s.flags.ZF || s.flags.SF != s.flags.OF),
          (.jg d, [.ZF, .SF, .OF], !(s.flags.ZF || s.flags.SF != s.flags.OF)), (.jc d, [.CF], s.flags.CF),
          (.jnc d, [.CF], !s.flags.CF)] : List (Instr × List FlagName × Bool)) →
      ((∀ f ∈ reads, s.flags.isUndef f = false) → exec i s = .next (if cond then s.jumped d else s)) ∧
      ((∃ f ∈ reads, s.flags.isUndef f = true) →
        ∃ c : Bool, exec i s = .next (if c then { s.jumped d with draws := s.draws + 1 } else { s with draws := s.draws + 1 }))) ∧
    exec (.jcxz d) s = .next (if s.gpr.cx = 0 then s.jumped d else s)

/-- `44_control_transfer.md` R350, R378 to R385. LOOPE and LOOPNE that read an `undef` ZF choose freely (`93_implementation_defined.md`
U18; log 1). A taken jump empties the prefetch queue (`20_memory.md` R79). -/
def Obligations.JumpsAndLoops : Prop :=
  ∀ (s : State) (inc : Word) (d : Byte) (ip cs : Word) (rm : RM Reg16) (m : Mem),
    exec (.jmpNear inc) s = .next { s with ip := s.ip + inc, staleCode := [] } ∧
    exec (.jmpShort d) s = .next (s.jumped d) ∧
    exec (.jmpNearIndirect rm) s = .next { s with ip := s.get16 (s.locate rm), staleCode := [] } ∧
    exec (.jmpFar ip cs) s = .next { s with ip := ip, segs := { s.segs with cs := cs }, staleCode := [] } ∧
    exec (.jmpFarIndirect m) s =
      .next { s with
        ip := s.read16 (s.memSeg m) (s.ea m)
        segs := { s.segs with cs := s.read16 (s.memSeg m) (s.ea m + 2) }
        staleCode := [] } ∧
    (let counted : State := { s with gpr := { s.gpr with cx := s.gpr.cx - 1 } }
    exec (.loop d) s = .next (if s.gpr.cx ≠ 1 then counted.jumped d else counted) ∧
    (s.flags.undef.ZF = false →
      exec (.loope d) s = .next (if s.gpr.cx ≠ 1 ∧ s.flags.ZF = true then counted.jumped d else counted) ∧
      exec (.loopne d) s = .next (if s.gpr.cx ≠ 1 ∧ s.flags.ZF = false then counted.jumped d else counted)) ∧
    (s.flags.undef.ZF = true → ∀ i ∈ [Instr.loope d, .loopne d],
      ∃ c : Bool, exec i s =
        .next { (if s.gpr.cx ≠ 1 ∧ c = true then counted.jumped d else counted) with draws := s.draws + 1 }))

/-- `44_control_transfer.md` R351 to R354, R386, R387: the indirect forms read their operand before the push (decision D20). -/
def Obligations.CallsAndReturns : Prop :=
  ∀ (s : State) (inc ip cs n : Word) (rm : RM Reg16) (m : Mem),
    (∀ i target, (i, target) ∈
        [(Instr.callNear inc, s.ip + inc), (.callNearIndirect rm, s.get16 (s.locate rm))] →
      ∃ t, exec i s = .next t ∧ t.ip = target ∧ t.segs = s.segs ∧ t.gpr.sp = s.gpr.sp - 2 ∧
        SameRegsBut [.sp] s t ∧ t.read16 s.segs.ss (s.gpr.sp - 2) = s.ip ∧ SameMemoryBut s.pushBytes s t ∧
        t.flags = s.flags) ∧
    (∀ i newIp newCs, (i, newIp, newCs) ∈
        [(Instr.callFar ip cs, ip, cs),
          (.callFarIndirect m, s.read16 (s.memSeg m) (s.ea m), s.read16 (s.memSeg m) (s.ea m + 2))] →
      ∃ t, exec i s = .next t ∧ t.ip = newIp ∧ t.segs = { s.segs with cs := newCs } ∧ t.gpr.sp = s.gpr.sp - 4 ∧
        SameRegsBut [.sp] s t ∧ t.read16 s.segs.ss (s.gpr.sp - 2) = s.segs.cs ∧
        t.read16 s.segs.ss (s.gpr.sp - 4) = s.ip ∧ SameMemoryBut s.farFrame s t ∧ t.flags = s.flags) ∧
    (∀ i k, (i, k) ∈ [(Instr.retNear, 0), (.retNearPop n, n)] →
      ∃ t, exec i s = .next t ∧ t.ip = s.read16 s.segs.ss s.gpr.sp ∧ t.segs = s.segs ∧
        t.gpr.sp = s.gpr.sp + 2 + k ∧ SameRegsBut [.sp] s t ∧ t.mem = s.mem ∧ t.flags = s.flags) ∧
    (∀ i k, (i, k) ∈ [(Instr.retFar, 0), (.retFarPop n, n)] →
      ∃ t, exec i s = .next t ∧ t.ip = s.read16 s.segs.ss s.gpr.sp ∧
        t.segs = { s.segs with cs := s.read16 s.segs.ss (s.gpr.sp + 2) } ∧ t.gpr.sp = s.gpr.sp + 4 + k ∧
        SameRegsBut [.sp] s t ∧ t.mem = s.mem ∧ t.flags = s.flags)

/-- `70_reset_and_hazards.md` R566: a near call is undone by a near return, a far call by a far return, direct or indirect, whatever
SP is; `t` is the state the callee starts in. -/
def Obligations.ReturnUndoesCall : Prop :=
  ∀ (s : State) (inc ip cs : Word) (rm : RM Reg16) (m : Mem),
    (∀ i ∈ [Instr.callNear inc, .callNearIndirect rm], ∃ t, exec i s = .next t ∧
      ∃ u, exec .retNear t = .next u ∧ u.ip = s.ip ∧ u.segs = s.segs ∧ u.gpr = s.gpr ∧ u.flags = s.flags) ∧
    (∀ i ∈ [Instr.callFar ip cs, .callFarIndirect m], ∃ t, exec i s = .next t ∧
      ∃ u, exec .retFar t = .next u ∧ u.ip = s.ip ∧ u.segs = s.segs ∧ u.gpr = s.gpr ∧ u.flags = s.flags)

/-- `44_control_transfer.md` R355, R356, `60_exceptions.md` R504, R505. If OF is `undef`, whether INTO is taken is (R356; log 1). -/
def Obligations.SoftwareInterrupts : Prop :=
  ∀ (s : State) (n : Byte),
    exec .int3 s = .next (s.interrupt 3) ∧ exec (.int n) s = .next (s.interrupt n) ∧
    (s.flags.undef.OF = false → exec .into s = .next (if s.flags.OF then s.interrupt 4 else s)) ∧
    (s.flags.undef.OF = true →
      ∃ c : Bool, exec .into s =
        .next (if c then ({ s with draws := s.draws + 1 } : State).interrupt 4 else { s with draws := s.draws + 1 }))

/-- `60_exceptions.md` R508: the interrupt sequence with `ip_saved` in IP. The vector is read after the pushes. -/
def Obligations.InterruptSequence : Prop :=
  ∀ (s : State) (n : Byte),
    (s.interrupt n).gpr.sp = s.gpr.sp - 6 ∧ SameRegsBut [.sp] s (s.interrupt n) ∧
    (s.interrupt n).read16 s.segs.ss (s.gpr.sp - 6) = s.ip ∧
    (s.interrupt n).read16 s.segs.ss (s.gpr.sp - 4) = s.segs.cs ∧
    Flags.ofWord ((s.interrupt n).read16 s.segs.ss (s.gpr.sp - 2)) = s.flags.defined ∧
    (s.interrupt n).flags = { s.flags with IF := false, TF := false } ∧
    (s.interrupt n).ip.toNat =
      ((s.interrupt n).byteAt (BitVec.ofNat 20 (4 * n.toNat))).toNat +
        256 * ((s.interrupt n).byteAt (BitVec.ofNat 20 (4 * n.toNat + 1))).toNat ∧
    (s.interrupt n).segs.cs.toNat =
      ((s.interrupt n).byteAt (BitVec.ofNat 20 (4 * n.toNat + 2))).toNat +
        256 * ((s.interrupt n).byteAt (BitVec.ofNat 20 (4 * n.toNat + 3))).toNat ∧
    (∀ q, q ≠ .cs → (s.interrupt n).sreg q = s.sreg q) ∧
    SameMemoryBut s.interruptFrame s (s.interrupt n)

/-- `44_control_transfer.md` R357, `60_exceptions.md` R512: what IRET restores, and that it undoes an interrupt. That the flags it loads
are not `undef`, also where the interrupt stored an `undef` flag, is the model's choice (log 1). -/
def Obligations.IretRestores : Prop :=
  ∀ (s : State) (n : Byte),
    (∃ t, exec .iret s = .next t ∧ t.ip = s.read16 s.segs.ss s.gpr.sp ∧
      t.segs = { s.segs with cs := s.read16 s.segs.ss (s.gpr.sp + 2) } ∧
      t.flags = Flags.ofWord (s.read16 s.segs.ss (s.gpr.sp + 4)) ∧ t.gpr.sp = s.gpr.sp + 6 ∧
      SameRegsBut [.sp] s t ∧ t.mem = s.mem) ∧
    (∃ t, exec .iret (s.interrupt n) = .next t ∧ t.ip = s.ip ∧ t.segs = s.segs ∧ t.flags = s.flags.defined ∧ t.gpr = s.gpr)

/-! ## Processor control -/

/-- `45_processor_control.md` R420 to R423, R428, R429: the encodings and the effects; no other flag changes, and CMC leaves an
`undef` CF `undef`. -/
def Obligations.FlagInstructions : Prop :=
  (∀ rest : List Byte,
    ([0xF8, 0xF9, 0xF5, 0xFC, 0xFD, 0xFA] : List Byte).map (fun b => decode (b :: rest)) =
      [Instr.clc, .stc, .cmc, .cld, .std, .cli].map fun i => .ok (i, rest)) ∧
  ∀ s : State,
    exec .clc s = .next { s with flags := { s.flags with CF := false, undef := { s.flags.undef with CF := false } } } ∧
    exec .stc s = .next { s with flags := { s.flags with CF := true, undef := { s.flags.undef with CF := false } } } ∧
    exec .cmc s = .next { s with flags := { s.flags with CF := !s.flags.CF } } ∧
    exec .cld s = .next { s with flags := { s.flags with DF := false } } ∧
    exec .std s = .next { s with flags := { s.flags with DF := true } } ∧
    exec .cli s = .next { s with flags := { s.flags with IF := false } }

/-- `45_processor_control.md` R424, R425, R427, R430, R431: WAIT holds while TEST is not active and ends its hold when it is. The form of
the ESC event is the model's choice (log 9); that STI with IF = 1 opens no window is log 14. -/
def Obligations.ProcessorControl : Prop :=
  ∀ (s : State) (op : BitVec 6) (r : Reg16) (m : Mem),
    exec .nop s = .next s ∧
    exec .hlt s = .next { s with halted := true } ∧
    (s.lines.test = true → exec .wait s = .next { s with waiting := false }) ∧
    (s.lines.test = false → exec .wait s = .next { s with waiting := true }) ∧
    (s.flags.IF = true → exec .sti s = .next s) ∧
    (s.flags.IF = false →
      exec .sti s = .next { s with flags := { s.flags with IF := true }, window := .intr }) ∧
    exec (.esc op (.reg r)) s = .next { s with events := .escape op none :: s.events } ∧
    exec (.esc op (.mem m)) s =
      .next
        { s with
          events := .escape op (some (s.memSeg m, s.ea m, s.read16 (s.memSeg m) (s.ea m))) :: s.events }

/-! ## Every instruction -/

/-- `20_memory.md` R75, R79, `60_exceptions.md` R507, `70_reset_and_hazards.md` R563: every instruction answers a next state, whatever its
operands. If it is a taken control transfer the prefetch queue is empty then; otherwise exactly the bytes it stored to that may
already be fetched have joined those whose fetch is refused (log 15). -/
def Obligations.EveryInstructionCompletes : Prop :=
  ∀ (i : Instr) (s : State), ∃ t, exec i s = .next t ∧
    (i.isTransfer s = true → t.staleCode = []) ∧
    (i.isTransfer s = false →
      ∀ a, a ∈ t.staleCode ↔ a ∈ s.staleCode ∨ (a ∈ i.storesAt s ∧ s.prefetched a = true))

/-- `20_memory.md` R70: no instruction changes a byte outside those it stores to. -/
def Obligations.OnlyStoredBytesChange : Prop :=
  ∀ (i : Instr) (s t : State), exec i s = .next t → SameMemoryBut (i.storesAt s) s t

/-- `10_state.md` R22, R23: no instruction changes a general or segment register it does not name or use; so CS changes only by
far transfers and interrupts (`70_reset_and_hazards.md` R568), and the first instruction of a pair `MOV SS; MOV SP` leaves SP. -/
def Obligations.OnlyListedRegistersChange : Prop :=
  ∀ (i : Instr) (s t : State), exec i s = .next t →
    SameRegsBut (i.regsWritten s) s t ∧ (∀ q, q ∉ i.segsWritten s → t.sreg q = s.sreg q)

/-- `10_state.md` R27, R28: no instruction changes a flag that its list omits. -/
def Obligations.OnlyListedFlagsChange : Prop :=
  ∀ (i : Instr) (s t : State), exec i s = .next t → ∀ f, f ∉ i.flagsWritten s →
    t.flags.get f = s.flags.get f ∧ t.flags.isUndef f = s.flags.isUndef f

/-- `10_state.md` R25, R35: an instruction that is no taken control transfer ends with IP = `IP_next`; and which instructions touch
the halt state, the wait state, the interrupt window, the prefixes, a repetition, the events and the inputs. -/
def Obligations.OtherStateFrame : Prop :=
  ∀ (i : Instr) (s t : State), exec i s = .next t →
    (i.isTransfer s = false → t.ip = s.ip) ∧
    (i ≠ .hlt → t.halted = s.halted) ∧
    (i ≠ .wait → t.waiting = s.waiting) ∧
    (i ≠ .sti → (∀ q r, i ≠ .movToSeg q r) → (∀ q, i ≠ .pop (.seg q)) → t.window = s.window) ∧
    (i.isPrefix = false →
      t.segOverride = s.segOverride ∧ t.repeatWith = s.repeatWith ∧ t.lockPrefix = s.lockPrefix) ∧
    (i.isString = false → t.repeating = s.repeating) ∧
    ((∀ w p, i ≠ .input w p) → (∀ w p, i ≠ .output w p) → (∀ o r, i ≠ .esc o r) → (∀ f, i ≠ .xchg f) →
      t.events = s.events) ∧
    t.lockOutput = s.lockOutput ∧
    t.nmiPending = s.nmiPending ∧ t.inputs = s.inputs ∧ t.ipStart = s.ipStart

/-- `30_encoding.md` R128, R129: the second names of the same bytes mean the same. -/
def Obligations.SecondNamesMeanTheSame : Prop := ∀ (i : Instr) (s : State), exec i s = exec i.canonical s

/-! ## Encoding -/

/-- `30_encoding.md` R100 to R122: every well-formed instruction is read back from its own bytes, and only those bytes are
used up. -/
def Obligations.DecodeEncode : Prop :=
  ∀ (i : Instr) (rest : List Byte), i.wellFormed = true → decode (encode i ++ rest) = .ok (i.canonical, rest)

/-- `30_encoding.md` R120 to R126: whatever the decoder reads is a well-formed instruction whose encoding is the bytes read. -/
def Obligations.EncodeDecode : Prop :=
  ∀ (bytes : List Byte) (i : Instr) (rest : List Byte), decode bytes = .ok (i, rest) →
    i.wellFormed = true ∧ i.canonical = i ∧ bytes = encode i ++ rest ∧
      1 ≤ (encode i).length ∧ (encode i).length ≤ 6

/-- `30_encoding.md` R123, R124, and of R125 the refused forms: what is refused, by name (the two bytes after a ModRM byte are
there for its displacement). -/
def Obligations.UnlistedEncodingsRefused : Prop :=
  (∀ b ∈ ([0x0F, 0x60, 0x61, 0x62, 0x63, 0x64, 0x65, 0x66, 0x67, 0x68, 0x69, 0x6A, 0x6B, 0x6C, 0x6D, 0x6E, 0x6F,
      0xC0, 0xC1, 0xC8, 0xC9, 0xD6, 0xF1] : List Byte), ∀ rest, decode (b :: rest) = .error (.unlistedOpcode b)) ∧
  (∀ b reg, (b, reg) ∈ ([(0x82, 1), (0x82, 4), (0x82, 6), (0x83, 1), (0x83, 4), (0x83, 6), (0xD0, 6), (0xD1, 6),
      (0xD2, 6), (0xD3, 6), (0xF6, 1), (0xF7, 1), (0xFE, 2), (0xFE, 3), (0xFE, 4), (0xFE, 5), (0xFE, 6), (0xFE, 7),
      (0xFF, 7)] : List (Byte × BitVec 3)) →
    ∀ mod rm d1 d2 rest, decode (b :: modrmByte mod reg rm :: d1 :: d2 :: rest) = .error (.unlistedSubcode b reg)) ∧
  (∀ b ∈ ([0x8F, 0xC6, 0xC7] : List Byte), ∀ mod reg rm d1 d2 rest, reg ≠ 0 →
    decode (b :: modrmByte mod reg rm :: d1 :: d2 :: rest) = .error (.unlistedSubcode b reg)) ∧
  (∀ b ∈ ([0x8C, 0x8E] : List Byte), ∀ mod reg rm d1 d2 rest, 4 ≤ reg.toNat →
    decode (b :: modrmByte mod reg rm :: d1 :: d2 :: rest) = .error (.segmentCode b reg)) ∧
  (∀ mod rm d1 d2 rest, decode (0x8E :: modrmByte mod 1 rm :: d1 :: d2 :: rest) = .error .movToCs) ∧
  (∀ b ∈ ([0x8D, 0xC4, 0xC5] : List Byte), ∀ reg r rest,
    decode (b :: modrmByte 3 reg r :: rest) = .error (.memoryOnly b)) ∧
  (∀ reg ∈ ([3, 5] : List (BitVec 3)), ∀ r rest,
    decode (0xFF :: modrmByte 3 reg r :: rest) = .error (.memoryOnly 0xFF)) ∧
  (∀ b ∈ ([0xD4, 0xD5] : List Byte), ∀ b2 rest, b2 ≠ 0x0A → decode (b :: b2 :: rest) = .error (.adjustBase b b2))

/-- `95_test_vectors.md`, part 2.1: words written out from the spec's encodings. For `D9 06 00 02` that part writes the external opcode as
0C; it is 08 here, as `45_processor_control.md` R424 has it (log 23). -/
def Obligations.WrittenOutWords : Prop :=
  decode [0x8A, 0x47, 0xFE] = .ok (.movReg (.r8Rm8 .al (.mem (.based .bx (.d8 0xFE)))), []) ∧
  decode [0xC7, 0x06, 0x34, 0x12, 0x7F, 0xEE] = .ok (.movImm (.rm16 (.mem (.direct 0x1234)) 0xEE7F), []) ∧
  decode [0x81, 0x84, 0x00, 0x10, 0x34, 0x12] =
    .ok (.add (.rm16Imm16 (.mem (.based .si (.d16 0x1000))) 0x1234), []) ∧
  decode [0xF7, 0xC0, 0x00, 0x80] = .ok (.test (.rm16Imm16 (.reg .ax) 0x8000), []) ∧
  decode [0x9A, 0x34, 0x12, 0x78, 0x56] = .ok (.callFar 0x1234 0x5678, []) ∧
  decode [0xF3, 0xA4] = .ok (.repe, [0xA4]) ∧
  decode [0xD9, 0x06, 0x00, 0x02] = .ok (.esc 0x08 (.mem (.direct 0x0200)), [])

/-! ## The step -/

/-- The bytes fetched are those of memory at `Phys(CS, (IP + k) mod 2^16)` for `k` < 6, the longest instruction (`10_state.md` R25,
`20_memory.md` R62, R79, decision D38; log 17). A step runs what is due: between instructions, with no RESET, it is `exec` of what the bytes at CS:IP decode to, at the state with
IP = `IP_next` (`10_state.md` R25); in a repetition of its instruction once more (`43_string.md` R339; log 26); while WAIT holds of WAIT
(`45_processor_control.md` R431; log 12); and then the boundary (`60_exceptions.md` R510, R511; log 10). LOCK is active meanwhile if there
is a LOCK prefix (R426; log 24). -/
def Obligations.StepRunsDecoded : Prop :=
  ∀ s : State,
    (s.fetch.length = 6 ∧ ∀ k, k < 6 →
      s.fetch[k]? = some (s.byteAt (BitVec.ofNat 20 (s.segs.cs.toNat * 16 + (s.ip.toNat + k) % 65536)))) ∧
    (s.lines.reset = none → s.halted = false →
    let ends (i : Instr) (r : Result) : Result :=
      andThen r fun t => .next { t.complete i s.window s.flags.TF with inputs := t.inputs.tail }
    let locked : List BusEvent := if s.lockPrefix = true ∧ s.lockOutput = false then .lock true :: s.events else s.events
    (∀ i rest, s.waiting = false → s.repeating = none → decode s.fetch = .ok (i, rest) →
      (∀ k, k < (encode i).length → phys s.segs.cs (s.ip + BitVec.ofNat 16 k) ∉ s.staleCode) →
      s.repeatMeaningless i = false →
      i.wellFormed = true ∧
      step s = ends i (exec i
        { s with
          nmiPending := s.nmiPending || s.lines.nmi
          ipStart := if s.hasPrefix then s.ipStart else s.ip
          ip := s.ip + BitVec.ofNat 16 (encode i).length
          window := .closed
          events := if i.isPrefix then s.events else locked })) ∧
    (∀ i, s.waiting = false → s.repeating = some i → i.isPrefix = false →
      step s = ends i (exec i
        { s with nmiPending := s.nmiPending || s.lines.nmi, window := .closed, events := locked })) ∧
    (s.waiting = true →
      step s = ends .wait (exec .wait
        { s with nmiPending := s.nmiPending || s.lines.nmi, window := .closed, events := locked })))

/-- With quiet lines, TF = 0 and no remembered NMI, the boundary after an instruction that is over only ends its prefixes, and with them
LOCK (`45_processor_control.md` R426; log 24). -/
def Obligations.QuietBoundary : Prop :=
  ∀ (i : Instr) (w : Window) (t : State), i.isPrefix = false → t.repeating = none → t.waiting = false →
    t.nmiPending = false → t.lines.intr = none → t.lines.nmiLate = false →
    t.complete i w false =
      { t with
        segOverride := none, repeatWith := none, lockPrefix := false
        events := if t.lockOutput then .lock false :: t.events else t.events }

/-- `30_encoding.md` R119, `60_exceptions.md` R502, R509, R510, R511, `43_string.md` R339, `45_processor_control.md` R426, R431: the
boundaries inside an instruction. After a prefix byte nothing is recognised, the window stays, and an NMI edge is remembered (logs 10,
25). Between two iterations LOCK is inactive, so that it covers each iteration and not the whole (log 24), and NMI, else INTR with
IF = 1, and then single-step are taken as between two instructions. While WAIT holds NMI, else INTR with IF = 1, is taken, and
single-step is not (log 12). `w` is the window the instruction found; `Obligations.SavedIpByCause` says what `enter` does here. -/
def Obligations.BoundaryInsideAnInstruction : Prop :=
  ∀ (i : Instr) (w : Window) (tf : Bool) (t : State),
    (i.isPrefix = true → t.complete i w tf = { t with window := w, nmiPending := t.nmiPending || t.lines.nmiLate }) ∧
    (i.isPrefix = false → t.lines.nmiLate = false →
      (∀ j, t.repeating = some j →
        let v : State := { t with window := w, events := if t.lockOutput then .lock false :: t.events else t.events }
        let stepped (u : State) : State := if tf then u.enter 1 else u
        (w = .all → t.complete i w tf = v) ∧
        (w ≠ .all → t.nmiPending = true → t.complete i w tf = stepped (State.enter 2 { v with nmiPending := false })) ∧
        (∀ n, w = .closed → t.nmiPending = false → t.flags.IF = true → t.lines.intr = some n →
          t.complete i w tf = stepped (v.enter n)) ∧
        (w ≠ .all → t.nmiPending = false → t.flags.IF = false ∨ w = .intr ∨ t.lines.intr = none →
          t.complete i w tf = stepped v)) ∧
      (t.repeating = none → t.waiting = true →
        let v : State := { t with window := w }
        (w = .all → t.complete i w tf = v) ∧
        (w ≠ .all → t.nmiPending = true → t.complete i w tf = State.enter 2 { v with nmiPending := false }) ∧
        (∀ n, w = .closed → t.nmiPending = false → t.flags.IF = true → t.lines.intr = some n →
          t.complete i w tf = v.enter n) ∧
        (w ≠ .all → t.nmiPending = false → t.flags.IF = false ∨ w = .intr ∨ t.lines.intr = none →
          t.complete i w tf = v)))

/-- `30_encoding.md` R119, R123, R124, decisions D12, D26, and `70_reset_and_hazards.md` R563, decision D14: where a step is refused
because of the bytes at CS:IP. -/
def Obligations.StepRefusesWhatIsUnlisted : Prop :=
  ∀ s : State, s.lines.reset = none → s.halted = false → s.waiting = false → s.repeating = none →
    (∀ e, decode s.fetch = .error e → step s = .refused (.undecoded e)) ∧
    (∀ i rest, decode s.fetch = .ok (i, rest) →
      (∃ k, k < (encode i).length ∧ phys s.segs.cs (s.ip + BitVec.ofNat 16 k) ∈ s.staleCode) →
      step s = .refused .storeIntoPrefetch) ∧
    (∀ i rest, decode s.fetch = .ok (i, rest) → i.isPrefix = false →
      (∀ k, k < (encode i).length → phys s.segs.cs (s.ip + BitVec.ofNat 16 k) ∉ s.staleCode) →
      (s.repeatWith = some .f3 → i.isString = false → step s = .refused .meaninglessRepeat) ∧
      (s.repeatWith = some .f2 → (∀ w, i ≠ .cmps w ∧ i ≠ .scas w) → step s = .refused .meaninglessRepeat))

/-- `60_exceptions.md` R507, `20_memory.md` R75: a step never faults, and what it refuses is an encoding, a repeat prefix or
the fetch of a byte that was stored to while it might already be fetched. -/
def Obligations.StepsNeverFault : Prop :=
  ∀ s : State,
    (∃ t, step s = .next t) ∨ (∃ e, step s = .refused (.undecoded e)) ∨ step s = .refused .meaninglessRepeat ∨
      step s = .refused .storeIntoPrefetch

/-- `60_exceptions.md` R511, `70_reset_and_hazards.md` R564: after a segment load NMI, INTR and single-step are held off; after STI
INTR is. -/
def Obligations.WindowHoldsOff : Prop :=
  ∀ (s : State) (tf : Bool),
    (s.window = .all → s.recognise tf = { s with nmiPending := s.nmiPending || s.lines.nmiLate }) ∧
    (s.window = .intr → s.nmiPending = false → s.lines.nmiLate = false → s.recognise false = s) ∧
    (s.flags.IF = false → s.window ≠ .all → s.nmiPending = false → s.lines.nmiLate = false → s.recognise false = s)

/-- `60_exceptions.md` R502, R503, R506, R510, R511: the order of acceptance, unless a segment load holds all three off: NMI, else INTR if
IF and if STI does not hold it off, then single-step, then a further NMI (log 25). Between instructions `enter` saves the current CS:IP.
That single-step too ends the halt of an HLT that started with TF = 1 is log 13. -/
def Obligations.OrderOfAcceptance : Prop :=
  ∀ (s : State) (n : Byte) (tf : Bool), s.window ≠ .all → s.repeating = none → s.waiting = false →
    (let after (u : State) : State :=
      let v := if tf then { u.interrupt 1 with halted := false } else u
      if s.lines.nmiLate then { ({ v with nmiPending := false }).interrupt 2 with halted := false } else v
    (s.nmiPending = true →
      s.recognise tf = after { ({ s with nmiPending := false }).interrupt 2 with halted := false }) ∧
    (s.nmiPending = false → s.flags.IF = true → s.window = .closed → s.lines.intr = some n →
      s.recognise tf = after { s.interrupt n with halted := false }) ∧
    (s.nmiPending = false → s.flags.IF = false ∨ s.window = .intr ∨ s.lines.intr = none → s.recognise tf = after s))

/-- `60_exceptions.md` R508, R509, `43_string.md` R339, `70_reset_and_hazards.md` R565, `45_processor_control.md` R431: `enter n` is the
interrupt sequence with the IP it saves by where it is recognised; the repetition, the hold and their prefixes are over, and LOCK with
them (log 24). That it ends the halt also for single-step, type 1, is log 13. -/
def Obligations.SavedIpByCause : Prop :=
  ∀ (s : State) (n : Byte),
    let ended (ip : Word) : State :=
      { s with
        ip := ip, repeating := none, segOverride := none, repeatWith := none, lockPrefix := false
        events := if s.lockOutput then .lock false :: s.events else s.events }
    (∀ i, s.repeating = some i →
      s.enter n = { (ended (s.ip - 2)).interrupt n with halted := false } ∧
      (s.enter n).read16 s.segs.ss (s.gpr.sp - 6) = s.ip - 2 ∧ (s.enter n).repeating = none ∧
        (s.enter n).hasPrefix = false) ∧
    (s.repeating = none → s.waiting = true →
      s.enter n = { ({ ended s.ipStart with waiting := false }).interrupt n with halted := false } ∧
      (s.enter n).read16 s.segs.ss (s.gpr.sp - 6) = s.ipStart ∧ (s.enter n).waiting = false ∧
        (s.enter n).hasPrefix = false) ∧
    (s.repeating = none → s.waiting = false →
      s.enter n = { s.interrupt n with halted := false } ∧
      (s.enter n).read16 s.segs.ss (s.gpr.sp - 6) = s.ip) ∧
    (s.enter n).halted = false

/-- `45_processor_control.md` R425, `60_exceptions.md` R519: without RESET, NMI and a recognised INTR a halted processor stays as it
is; NMI, and INTR with IF = 1, end the halt with the interrupt sequence. -/
def Obligations.HaltHoldsUntilAnInterrupt : Prop :=
  ∀ s : State, s.halted = true → s.waiting = false → s.repeating = none → s.window = .closed →
    s.lines.reset = none → s.lines.nmiLate = false →
    (s.nmiPending = false → s.lines.nmi = false → s.flags.IF = false ∨ s.lines.intr = none →
      step s = .next { s with inputs := s.inputs.tail }) ∧
    (s.nmiPending = true ∨ s.lines.nmi = true →
      step s = .next
        { ({ s with nmiPending := false }).interrupt 2 with halted := false, inputs := s.inputs.tail }) ∧
    (∀ n, s.nmiPending = false → s.lines.nmi = false → s.flags.IF = true → s.lines.intr = some n →
      step s = .next { s.interrupt n with halted := false, inputs := s.inputs.tail })

/-! ## The invariant -/

/-- The invariant of `Sys2Proof/Safety.lean` holds after reset. -/
def Obligations.InvariantAtReset : Prop := State.reset.Inv

/-- Every step keeps the invariant: canonical memory, a repetition only of a string instruction under a repeat prefix, WAIT
holding only outside a repetition, a halted processor in no instruction, and LOCK active between steps only while WAIT holds. -/
def Obligations.StepKeepsInvariant : Prop := ∀ s t : State, s.Inv → step s = .next t → t.Inv
end

