-- ==== Sys2Proof/Laws/Decode.lean ====
section
/-! SUPPORT. The fields of an encoding: register numbers, the ModRM byte with its displacement, and the immediate bytes are read
back as they were written, and only so. -/

namespace Sys2Proof

@[simp] theorem Reg8.ofBits_bits (r : Reg8) : Reg8.ofBits r.bits = r := by cases r <;> rfl
@[simp] theorem Reg16.ofBits_bits (r : Reg16) : Reg16.ofBits r.bits = r := by cases r <;> rfl
@[simp] theorem SegReg.ofBits_bits (q : SegReg) : SegReg.ofBits q.bits = q := by cases q <;> rfl
@[simp] theorem EaBase.ofBits_bits (b : EaBase) : EaBase.ofBits b.bits = b := by cases b <;> rfl

@[simp] theorem Reg8.bits_ofBits (b : BitVec 3) : (Reg8.ofBits b).bits = b := by revert b; decide
@[simp] theorem Reg16.bits_ofBits (b : BitVec 3) : (Reg16.ofBits b).bits = b := by revert b; decide
@[simp] theorem SegReg.bits_ofBits (b : BitVec 2) : (SegReg.ofBits b).bits = b := by revert b; decide
@[simp] theorem EaBase.bits_ofBits (b : BitVec 3) : (EaBase.ofBits b).bits = b := by revert b; decide

theorem EaBase.bits_eq_six {b : EaBase} : b.bits = 6 ↔ b = .bp := by cases b <;> decide

@[simp] theorem RM.map_map {ρ σ τ : Type} (f : ρ → σ) (g : σ → τ) (o : RM ρ) : (o.map f).map g = o.map (g ∘ f) := by
  cases o <;> rfl

@[simp] theorem RM.wellFormed_map {ρ σ : Type} (f : ρ → σ) (o : RM ρ) : (o.map f).wellFormed = o.wellFormed := by
  cases o <;> rfl

/-- A byte operand is read back from its register number. -/
@[simp] theorem RM.r8_map_bits (o : RM Reg8) : (o.map Reg8.bits).r8 = o := by cases o <;> simp [RM.r8, RM.map]

/-- A word operand is read back from its register number. -/
@[simp] theorem RM.r16_map_bits (o : RM Reg16) : (o.map Reg16.bits).r16 = o := by cases o <;> simp [RM.r16, RM.map]

@[simp] theorem RM.map_bits_r8 (o : RM (BitVec 3)) : o.r8.map Reg8.bits = o := by cases o <;> simp [RM.r8, RM.map]

@[simp] theorem RM.map_bits_r16 (o : RM (BitVec 3)) : o.r16.map Reg16.bits = o := by cases o <;> simp [RM.r16, RM.map]

@[simp] theorem wordOf_highByte_lowByte (v : Word) : wordOf (highByte v) (lowByte v) = v := by
  apply BitVec.eq_of_toNat_eq
  simp only [wordOf, highByte, lowByte, BitVec.toNat_append, BitVec.toNat_setWidth, BitVec.toNat_ushiftRight]
  rw [← Nat.shiftLeft_add_eq_or_of_lt (by omega), Nat.shiftRight_eq_div_pow, Nat.shiftLeft_eq]
  omega

@[simp] theorem wordBytes_wordOf (hi lo : Byte) : wordBytes (wordOf hi lo) = [lo, hi] := by
  have hl : lowByte (wordOf hi lo) = lo := by
    apply BitVec.eq_of_toNat_eq
    simp only [wordOf, lowByte, BitVec.toNat_append, BitVec.toNat_setWidth]
    rw [← Nat.shiftLeft_add_eq_or_of_lt lo.isLt, Nat.shiftLeft_eq]
    omega
  have hh : highByte (wordOf hi lo) = hi := by
    apply BitVec.eq_of_toNat_eq
    simp only [wordOf, highByte, BitVec.toNat_append, BitVec.toNat_setWidth, BitVec.toNat_ushiftRight]
    rw [← Nat.shiftLeft_add_eq_or_of_lt lo.isLt, Nat.shiftRight_eq_div_pow, Nat.shiftLeft_eq]
    omega
  simp [wordBytes, hl, hh]

/-- The three fields of a ModRM byte (`30_encoding.md` R102). -/
@[simp] theorem modrmByte_mod (mod : BitVec 2) (reg rm : BitVec 3) : (modrmByte mod reg rm).extractLsb' 6 2 = mod := by
  revert mod reg rm; decide
@[simp] theorem modrmByte_reg (mod : BitVec 2) (reg rm : BitVec 3) : (modrmByte mod reg rm).extractLsb' 3 3 = reg := by
  revert mod reg rm; decide
@[simp] theorem modrmByte_rm (mod : BitVec 2) (reg rm : BitVec 3) : (modrmByte mod reg rm).extractLsb' 0 3 = rm := by
  revert mod reg rm; decide

/-- A byte is the ModRM byte of its three fields. -/
theorem modrmByte_fields (b : Byte) :
    modrmByte (b.extractLsb' 6 2) (b.extractLsb' 3 3) (b.extractLsb' 0 3) = b := by
  revert b; decide

/-- An encodable operand is read back from its ModRM byte and displacement, which are all the bytes used up. -/
theorem decodeModRM_encodeModRM (reg : BitVec 3) (o : RM (BitVec 3)) (rest : List Byte) (h : o.wellFormed = true) :
    decodeModRM (encodeModRM reg o ++ rest) = some (reg, o, rest) := by
  cases o with
  | reg r => simp [encodeModRM, decodeModRM]
  | mem m =>
    cases m with
    | direct a => simp [encodeModRM, decodeModRM]
    | based b d =>
      cases d with
      | none =>
        have hb : b.bits ≠ 6 := fun e => by rw [EaBase.bits_eq_six] at e; subst e; cases h
        simp [encodeModRM, decodeModRM]
        exact fun e => absurd e hb
      | d8 d => simp [encodeModRM, decodeModRM]
      | d16 d => simp [encodeModRM, decodeModRM]

/-- What is read as a ModRM operand is encodable, and the bytes used up are its encoding. -/
theorem encodeModRM_of_decodeModRM {bytes rest : List Byte} {reg : BitVec 3} {o : RM (BitVec 3)}
    (h : decodeModRM bytes = some (reg, o, rest)) : bytes = encodeModRM reg o ++ rest ∧ o.wellFormed = true := by
  cases bytes with
  | nil => cases h
  | cons b2 tail =>
    have hb := modrmByte_fields b2
    simp only [decodeModRM] at h
    split at h
    · next h3 =>
      simp only [Option.some.injEq, Prod.mk.injEq] at h
      obtain ⟨rfl, rfl, rfl⟩ := h
      rw [h3] at hb
      exact ⟨by simp [encodeModRM]; exact hb.symm, rfl⟩
    · split at h
      · next h0 =>
        split at h
        · simp only [Option.some.injEq, Prod.mk.injEq] at h
          obtain ⟨rfl, rfl, rfl⟩ := h
          rw [h0.1, h0.2] at hb
          have hw := wordBytes_wordOf
          simp only [wordBytes, List.cons.injEq, and_true] at hw
          exact ⟨by simp [encodeModRM, hw]; exact hb.symm, rfl⟩
        · cases h
      · next h06 =>
        split at h
        · next h0 =>
          simp only [Option.some.injEq, Prod.mk.injEq] at h
          obtain ⟨rfl, rfl, rfl⟩ := h
          have hbp : EaBase.ofBits (b2.extractLsb' 0 3) ≠ .bp := fun e => by
            rw [← EaBase.bits_eq_six, EaBase.bits_ofBits] at e
            exact h06 ⟨h0, e⟩
          rw [h0] at hb
          refine ⟨by simp [encodeModRM]; exact hb.symm, ?_⟩
          revert hbp
          generalize EaBase.ofBits (b2.extractLsb' 0 3) = b
          cases b <;> simp [RM.wellFormed, Mem.wellFormed]
        · split at h
          · next h1 =>
            split at h
            · simp only [Option.some.injEq, Prod.mk.injEq] at h
              obtain ⟨rfl, rfl, rfl⟩ := h
              rw [h1] at hb
              refine ⟨by simp [encodeModRM]; exact hb.symm, ?_⟩
              generalize EaBase.ofBits (b2.extractLsb' 0 3) = b
              cases b <;> rfl
            · cases h
          · next h3 h0 h1 =>
            have h2 : b2.extractLsb' 6 2 = (2 : BitVec 2) := by
              revert h3 h0 h1
              generalize b2.extractLsb' 6 2 = m
              revert m; decide
            split at h
            · simp only [Option.some.injEq, Prod.mk.injEq] at h
              obtain ⟨rfl, rfl, rfl⟩ := h
              rw [h2] at hb
              have hw := wordBytes_wordOf
              simp only [wordBytes, List.cons.injEq, and_true] at hw
              refine ⟨by simp [encodeModRM, hw]; exact hb.symm, ?_⟩
              generalize EaBase.ofBits (b2.extractLsb' 0 3) = b
              cases b <;> rfl
            · cases h

/-- What an immediate tail reads, for each kind of tail (`30_encoding.md` R115, R117). -/
@[simp] theorem Tail.parse_done (i : Instr) (rest : List Byte) : (Tail.done i).parse rest = .ok (i, rest) := rfl
@[simp] theorem Tail.parse_imm8 (f : Byte → Instr) (b : Byte) (rest : List Byte) :
    (Tail.imm8 f).parse (b :: rest) = .ok (f b, rest) := rfl
@[simp] theorem Tail.parse_imm16 (f : Word → Instr) (v : Word) (rest : List Byte) :
    (Tail.imm16 f).parse (wordBytes v ++ rest) = .ok (f v, rest) := by simp [wordBytes, Tail.parse]
@[simp] theorem Tail.parse_far (f : Word → Word → Instr) (ip cs : Word) (rest : List Byte) :
    (Tail.far f).parse (wordBytes ip ++ (wordBytes cs ++ rest)) = .ok (f ip cs, rest) := by simp [wordBytes, Tail.parse]
@[simp] theorem Tail.parse_base10 (b1 : Byte) (i : Instr) (rest : List Byte) :
    (Tail.base10 b1 i).parse (0x0A :: rest) = .ok (i, rest) := rfl
@[simp] theorem Tail.parse_refuse (e : DecodeError) (rest : List Byte) : (Tail.refuse e).parse rest = .error e := by
  cases rest <;> rfl

/-- An opcode with a ModRM byte: the operand is read, then the tail (`30_encoding.md` R120). -/
theorem decode_modrm {b1 : Byte} {f : BitVec 3 → RM (BitVec 3) → Tail} (hl : layout b1 = .modrm f) (reg : BitVec 3)
    (o : RM (BitVec 3)) (tail : List Byte) (h : o.wellFormed = true) :
    decode (b1 :: (encodeModRM reg o ++ tail)) = (f reg o).parse tail := by
  simp [decode, hl, decodeModRM_encodeModRM reg o tail h]

/-- An opcode without a ModRM byte. -/
theorem decode_plain {b1 : Byte} {t : Tail} (hl : layout b1 = .plain t) (tail : List Byte) :
    decode (b1 :: tail) = t.parse tail := by
  simp [decode, hl]

end Sys2Proof
end

