-- ==== Sys2Proof/Laws/State.lean ====
section
/-! SUPPORT. One lemma per field per update of the state, so that no proof unfolds a record update. -/

namespace Sys2Proof.Machine

/-! `setReg16` -/

@[simp] theorem State.setReg16_gpr (s : State) (r : Reg16) (v : Word) : (s.setReg16 r v).gpr = s.gpr.set v r := rfl
@[simp] theorem State.setReg16_segs (s : State) (r : Reg16) (v : Word) : (s.setReg16 r v).segs = s.segs := rfl
@[simp] theorem State.setReg16_ip (s : State) (r : Reg16) (v : Word) : (s.setReg16 r v).ip = s.ip := rfl
@[simp] theorem State.setReg16_flags (s : State) (r : Reg16) (v : Word) : (s.setReg16 r v).flags = s.flags := rfl
@[simp] theorem State.setReg16_mem (s : State) (r : Reg16) (v : Word) : (s.setReg16 r v).mem = s.mem := rfl
@[simp] theorem State.setReg16_halted (s : State) (r : Reg16) (v : Word) : (s.setReg16 r v).halted = s.halted := rfl
@[simp] theorem State.setReg16_waiting (s : State) (r : Reg16) (v : Word) : (s.setReg16 r v).waiting = s.waiting := rfl
@[simp] theorem State.setReg16_window (s : State) (r : Reg16) (v : Word) : (s.setReg16 r v).window = s.window := rfl
@[simp] theorem State.setReg16_segOverride (s : State) (r : Reg16) (v : Word) : (s.setReg16 r v).segOverride = s.segOverride := rfl
@[simp] theorem State.setReg16_repeatWith (s : State) (r : Reg16) (v : Word) : (s.setReg16 r v).repeatWith = s.repeatWith := rfl
@[simp] theorem State.setReg16_lockPrefix (s : State) (r : Reg16) (v : Word) : (s.setReg16 r v).lockPrefix = s.lockPrefix := rfl
@[simp] theorem State.setReg16_repeating (s : State) (r : Reg16) (v : Word) : (s.setReg16 r v).repeating = s.repeating := rfl
@[simp] theorem State.setReg16_staleCode (s : State) (r : Reg16) (v : Word) : (s.setReg16 r v).staleCode = s.staleCode := rfl
@[simp] theorem State.setReg16_nmiPending (s : State) (r : Reg16) (v : Word) : (s.setReg16 r v).nmiPending = s.nmiPending := rfl
@[simp] theorem State.setReg16_inputs (s : State) (r : Reg16) (v : Word) : (s.setReg16 r v).inputs = s.inputs := rfl
@[simp] theorem State.setReg16_events (s : State) (r : Reg16) (v : Word) : (s.setReg16 r v).events = s.events := rfl
@[simp] theorem State.setReg16_ipStart (s : State) (r : Reg16) (v : Word) : (s.setReg16 r v).ipStart = s.ipStart := rfl
@[simp] theorem State.setReg16_draws (s : State) (r : Reg16) (v : Word) : (s.setReg16 r v).draws = s.draws := rfl

/-! `setReg8` -/

@[simp] theorem State.setReg8_segs (s : State) (r : Reg8) (v : Byte) : (s.setReg8 r v).segs = s.segs := rfl
@[simp] theorem State.setReg8_ip (s : State) (r : Reg8) (v : Byte) : (s.setReg8 r v).ip = s.ip := rfl
@[simp] theorem State.setReg8_flags (s : State) (r : Reg8) (v : Byte) : (s.setReg8 r v).flags = s.flags := rfl
@[simp] theorem State.setReg8_mem (s : State) (r : Reg8) (v : Byte) : (s.setReg8 r v).mem = s.mem := rfl
@[simp] theorem State.setReg8_halted (s : State) (r : Reg8) (v : Byte) : (s.setReg8 r v).halted = s.halted := rfl
@[simp] theorem State.setReg8_waiting (s : State) (r : Reg8) (v : Byte) : (s.setReg8 r v).waiting = s.waiting := rfl
@[simp] theorem State.setReg8_window (s : State) (r : Reg8) (v : Byte) : (s.setReg8 r v).window = s.window := rfl
@[simp] theorem State.setReg8_segOverride (s : State) (r : Reg8) (v : Byte) : (s.setReg8 r v).segOverride = s.segOverride := rfl
@[simp] theorem State.setReg8_repeatWith (s : State) (r : Reg8) (v : Byte) : (s.setReg8 r v).repeatWith = s.repeatWith := rfl
@[simp] theorem State.setReg8_lockPrefix (s : State) (r : Reg8) (v : Byte) : (s.setReg8 r v).lockPrefix = s.lockPrefix := rfl
@[simp] theorem State.setReg8_repeating (s : State) (r : Reg8) (v : Byte) : (s.setReg8 r v).repeating = s.repeating := rfl
@[simp] theorem State.setReg8_staleCode (s : State) (r : Reg8) (v : Byte) : (s.setReg8 r v).staleCode = s.staleCode := rfl
@[simp] theorem State.setReg8_nmiPending (s : State) (r : Reg8) (v : Byte) : (s.setReg8 r v).nmiPending = s.nmiPending := rfl
@[simp] theorem State.setReg8_inputs (s : State) (r : Reg8) (v : Byte) : (s.setReg8 r v).inputs = s.inputs := rfl
@[simp] theorem State.setReg8_events (s : State) (r : Reg8) (v : Byte) : (s.setReg8 r v).events = s.events := rfl
@[simp] theorem State.setReg8_ipStart (s : State) (r : Reg8) (v : Byte) : (s.setReg8 r v).ipStart = s.ipStart := rfl
@[simp] theorem State.setReg8_draws (s : State) (r : Reg8) (v : Byte) : (s.setReg8 r v).draws = s.draws := rfl

/-! `setSreg` -/

@[simp] theorem State.setSreg_gpr (s : State) (q : SegReg) (v : Word) : (s.setSreg q v).gpr = s.gpr := rfl
@[simp] theorem State.setSreg_segs (s : State) (q : SegReg) (v : Word) : (s.setSreg q v).segs = s.segs.set v q := rfl
@[simp] theorem State.setSreg_ip (s : State) (q : SegReg) (v : Word) : (s.setSreg q v).ip = s.ip := rfl
@[simp] theorem State.setSreg_flags (s : State) (q : SegReg) (v : Word) : (s.setSreg q v).flags = s.flags := rfl
@[simp] theorem State.setSreg_mem (s : State) (q : SegReg) (v : Word) : (s.setSreg q v).mem = s.mem := rfl
@[simp] theorem State.setSreg_halted (s : State) (q : SegReg) (v : Word) : (s.setSreg q v).halted = s.halted := rfl
@[simp] theorem State.setSreg_waiting (s : State) (q : SegReg) (v : Word) : (s.setSreg q v).waiting = s.waiting := rfl
@[simp] theorem State.setSreg_window (s : State) (q : SegReg) (v : Word) : (s.setSreg q v).window = s.window := rfl
@[simp] theorem State.setSreg_segOverride (s : State) (q : SegReg) (v : Word) : (s.setSreg q v).segOverride = s.segOverride := rfl
@[simp] theorem State.setSreg_repeatWith (s : State) (q : SegReg) (v : Word) : (s.setSreg q v).repeatWith = s.repeatWith := rfl
@[simp] theorem State.setSreg_lockPrefix (s : State) (q : SegReg) (v : Word) : (s.setSreg q v).lockPrefix = s.lockPrefix := rfl
@[simp] theorem State.setSreg_repeating (s : State) (q : SegReg) (v : Word) : (s.setSreg q v).repeating = s.repeating := rfl
@[simp] theorem State.setSreg_staleCode (s : State) (q : SegReg) (v : Word) : (s.setSreg q v).staleCode = s.staleCode := rfl
@[simp] theorem State.setSreg_nmiPending (s : State) (q : SegReg) (v : Word) : (s.setSreg q v).nmiPending = s.nmiPending := rfl
@[simp] theorem State.setSreg_inputs (s : State) (q : SegReg) (v : Word) : (s.setSreg q v).inputs = s.inputs := rfl
@[simp] theorem State.setSreg_events (s : State) (q : SegReg) (v : Word) : (s.setSreg q v).events = s.events := rfl
@[simp] theorem State.setSreg_ipStart (s : State) (q : SegReg) (v : Word) : (s.setSreg q v).ipStart = s.ipStart := rfl
@[simp] theorem State.setSreg_draws (s : State) (q : SegReg) (v : Word) : (s.setSreg q v).draws = s.draws := rfl

/-! `setDxAx` -/

@[simp] theorem State.setDxAx_gpr (s : State) (v : BitVec 32) : (s.setDxAx v).gpr = (s.gpr.set (v.extractLsb' 16 16) .dx).set (v.extractLsb' 0 16) .ax := rfl
@[simp] theorem State.setDxAx_segs (s : State) (v : BitVec 32) : (s.setDxAx v).segs = s.segs := rfl
@[simp] theorem State.setDxAx_ip (s : State) (v : BitVec 32) : (s.setDxAx v).ip = s.ip := rfl
@[simp] theorem State.setDxAx_flags (s : State) (v : BitVec 32) : (s.setDxAx v).flags = s.flags := rfl
@[simp] theorem State.setDxAx_mem (s : State) (v : BitVec 32) : (s.setDxAx v).mem = s.mem := rfl
@[simp] theorem State.setDxAx_halted (s : State) (v : BitVec 32) : (s.setDxAx v).halted = s.halted := rfl
@[simp] theorem State.setDxAx_waiting (s : State) (v : BitVec 32) : (s.setDxAx v).waiting = s.waiting := rfl
@[simp] theorem State.setDxAx_window (s : State) (v : BitVec 32) : (s.setDxAx v).window = s.window := rfl
@[simp] theorem State.setDxAx_segOverride (s : State) (v : BitVec 32) : (s.setDxAx v).segOverride = s.segOverride := rfl
@[simp] theorem State.setDxAx_repeatWith (s : State) (v : BitVec 32) : (s.setDxAx v).repeatWith = s.repeatWith := rfl
@[simp] theorem State.setDxAx_lockPrefix (s : State) (v : BitVec 32) : (s.setDxAx v).lockPrefix = s.lockPrefix := rfl
@[simp] theorem State.setDxAx_repeating (s : State) (v : BitVec 32) : (s.setDxAx v).repeating = s.repeating := rfl
@[simp] theorem State.setDxAx_staleCode (s : State) (v : BitVec 32) : (s.setDxAx v).staleCode = s.staleCode := rfl
@[simp] theorem State.setDxAx_nmiPending (s : State) (v : BitVec 32) : (s.setDxAx v).nmiPending = s.nmiPending := rfl
@[simp] theorem State.setDxAx_inputs (s : State) (v : BitVec 32) : (s.setDxAx v).inputs = s.inputs := rfl
@[simp] theorem State.setDxAx_events (s : State) (v : BitVec 32) : (s.setDxAx v).events = s.events := rfl
@[simp] theorem State.setDxAx_ipStart (s : State) (v : BitVec 32) : (s.setDxAx v).ipStart = s.ipStart := rfl
@[simp] theorem State.setDxAx_draws (s : State) (v : BitVec 32) : (s.setDxAx v).draws = s.draws := rfl

/-! `jumpFar` -/

@[simp] theorem State.jumpFar_gpr (s : State) (cs ip : Word) : (s.jumpFar cs ip).gpr = s.gpr := rfl
@[simp] theorem State.jumpFar_segs (s : State) (cs ip : Word) : (s.jumpFar cs ip).segs = s.segs.set cs .cs := rfl
@[simp] theorem State.jumpFar_ip (s : State) (cs ip : Word) : (s.jumpFar cs ip).ip = ip := rfl
@[simp] theorem State.jumpFar_flags (s : State) (cs ip : Word) : (s.jumpFar cs ip).flags = s.flags := rfl
@[simp] theorem State.jumpFar_mem (s : State) (cs ip : Word) : (s.jumpFar cs ip).mem = s.mem := rfl
@[simp] theorem State.jumpFar_halted (s : State) (cs ip : Word) : (s.jumpFar cs ip).halted = s.halted := rfl
@[simp] theorem State.jumpFar_waiting (s : State) (cs ip : Word) : (s.jumpFar cs ip).waiting = s.waiting := rfl
@[simp] theorem State.jumpFar_window (s : State) (cs ip : Word) : (s.jumpFar cs ip).window = s.window := rfl
@[simp] theorem State.jumpFar_segOverride (s : State) (cs ip : Word) : (s.jumpFar cs ip).segOverride = s.segOverride := rfl
@[simp] theorem State.jumpFar_repeatWith (s : State) (cs ip : Word) : (s.jumpFar cs ip).repeatWith = s.repeatWith := rfl
@[simp] theorem State.jumpFar_lockPrefix (s : State) (cs ip : Word) : (s.jumpFar cs ip).lockPrefix = s.lockPrefix := rfl
@[simp] theorem State.jumpFar_repeating (s : State) (cs ip : Word) : (s.jumpFar cs ip).repeating = s.repeating := rfl
@[simp] theorem State.jumpFar_staleCode (s : State) (cs ip : Word) : (s.jumpFar cs ip).staleCode = [] := rfl
@[simp] theorem State.jumpFar_nmiPending (s : State) (cs ip : Word) : (s.jumpFar cs ip).nmiPending = s.nmiPending := rfl
@[simp] theorem State.jumpFar_inputs (s : State) (cs ip : Word) : (s.jumpFar cs ip).inputs = s.inputs := rfl
@[simp] theorem State.jumpFar_events (s : State) (cs ip : Word) : (s.jumpFar cs ip).events = s.events := rfl
@[simp] theorem State.jumpFar_ipStart (s : State) (cs ip : Word) : (s.jumpFar cs ip).ipStart = s.ipStart := rfl
@[simp] theorem State.jumpFar_draws (s : State) (cs ip : Word) : (s.jumpFar cs ip).draws = s.draws := rfl

/-! `withIp` -/

@[simp] theorem State.withIp_gpr (s : State) (ip : Word) : (s.withIp ip).gpr = s.gpr := rfl
@[simp] theorem State.withIp_segs (s : State) (ip : Word) : (s.withIp ip).segs = s.segs := rfl
@[simp] theorem State.withIp_ip (s : State) (ip : Word) : (s.withIp ip).ip = ip := rfl
@[simp] theorem State.withIp_flags (s : State) (ip : Word) : (s.withIp ip).flags = s.flags := rfl
@[simp] theorem State.withIp_mem (s : State) (ip : Word) : (s.withIp ip).mem = s.mem := rfl
@[simp] theorem State.withIp_halted (s : State) (ip : Word) : (s.withIp ip).halted = s.halted := rfl
@[simp] theorem State.withIp_waiting (s : State) (ip : Word) : (s.withIp ip).waiting = s.waiting := rfl
@[simp] theorem State.withIp_window (s : State) (ip : Word) : (s.withIp ip).window = s.window := rfl
@[simp] theorem State.withIp_segOverride (s : State) (ip : Word) : (s.withIp ip).segOverride = s.segOverride := rfl
@[simp] theorem State.withIp_repeatWith (s : State) (ip : Word) : (s.withIp ip).repeatWith = s.repeatWith := rfl
@[simp] theorem State.withIp_lockPrefix (s : State) (ip : Word) : (s.withIp ip).lockPrefix = s.lockPrefix := rfl
@[simp] theorem State.withIp_repeating (s : State) (ip : Word) : (s.withIp ip).repeating = s.repeating := rfl
@[simp] theorem State.withIp_staleCode (s : State) (ip : Word) : (s.withIp ip).staleCode = [] := rfl
@[simp] theorem State.withIp_nmiPending (s : State) (ip : Word) : (s.withIp ip).nmiPending = s.nmiPending := rfl
@[simp] theorem State.withIp_inputs (s : State) (ip : Word) : (s.withIp ip).inputs = s.inputs := rfl
@[simp] theorem State.withIp_events (s : State) (ip : Word) : (s.withIp ip).events = s.events := rfl
@[simp] theorem State.withIp_ipStart (s : State) (ip : Word) : (s.withIp ip).ipStart = s.ipStart := rfl
@[simp] theorem State.withIp_draws (s : State) (ip : Word) : (s.withIp ip).draws = s.draws := rfl

/-! `withFlags` -/

@[simp] theorem State.withFlags_gpr (s : State) (f : Flags) : (s.withFlags f).gpr = s.gpr := rfl
@[simp] theorem State.withFlags_segs (s : State) (f : Flags) : (s.withFlags f).segs = s.segs := rfl
@[simp] theorem State.withFlags_ip (s : State) (f : Flags) : (s.withFlags f).ip = s.ip := rfl
@[simp] theorem State.withFlags_flags (s : State) (f : Flags) : (s.withFlags f).flags = f := rfl
@[simp] theorem State.withFlags_mem (s : State) (f : Flags) : (s.withFlags f).mem = s.mem := rfl
@[simp] theorem State.withFlags_halted (s : State) (f : Flags) : (s.withFlags f).halted = s.halted := rfl
@[simp] theorem State.withFlags_waiting (s : State) (f : Flags) : (s.withFlags f).waiting = s.waiting := rfl
@[simp] theorem State.withFlags_window (s : State) (f : Flags) : (s.withFlags f).window = s.window := rfl
@[simp] theorem State.withFlags_segOverride (s : State) (f : Flags) : (s.withFlags f).segOverride = s.segOverride := rfl
@[simp] theorem State.withFlags_repeatWith (s : State) (f : Flags) : (s.withFlags f).repeatWith = s.repeatWith := rfl
@[simp] theorem State.withFlags_lockPrefix (s : State) (f : Flags) : (s.withFlags f).lockPrefix = s.lockPrefix := rfl
@[simp] theorem State.withFlags_repeating (s : State) (f : Flags) : (s.withFlags f).repeating = s.repeating := rfl
@[simp] theorem State.withFlags_staleCode (s : State) (f : Flags) : (s.withFlags f).staleCode = s.staleCode := rfl
@[simp] theorem State.withFlags_nmiPending (s : State) (f : Flags) : (s.withFlags f).nmiPending = s.nmiPending := rfl
@[simp] theorem State.withFlags_inputs (s : State) (f : Flags) : (s.withFlags f).inputs = s.inputs := rfl
@[simp] theorem State.withFlags_events (s : State) (f : Flags) : (s.withFlags f).events = s.events := rfl
@[simp] theorem State.withFlags_ipStart (s : State) (f : Flags) : (s.withFlags f).ipStart = s.ipStart := rfl
@[simp] theorem State.withFlags_draws (s : State) (f : Flags) : (s.withFlags f).draws = s.draws := rfl

/-! `nextDraw` -/

@[simp] theorem State.nextDraw_gpr (s : State) : (s.nextDraw).gpr = s.gpr := rfl
@[simp] theorem State.nextDraw_segs (s : State) : (s.nextDraw).segs = s.segs := rfl
@[simp] theorem State.nextDraw_ip (s : State) : (s.nextDraw).ip = s.ip := rfl
@[simp] theorem State.nextDraw_flags (s : State) : (s.nextDraw).flags = s.flags := rfl
@[simp] theorem State.nextDraw_mem (s : State) : (s.nextDraw).mem = s.mem := rfl
@[simp] theorem State.nextDraw_halted (s : State) : (s.nextDraw).halted = s.halted := rfl
@[simp] theorem State.nextDraw_waiting (s : State) : (s.nextDraw).waiting = s.waiting := rfl
@[simp] theorem State.nextDraw_window (s : State) : (s.nextDraw).window = s.window := rfl
@[simp] theorem State.nextDraw_segOverride (s : State) : (s.nextDraw).segOverride = s.segOverride := rfl
@[simp] theorem State.nextDraw_repeatWith (s : State) : (s.nextDraw).repeatWith = s.repeatWith := rfl
@[simp] theorem State.nextDraw_lockPrefix (s : State) : (s.nextDraw).lockPrefix = s.lockPrefix := rfl
@[simp] theorem State.nextDraw_repeating (s : State) : (s.nextDraw).repeating = s.repeating := rfl
@[simp] theorem State.nextDraw_staleCode (s : State) : (s.nextDraw).staleCode = s.staleCode := rfl
@[simp] theorem State.nextDraw_nmiPending (s : State) : (s.nextDraw).nmiPending = s.nmiPending := rfl
@[simp] theorem State.nextDraw_inputs (s : State) : (s.nextDraw).inputs = s.inputs := rfl
@[simp] theorem State.nextDraw_events (s : State) : (s.nextDraw).events = s.events := rfl
@[simp] theorem State.nextDraw_ipStart (s : State) : (s.nextDraw).ipStart = s.ipStart := rfl
@[simp] theorem State.nextDraw_draws (s : State) : (s.nextDraw).draws = s.draws + 1 := rfl

/-! `branch` -/

@[simp] theorem State.branch_gpr (s : State) (inc : Word) : (s.branch inc).gpr = s.gpr := rfl
@[simp] theorem State.branch_segs (s : State) (inc : Word) : (s.branch inc).segs = s.segs := rfl
@[simp] theorem State.branch_ip (s : State) (inc : Word) : (s.branch inc).ip = s.ip + inc := rfl
@[simp] theorem State.branch_flags (s : State) (inc : Word) : (s.branch inc).flags = s.flags := rfl
@[simp] theorem State.branch_mem (s : State) (inc : Word) : (s.branch inc).mem = s.mem := rfl
@[simp] theorem State.branch_halted (s : State) (inc : Word) : (s.branch inc).halted = s.halted := rfl
@[simp] theorem State.branch_waiting (s : State) (inc : Word) : (s.branch inc).waiting = s.waiting := rfl
@[simp] theorem State.branch_window (s : State) (inc : Word) : (s.branch inc).window = s.window := rfl
@[simp] theorem State.branch_segOverride (s : State) (inc : Word) : (s.branch inc).segOverride = s.segOverride := rfl
@[simp] theorem State.branch_repeatWith (s : State) (inc : Word) : (s.branch inc).repeatWith = s.repeatWith := rfl
@[simp] theorem State.branch_lockPrefix (s : State) (inc : Word) : (s.branch inc).lockPrefix = s.lockPrefix := rfl
@[simp] theorem State.branch_repeating (s : State) (inc : Word) : (s.branch inc).repeating = s.repeating := rfl
@[simp] theorem State.branch_staleCode (s : State) (inc : Word) : (s.branch inc).staleCode = [] := rfl
@[simp] theorem State.branch_nmiPending (s : State) (inc : Word) : (s.branch inc).nmiPending = s.nmiPending := rfl
@[simp] theorem State.branch_inputs (s : State) (inc : Word) : (s.branch inc).inputs = s.inputs := rfl
@[simp] theorem State.branch_events (s : State) (inc : Word) : (s.branch inc).events = s.events := rfl
@[simp] theorem State.branch_ipStart (s : State) (inc : Word) : (s.branch inc).ipStart = s.ipStart := rfl
@[simp] theorem State.branch_draws (s : State) (inc : Word) : (s.branch inc).draws = s.draws := rfl

/-! `openWindow` -/

@[simp] theorem State.openWindow_gpr (s : State) (w : Window) : (s.openWindow w).gpr = s.gpr := rfl
@[simp] theorem State.openWindow_segs (s : State) (w : Window) : (s.openWindow w).segs = s.segs := rfl
@[simp] theorem State.openWindow_ip (s : State) (w : Window) : (s.openWindow w).ip = s.ip := rfl
@[simp] theorem State.openWindow_flags (s : State) (w : Window) : (s.openWindow w).flags = s.flags := rfl
@[simp] theorem State.openWindow_mem (s : State) (w : Window) : (s.openWindow w).mem = s.mem := rfl
@[simp] theorem State.openWindow_halted (s : State) (w : Window) : (s.openWindow w).halted = s.halted := rfl
@[simp] theorem State.openWindow_waiting (s : State) (w : Window) : (s.openWindow w).waiting = s.waiting := rfl
@[simp] theorem State.openWindow_window (s : State) (w : Window) : (s.openWindow w).window = w := rfl
@[simp] theorem State.openWindow_segOverride (s : State) (w : Window) : (s.openWindow w).segOverride = s.segOverride := rfl
@[simp] theorem State.openWindow_repeatWith (s : State) (w : Window) : (s.openWindow w).repeatWith = s.repeatWith := rfl
@[simp] theorem State.openWindow_lockPrefix (s : State) (w : Window) : (s.openWindow w).lockPrefix = s.lockPrefix := rfl
@[simp] theorem State.openWindow_repeating (s : State) (w : Window) : (s.openWindow w).repeating = s.repeating := rfl
@[simp] theorem State.openWindow_staleCode (s : State) (w : Window) : (s.openWindow w).staleCode = s.staleCode := rfl
@[simp] theorem State.openWindow_nmiPending (s : State) (w : Window) : (s.openWindow w).nmiPending = s.nmiPending := rfl
@[simp] theorem State.openWindow_inputs (s : State) (w : Window) : (s.openWindow w).inputs = s.inputs := rfl
@[simp] theorem State.openWindow_events (s : State) (w : Window) : (s.openWindow w).events = s.events := rfl
@[simp] theorem State.openWindow_ipStart (s : State) (w : Window) : (s.openWindow w).ipStart = s.ipStart := rfl
@[simp] theorem State.openWindow_draws (s : State) (w : Window) : (s.openWindow w).draws = s.draws := rfl

/-! `write8` -/

@[simp] theorem State.write8_gpr (s : State) (seg off : Word) (v : Byte) : (s.write8 seg off v).gpr = s.gpr := rfl
@[simp] theorem State.write8_segs (s : State) (seg off : Word) (v : Byte) : (s.write8 seg off v).segs = s.segs := rfl
@[simp] theorem State.write8_ip (s : State) (seg off : Word) (v : Byte) : (s.write8 seg off v).ip = s.ip := rfl
@[simp] theorem State.write8_flags (s : State) (seg off : Word) (v : Byte) : (s.write8 seg off v).flags = s.flags := rfl
@[simp] theorem State.write8_mem (s : State) (seg off : Word) (v : Byte) : (s.write8 seg off v).mem = s.mem.write (phys seg off).toNat v := rfl
@[simp] theorem State.write8_halted (s : State) (seg off : Word) (v : Byte) : (s.write8 seg off v).halted = s.halted := rfl
@[simp] theorem State.write8_waiting (s : State) (seg off : Word) (v : Byte) : (s.write8 seg off v).waiting = s.waiting := rfl
@[simp] theorem State.write8_window (s : State) (seg off : Word) (v : Byte) : (s.write8 seg off v).window = s.window := rfl
@[simp] theorem State.write8_segOverride (s : State) (seg off : Word) (v : Byte) : (s.write8 seg off v).segOverride = s.segOverride := rfl
@[simp] theorem State.write8_repeatWith (s : State) (seg off : Word) (v : Byte) : (s.write8 seg off v).repeatWith = s.repeatWith := rfl
@[simp] theorem State.write8_lockPrefix (s : State) (seg off : Word) (v : Byte) : (s.write8 seg off v).lockPrefix = s.lockPrefix := rfl
@[simp] theorem State.write8_repeating (s : State) (seg off : Word) (v : Byte) : (s.write8 seg off v).repeating = s.repeating := rfl
@[simp] theorem State.write8_staleCode (s : State) (seg off : Word) (v : Byte) : (s.write8 seg off v).staleCode = s.staleCode := rfl
@[simp] theorem State.write8_nmiPending (s : State) (seg off : Word) (v : Byte) : (s.write8 seg off v).nmiPending = s.nmiPending := rfl
@[simp] theorem State.write8_inputs (s : State) (seg off : Word) (v : Byte) : (s.write8 seg off v).inputs = s.inputs := rfl
@[simp] theorem State.write8_events (s : State) (seg off : Word) (v : Byte) : (s.write8 seg off v).events = s.events := rfl
@[simp] theorem State.write8_ipStart (s : State) (seg off : Word) (v : Byte) : (s.write8 seg off v).ipStart = s.ipStart := rfl
@[simp] theorem State.write8_draws (s : State) (seg off : Word) (v : Byte) : (s.write8 seg off v).draws = s.draws := rfl

/-! `write16` -/

@[simp] theorem State.write16_gpr (s : State) (seg off v : Word) : (s.write16 seg off v).gpr = s.gpr := rfl
@[simp] theorem State.write16_segs (s : State) (seg off v : Word) : (s.write16 seg off v).segs = s.segs := rfl
@[simp] theorem State.write16_ip (s : State) (seg off v : Word) : (s.write16 seg off v).ip = s.ip := rfl
@[simp] theorem State.write16_flags (s : State) (seg off v : Word) : (s.write16 seg off v).flags = s.flags := rfl
@[simp] theorem State.write16_halted (s : State) (seg off v : Word) : (s.write16 seg off v).halted = s.halted := rfl
@[simp] theorem State.write16_waiting (s : State) (seg off v : Word) : (s.write16 seg off v).waiting = s.waiting := rfl
@[simp] theorem State.write16_window (s : State) (seg off v : Word) : (s.write16 seg off v).window = s.window := rfl
@[simp] theorem State.write16_segOverride (s : State) (seg off v : Word) : (s.write16 seg off v).segOverride = s.segOverride := rfl
@[simp] theorem State.write16_repeatWith (s : State) (seg off v : Word) : (s.write16 seg off v).repeatWith = s.repeatWith := rfl
@[simp] theorem State.write16_lockPrefix (s : State) (seg off v : Word) : (s.write16 seg off v).lockPrefix = s.lockPrefix := rfl
@[simp] theorem State.write16_repeating (s : State) (seg off v : Word) : (s.write16 seg off v).repeating = s.repeating := rfl
@[simp] theorem State.write16_staleCode (s : State) (seg off v : Word) : (s.write16 seg off v).staleCode = s.staleCode := rfl
@[simp] theorem State.write16_nmiPending (s : State) (seg off v : Word) : (s.write16 seg off v).nmiPending = s.nmiPending := rfl
@[simp] theorem State.write16_inputs (s : State) (seg off v : Word) : (s.write16 seg off v).inputs = s.inputs := rfl
@[simp] theorem State.write16_events (s : State) (seg off v : Word) : (s.write16 seg off v).events = s.events := rfl
@[simp] theorem State.write16_ipStart (s : State) (seg off v : Word) : (s.write16 seg off v).ipStart = s.ipStart := rfl
@[simp] theorem State.write16_draws (s : State) (seg off v : Word) : (s.write16 seg off v).draws = s.draws := rfl

/-! `store8` -/

@[simp] theorem State.store8_gpr (s : State) (seg off : Word) (v : Byte) : (s.store8 seg off v).gpr = s.gpr := rfl
@[simp] theorem State.store8_segs (s : State) (seg off : Word) (v : Byte) : (s.store8 seg off v).segs = s.segs := rfl
@[simp] theorem State.store8_ip (s : State) (seg off : Word) (v : Byte) : (s.store8 seg off v).ip = s.ip := rfl
@[simp] theorem State.store8_flags (s : State) (seg off : Word) (v : Byte) : (s.store8 seg off v).flags = s.flags := rfl
@[simp] theorem State.store8_mem (s : State) (seg off : Word) (v : Byte) : (s.store8 seg off v).mem = (s.write8 seg off v).mem := rfl
@[simp] theorem State.store8_halted (s : State) (seg off : Word) (v : Byte) : (s.store8 seg off v).halted = s.halted := rfl
@[simp] theorem State.store8_waiting (s : State) (seg off : Word) (v : Byte) : (s.store8 seg off v).waiting = s.waiting := rfl
@[simp] theorem State.store8_window (s : State) (seg off : Word) (v : Byte) : (s.store8 seg off v).window = s.window := rfl
@[simp] theorem State.store8_segOverride (s : State) (seg off : Word) (v : Byte) : (s.store8 seg off v).segOverride = s.segOverride := rfl
@[simp] theorem State.store8_repeatWith (s : State) (seg off : Word) (v : Byte) : (s.store8 seg off v).repeatWith = s.repeatWith := rfl
@[simp] theorem State.store8_lockPrefix (s : State) (seg off : Word) (v : Byte) : (s.store8 seg off v).lockPrefix = s.lockPrefix := rfl
@[simp] theorem State.store8_repeating (s : State) (seg off : Word) (v : Byte) : (s.store8 seg off v).repeating = s.repeating := rfl
@[simp] theorem State.store8_staleCode (s : State) (seg off : Word) (v : Byte) : (s.store8 seg off v).staleCode = s.noted [phys seg off] := rfl
@[simp] theorem State.store8_nmiPending (s : State) (seg off : Word) (v : Byte) : (s.store8 seg off v).nmiPending = s.nmiPending := rfl
@[simp] theorem State.store8_inputs (s : State) (seg off : Word) (v : Byte) : (s.store8 seg off v).inputs = s.inputs := rfl
@[simp] theorem State.store8_events (s : State) (seg off : Word) (v : Byte) : (s.store8 seg off v).events = s.events := rfl
@[simp] theorem State.store8_ipStart (s : State) (seg off : Word) (v : Byte) : (s.store8 seg off v).ipStart = s.ipStart := rfl
@[simp] theorem State.store8_draws (s : State) (seg off : Word) (v : Byte) : (s.store8 seg off v).draws = s.draws := rfl

/-! `store16` -/

@[simp] theorem State.store16_gpr (s : State) (seg off v : Word) : (s.store16 seg off v).gpr = s.gpr := rfl
@[simp] theorem State.store16_segs (s : State) (seg off v : Word) : (s.store16 seg off v).segs = s.segs := rfl
@[simp] theorem State.store16_ip (s : State) (seg off v : Word) : (s.store16 seg off v).ip = s.ip := rfl
@[simp] theorem State.store16_flags (s : State) (seg off v : Word) : (s.store16 seg off v).flags = s.flags := rfl
@[simp] theorem State.store16_mem (s : State) (seg off v : Word) : (s.store16 seg off v).mem = (s.write16 seg off v).mem := rfl
@[simp] theorem State.store16_halted (s : State) (seg off v : Word) : (s.store16 seg off v).halted = s.halted := rfl
@[simp] theorem State.store16_waiting (s : State) (seg off v : Word) : (s.store16 seg off v).waiting = s.waiting := rfl
@[simp] theorem State.store16_window (s : State) (seg off v : Word) : (s.store16 seg off v).window = s.window := rfl
@[simp] theorem State.store16_segOverride (s : State) (seg off v : Word) : (s.store16 seg off v).segOverride = s.segOverride := rfl
@[simp] theorem State.store16_repeatWith (s : State) (seg off v : Word) : (s.store16 seg off v).repeatWith = s.repeatWith := rfl
@[simp] theorem State.store16_lockPrefix (s : State) (seg off v : Word) : (s.store16 seg off v).lockPrefix = s.lockPrefix := rfl
@[simp] theorem State.store16_repeating (s : State) (seg off v : Word) : (s.store16 seg off v).repeating = s.repeating := rfl
@[simp] theorem State.store16_staleCode (s : State) (seg off v : Word) : (s.store16 seg off v).staleCode = s.noted [phys seg off, phys seg (off + 1)] := rfl
@[simp] theorem State.store16_nmiPending (s : State) (seg off v : Word) : (s.store16 seg off v).nmiPending = s.nmiPending := rfl
@[simp] theorem State.store16_inputs (s : State) (seg off v : Word) : (s.store16 seg off v).inputs = s.inputs := rfl
@[simp] theorem State.store16_events (s : State) (seg off v : Word) : (s.store16 seg off v).events = s.events := rfl
@[simp] theorem State.store16_ipStart (s : State) (seg off v : Word) : (s.store16 seg off v).ipStart = s.ipStart := rfl
@[simp] theorem State.store16_draws (s : State) (seg off v : Word) : (s.store16 seg off v).draws = s.draws := rfl

/-! `setLock` -/

@[simp] theorem State.setLock_gpr (s : State) (b : Bool) : (s.setLock b).gpr = s.gpr := rfl
@[simp] theorem State.setLock_segs (s : State) (b : Bool) : (s.setLock b).segs = s.segs := rfl
@[simp] theorem State.setLock_ip (s : State) (b : Bool) : (s.setLock b).ip = s.ip := rfl
@[simp] theorem State.setLock_flags (s : State) (b : Bool) : (s.setLock b).flags = s.flags := rfl
@[simp] theorem State.setLock_mem (s : State) (b : Bool) : (s.setLock b).mem = s.mem := rfl
@[simp] theorem State.setLock_halted (s : State) (b : Bool) : (s.setLock b).halted = s.halted := rfl
@[simp] theorem State.setLock_waiting (s : State) (b : Bool) : (s.setLock b).waiting = s.waiting := rfl
@[simp] theorem State.setLock_window (s : State) (b : Bool) : (s.setLock b).window = s.window := rfl
@[simp] theorem State.setLock_segOverride (s : State) (b : Bool) : (s.setLock b).segOverride = s.segOverride := rfl
@[simp] theorem State.setLock_repeatWith (s : State) (b : Bool) : (s.setLock b).repeatWith = s.repeatWith := rfl
@[simp] theorem State.setLock_lockPrefix (s : State) (b : Bool) : (s.setLock b).lockPrefix = s.lockPrefix := rfl
@[simp] theorem State.setLock_repeating (s : State) (b : Bool) : (s.setLock b).repeating = s.repeating := rfl
@[simp] theorem State.setLock_staleCode (s : State) (b : Bool) : (s.setLock b).staleCode = s.staleCode := rfl
@[simp] theorem State.setLock_nmiPending (s : State) (b : Bool) : (s.setLock b).nmiPending = s.nmiPending := rfl
@[simp] theorem State.setLock_inputs (s : State) (b : Bool) : (s.setLock b).inputs = s.inputs := rfl
@[simp] theorem State.setLock_events (s : State) (b : Bool) : (s.setLock b).events = if s.lockOutput = b then s.events else .lock b :: s.events := rfl
@[simp] theorem State.setLock_ipStart (s : State) (b : Bool) : (s.setLock b).ipStart = s.ipStart := rfl
@[simp] theorem State.setLock_draws (s : State) (b : Bool) : (s.setLock b).draws = s.draws := rfl

/-! `push16` -/

@[simp] theorem State.push16_gpr (s : State) (v : Word) : (s.push16 v).gpr = s.gpr.set (s.gpr.sp - 2) .sp := rfl
@[simp] theorem State.push16_segs (s : State) (v : Word) : (s.push16 v).segs = s.segs := rfl
@[simp] theorem State.push16_ip (s : State) (v : Word) : (s.push16 v).ip = s.ip := rfl
@[simp] theorem State.push16_flags (s : State) (v : Word) : (s.push16 v).flags = s.flags := rfl
@[simp] theorem State.push16_halted (s : State) (v : Word) : (s.push16 v).halted = s.halted := rfl
@[simp] theorem State.push16_waiting (s : State) (v : Word) : (s.push16 v).waiting = s.waiting := rfl
@[simp] theorem State.push16_window (s : State) (v : Word) : (s.push16 v).window = s.window := rfl
@[simp] theorem State.push16_segOverride (s : State) (v : Word) : (s.push16 v).segOverride = s.segOverride := rfl
@[simp] theorem State.push16_repeatWith (s : State) (v : Word) : (s.push16 v).repeatWith = s.repeatWith := rfl
@[simp] theorem State.push16_lockPrefix (s : State) (v : Word) : (s.push16 v).lockPrefix = s.lockPrefix := rfl
@[simp] theorem State.push16_repeating (s : State) (v : Word) : (s.push16 v).repeating = s.repeating := rfl
@[simp] theorem State.push16_nmiPending (s : State) (v : Word) : (s.push16 v).nmiPending = s.nmiPending := rfl
@[simp] theorem State.push16_inputs (s : State) (v : Word) : (s.push16 v).inputs = s.inputs := rfl
@[simp] theorem State.push16_events (s : State) (v : Word) : (s.push16 v).events = s.events := rfl
@[simp] theorem State.push16_ipStart (s : State) (v : Word) : (s.push16 v).ipStart = s.ipStart := rfl
@[simp] theorem State.push16_draws (s : State) (v : Word) : (s.push16 v).draws = s.draws := rfl

/-! `drop16` -/

@[simp] theorem State.drop16_gpr (s : State) : (s.drop16).gpr = s.gpr.set (s.gpr.sp + 2) .sp := rfl
@[simp] theorem State.drop16_segs (s : State) : (s.drop16).segs = s.segs := rfl
@[simp] theorem State.drop16_ip (s : State) : (s.drop16).ip = s.ip := rfl
@[simp] theorem State.drop16_flags (s : State) : (s.drop16).flags = s.flags := rfl
@[simp] theorem State.drop16_mem (s : State) : (s.drop16).mem = s.mem := rfl
@[simp] theorem State.drop16_halted (s : State) : (s.drop16).halted = s.halted := rfl
@[simp] theorem State.drop16_waiting (s : State) : (s.drop16).waiting = s.waiting := rfl
@[simp] theorem State.drop16_window (s : State) : (s.drop16).window = s.window := rfl
@[simp] theorem State.drop16_segOverride (s : State) : (s.drop16).segOverride = s.segOverride := rfl
@[simp] theorem State.drop16_repeatWith (s : State) : (s.drop16).repeatWith = s.repeatWith := rfl
@[simp] theorem State.drop16_lockPrefix (s : State) : (s.drop16).lockPrefix = s.lockPrefix := rfl
@[simp] theorem State.drop16_repeating (s : State) : (s.drop16).repeating = s.repeating := rfl
@[simp] theorem State.drop16_staleCode (s : State) : (s.drop16).staleCode = s.staleCode := rfl
@[simp] theorem State.drop16_nmiPending (s : State) : (s.drop16).nmiPending = s.nmiPending := rfl
@[simp] theorem State.drop16_inputs (s : State) : (s.drop16).inputs = s.inputs := rfl
@[simp] theorem State.drop16_events (s : State) : (s.drop16).events = s.events := rfl
@[simp] theorem State.drop16_ipStart (s : State) : (s.drop16).ipStart = s.ipStart := rfl
@[simp] theorem State.drop16_draws (s : State) : (s.drop16).draws = s.draws := rfl

/-! `clearPrefixes` -/

@[simp] theorem State.clearPrefixes_gpr (s : State) : (s.clearPrefixes).gpr = s.gpr := rfl
@[simp] theorem State.clearPrefixes_segs (s : State) : (s.clearPrefixes).segs = s.segs := rfl
@[simp] theorem State.clearPrefixes_ip (s : State) : (s.clearPrefixes).ip = s.ip := rfl
@[simp] theorem State.clearPrefixes_flags (s : State) : (s.clearPrefixes).flags = s.flags := rfl
@[simp] theorem State.clearPrefixes_mem (s : State) : (s.clearPrefixes).mem = s.mem := rfl
@[simp] theorem State.clearPrefixes_halted (s : State) : (s.clearPrefixes).halted = s.halted := rfl
@[simp] theorem State.clearPrefixes_waiting (s : State) : (s.clearPrefixes).waiting = s.waiting := rfl
@[simp] theorem State.clearPrefixes_window (s : State) : (s.clearPrefixes).window = s.window := rfl
@[simp] theorem State.clearPrefixes_segOverride (s : State) : (s.clearPrefixes).segOverride = none := rfl
@[simp] theorem State.clearPrefixes_repeatWith (s : State) : (s.clearPrefixes).repeatWith = none := rfl
@[simp] theorem State.clearPrefixes_lockPrefix (s : State) : (s.clearPrefixes).lockPrefix = false := rfl
@[simp] theorem State.clearPrefixes_repeating (s : State) : (s.clearPrefixes).repeating = s.repeating := rfl
@[simp] theorem State.clearPrefixes_staleCode (s : State) : (s.clearPrefixes).staleCode = s.staleCode := rfl
@[simp] theorem State.clearPrefixes_nmiPending (s : State) : (s.clearPrefixes).nmiPending = s.nmiPending := rfl
@[simp] theorem State.clearPrefixes_inputs (s : State) : (s.clearPrefixes).inputs = s.inputs := rfl
@[simp] theorem State.clearPrefixes_events (s : State) : (s.clearPrefixes).events = (s.setLock false).events := rfl
@[simp] theorem State.clearPrefixes_ipStart (s : State) : (s.clearPrefixes).ipStart = s.ipStart := rfl
@[simp] theorem State.clearPrefixes_draws (s : State) : (s.clearPrefixes).draws = s.draws := rfl

/-! `emit` -/

@[simp] theorem State.emit_gpr (s : State) (e : BusEvent) : (s.emit e).gpr = s.gpr := rfl
@[simp] theorem State.emit_segs (s : State) (e : BusEvent) : (s.emit e).segs = s.segs := rfl
@[simp] theorem State.emit_ip (s : State) (e : BusEvent) : (s.emit e).ip = s.ip := rfl
@[simp] theorem State.emit_flags (s : State) (e : BusEvent) : (s.emit e).flags = s.flags := rfl
@[simp] theorem State.emit_mem (s : State) (e : BusEvent) : (s.emit e).mem = s.mem := rfl
@[simp] theorem State.emit_halted (s : State) (e : BusEvent) : (s.emit e).halted = s.halted := rfl
@[simp] theorem State.emit_waiting (s : State) (e : BusEvent) : (s.emit e).waiting = s.waiting := rfl
@[simp] theorem State.emit_window (s : State) (e : BusEvent) : (s.emit e).window = s.window := rfl
@[simp] theorem State.emit_segOverride (s : State) (e : BusEvent) : (s.emit e).segOverride = s.segOverride := rfl
@[simp] theorem State.emit_repeatWith (s : State) (e : BusEvent) : (s.emit e).repeatWith = s.repeatWith := rfl
@[simp] theorem State.emit_lockPrefix (s : State) (e : BusEvent) : (s.emit e).lockPrefix = s.lockPrefix := rfl
@[simp] theorem State.emit_repeating (s : State) (e : BusEvent) : (s.emit e).repeating = s.repeating := rfl
@[simp] theorem State.emit_staleCode (s : State) (e : BusEvent) : (s.emit e).staleCode = s.staleCode := rfl
@[simp] theorem State.emit_nmiPending (s : State) (e : BusEvent) : (s.emit e).nmiPending = s.nmiPending := rfl
@[simp] theorem State.emit_inputs (s : State) (e : BusEvent) : (s.emit e).inputs = s.inputs := rfl
@[simp] theorem State.emit_events (s : State) (e : BusEvent) : (s.emit e).events = e :: s.events := rfl
@[simp] theorem State.emit_ipStart (s : State) (e : BusEvent) : (s.emit e).ipStart = s.ipStart := rfl
@[simp] theorem State.emit_draws (s : State) (e : BusEvent) : (s.emit e).draws = s.draws := rfl

/-! `nextSample` -/

@[simp] theorem State.nextSample_gpr (s : State) : (s.nextSample).gpr = s.gpr := rfl
@[simp] theorem State.nextSample_segs (s : State) : (s.nextSample).segs = s.segs := rfl
@[simp] theorem State.nextSample_ip (s : State) : (s.nextSample).ip = s.ip := rfl
@[simp] theorem State.nextSample_flags (s : State) : (s.nextSample).flags = s.flags := rfl
@[simp] theorem State.nextSample_mem (s : State) : (s.nextSample).mem = s.mem := rfl
@[simp] theorem State.nextSample_halted (s : State) : (s.nextSample).halted = s.halted := rfl
@[simp] theorem State.nextSample_waiting (s : State) : (s.nextSample).waiting = s.waiting := rfl
@[simp] theorem State.nextSample_window (s : State) : (s.nextSample).window = s.window := rfl
@[simp] theorem State.nextSample_segOverride (s : State) : (s.nextSample).segOverride = s.segOverride := rfl
@[simp] theorem State.nextSample_repeatWith (s : State) : (s.nextSample).repeatWith = s.repeatWith := rfl
@[simp] theorem State.nextSample_lockPrefix (s : State) : (s.nextSample).lockPrefix = s.lockPrefix := rfl
@[simp] theorem State.nextSample_repeating (s : State) : (s.nextSample).repeating = s.repeating := rfl
@[simp] theorem State.nextSample_staleCode (s : State) : (s.nextSample).staleCode = s.staleCode := rfl
@[simp] theorem State.nextSample_nmiPending (s : State) : (s.nextSample).nmiPending = s.nmiPending := rfl
@[simp] theorem State.nextSample_inputs (s : State) : (s.nextSample).inputs = s.inputs.tail := rfl
@[simp] theorem State.nextSample_events (s : State) : (s.nextSample).events = s.events := rfl
@[simp] theorem State.nextSample_ipStart (s : State) : (s.nextSample).ipStart = s.ipStart := rfl
@[simp] theorem State.nextSample_draws (s : State) : (s.nextSample).draws = s.draws := rfl

/-! `latchNmi` -/

@[simp] theorem State.latchNmi_gpr (s : State) : (s.latchNmi).gpr = s.gpr := rfl
@[simp] theorem State.latchNmi_segs (s : State) : (s.latchNmi).segs = s.segs := rfl
@[simp] theorem State.latchNmi_ip (s : State) : (s.latchNmi).ip = s.ip := rfl
@[simp] theorem State.latchNmi_flags (s : State) : (s.latchNmi).flags = s.flags := rfl
@[simp] theorem State.latchNmi_mem (s : State) : (s.latchNmi).mem = s.mem := rfl
@[simp] theorem State.latchNmi_halted (s : State) : (s.latchNmi).halted = s.halted := rfl
@[simp] theorem State.latchNmi_waiting (s : State) : (s.latchNmi).waiting = s.waiting := rfl
@[simp] theorem State.latchNmi_window (s : State) : (s.latchNmi).window = s.window := rfl
@[simp] theorem State.latchNmi_segOverride (s : State) : (s.latchNmi).segOverride = s.segOverride := rfl
@[simp] theorem State.latchNmi_repeatWith (s : State) : (s.latchNmi).repeatWith = s.repeatWith := rfl
@[simp] theorem State.latchNmi_lockPrefix (s : State) : (s.latchNmi).lockPrefix = s.lockPrefix := rfl
@[simp] theorem State.latchNmi_repeating (s : State) : (s.latchNmi).repeating = s.repeating := rfl
@[simp] theorem State.latchNmi_staleCode (s : State) : (s.latchNmi).staleCode = s.staleCode := rfl
@[simp] theorem State.latchNmi_nmiPending (s : State) : (s.latchNmi).nmiPending = (s.nmiPending || s.lines.nmi) := rfl
@[simp] theorem State.latchNmi_inputs (s : State) : (s.latchNmi).inputs = s.inputs := rfl
@[simp] theorem State.latchNmi_events (s : State) : (s.latchNmi).events = s.events := rfl
@[simp] theorem State.latchNmi_ipStart (s : State) : (s.latchNmi).ipStart = s.ipStart := rfl
@[simp] theorem State.latchNmi_draws (s : State) : (s.latchNmi).draws = s.draws := rfl

/-! `countDown` -/

@[simp] theorem State.countDown_gpr (s : State) : (s.countDown).gpr = s.gpr.set (s.gpr.cx - 1) .cx := rfl
@[simp] theorem State.countDown_segs (s : State) : (s.countDown).segs = s.segs := rfl
@[simp] theorem State.countDown_ip (s : State) : (s.countDown).ip = s.ip := rfl
@[simp] theorem State.countDown_flags (s : State) : (s.countDown).flags = s.flags := rfl
@[simp] theorem State.countDown_mem (s : State) : (s.countDown).mem = s.mem := rfl
@[simp] theorem State.countDown_halted (s : State) : (s.countDown).halted = s.halted := rfl
@[simp] theorem State.countDown_waiting (s : State) : (s.countDown).waiting = s.waiting := rfl
@[simp] theorem State.countDown_window (s : State) : (s.countDown).window = s.window := rfl
@[simp] theorem State.countDown_segOverride (s : State) : (s.countDown).segOverride = s.segOverride := rfl
@[simp] theorem State.countDown_repeatWith (s : State) : (s.countDown).repeatWith = s.repeatWith := rfl
@[simp] theorem State.countDown_lockPrefix (s : State) : (s.countDown).lockPrefix = s.lockPrefix := rfl
@[simp] theorem State.countDown_repeating (s : State) : (s.countDown).repeating = s.repeating := rfl
@[simp] theorem State.countDown_staleCode (s : State) : (s.countDown).staleCode = s.staleCode := rfl
@[simp] theorem State.countDown_nmiPending (s : State) : (s.countDown).nmiPending = s.nmiPending := rfl
@[simp] theorem State.countDown_inputs (s : State) : (s.countDown).inputs = s.inputs := rfl
@[simp] theorem State.countDown_events (s : State) : (s.countDown).events = s.events := rfl
@[simp] theorem State.countDown_ipStart (s : State) : (s.countDown).ipStart = s.ipStart := rfl
@[simp] theorem State.countDown_draws (s : State) : (s.countDown).draws = s.draws := rfl

/-! `discard` -/

@[simp] theorem State.discard_gpr (s : State) (n : Word) : (s.discard n).gpr = s.gpr.set (s.gpr.sp + n) .sp := rfl
@[simp] theorem State.discard_segs (s : State) (n : Word) : (s.discard n).segs = s.segs := rfl
@[simp] theorem State.discard_ip (s : State) (n : Word) : (s.discard n).ip = s.ip := rfl
@[simp] theorem State.discard_flags (s : State) (n : Word) : (s.discard n).flags = s.flags := rfl
@[simp] theorem State.discard_mem (s : State) (n : Word) : (s.discard n).mem = s.mem := rfl
@[simp] theorem State.discard_halted (s : State) (n : Word) : (s.discard n).halted = s.halted := rfl
@[simp] theorem State.discard_waiting (s : State) (n : Word) : (s.discard n).waiting = s.waiting := rfl
@[simp] theorem State.discard_window (s : State) (n : Word) : (s.discard n).window = s.window := rfl
@[simp] theorem State.discard_segOverride (s : State) (n : Word) : (s.discard n).segOverride = s.segOverride := rfl
@[simp] theorem State.discard_repeatWith (s : State) (n : Word) : (s.discard n).repeatWith = s.repeatWith := rfl
@[simp] theorem State.discard_lockPrefix (s : State) (n : Word) : (s.discard n).lockPrefix = s.lockPrefix := rfl
@[simp] theorem State.discard_repeating (s : State) (n : Word) : (s.discard n).repeating = s.repeating := rfl
@[simp] theorem State.discard_staleCode (s : State) (n : Word) : (s.discard n).staleCode = s.staleCode := rfl
@[simp] theorem State.discard_nmiPending (s : State) (n : Word) : (s.discard n).nmiPending = s.nmiPending := rfl
@[simp] theorem State.discard_inputs (s : State) (n : Word) : (s.discard n).inputs = s.inputs := rfl
@[simp] theorem State.discard_events (s : State) (n : Word) : (s.discard n).events = s.events := rfl
@[simp] theorem State.discard_ipStart (s : State) (n : Word) : (s.discard n).ipStart = s.ipStart := rfl
@[simp] theorem State.discard_draws (s : State) (n : Word) : (s.discard n).draws = s.draws := rfl

/-! `stepSi` -/

@[simp] theorem State.stepSi_gpr (s : State) (w : Width) : (s.stepSi w).gpr = s.gpr.set (s.gpr.si + s.delta w) .si := rfl
@[simp] theorem State.stepSi_segs (s : State) (w : Width) : (s.stepSi w).segs = s.segs := rfl
@[simp] theorem State.stepSi_ip (s : State) (w : Width) : (s.stepSi w).ip = s.ip := rfl
@[simp] theorem State.stepSi_flags (s : State) (w : Width) : (s.stepSi w).flags = s.flags := rfl
@[simp] theorem State.stepSi_mem (s : State) (w : Width) : (s.stepSi w).mem = s.mem := rfl
@[simp] theorem State.stepSi_halted (s : State) (w : Width) : (s.stepSi w).halted = s.halted := rfl
@[simp] theorem State.stepSi_waiting (s : State) (w : Width) : (s.stepSi w).waiting = s.waiting := rfl
@[simp] theorem State.stepSi_window (s : State) (w : Width) : (s.stepSi w).window = s.window := rfl
@[simp] theorem State.stepSi_segOverride (s : State) (w : Width) : (s.stepSi w).segOverride = s.segOverride := rfl
@[simp] theorem State.stepSi_repeatWith (s : State) (w : Width) : (s.stepSi w).repeatWith = s.repeatWith := rfl
@[simp] theorem State.stepSi_lockPrefix (s : State) (w : Width) : (s.stepSi w).lockPrefix = s.lockPrefix := rfl
@[simp] theorem State.stepSi_repeating (s : State) (w : Width) : (s.stepSi w).repeating = s.repeating := rfl
@[simp] theorem State.stepSi_staleCode (s : State) (w : Width) : (s.stepSi w).staleCode = s.staleCode := rfl
@[simp] theorem State.stepSi_nmiPending (s : State) (w : Width) : (s.stepSi w).nmiPending = s.nmiPending := rfl
@[simp] theorem State.stepSi_inputs (s : State) (w : Width) : (s.stepSi w).inputs = s.inputs := rfl
@[simp] theorem State.stepSi_events (s : State) (w : Width) : (s.stepSi w).events = s.events := rfl
@[simp] theorem State.stepSi_ipStart (s : State) (w : Width) : (s.stepSi w).ipStart = s.ipStart := rfl
@[simp] theorem State.stepSi_draws (s : State) (w : Width) : (s.stepSi w).draws = s.draws := rfl

/-! `stepDi` -/

@[simp] theorem State.stepDi_gpr (s : State) (w : Width) : (s.stepDi w).gpr = s.gpr.set (s.gpr.di + s.delta w) .di := rfl
@[simp] theorem State.stepDi_segs (s : State) (w : Width) : (s.stepDi w).segs = s.segs := rfl
@[simp] theorem State.stepDi_ip (s : State) (w : Width) : (s.stepDi w).ip = s.ip := rfl
@[simp] theorem State.stepDi_flags (s : State) (w : Width) : (s.stepDi w).flags = s.flags := rfl
@[simp] theorem State.stepDi_mem (s : State) (w : Width) : (s.stepDi w).mem = s.mem := rfl
@[simp] theorem State.stepDi_halted (s : State) (w : Width) : (s.stepDi w).halted = s.halted := rfl
@[simp] theorem State.stepDi_waiting (s : State) (w : Width) : (s.stepDi w).waiting = s.waiting := rfl
@[simp] theorem State.stepDi_window (s : State) (w : Width) : (s.stepDi w).window = s.window := rfl
@[simp] theorem State.stepDi_segOverride (s : State) (w : Width) : (s.stepDi w).segOverride = s.segOverride := rfl
@[simp] theorem State.stepDi_repeatWith (s : State) (w : Width) : (s.stepDi w).repeatWith = s.repeatWith := rfl
@[simp] theorem State.stepDi_lockPrefix (s : State) (w : Width) : (s.stepDi w).lockPrefix = s.lockPrefix := rfl
@[simp] theorem State.stepDi_repeating (s : State) (w : Width) : (s.stepDi w).repeating = s.repeating := rfl
@[simp] theorem State.stepDi_staleCode (s : State) (w : Width) : (s.stepDi w).staleCode = s.staleCode := rfl
@[simp] theorem State.stepDi_nmiPending (s : State) (w : Width) : (s.stepDi w).nmiPending = s.nmiPending := rfl
@[simp] theorem State.stepDi_inputs (s : State) (w : Width) : (s.stepDi w).inputs = s.inputs := rfl
@[simp] theorem State.stepDi_events (s : State) (w : Width) : (s.stepDi w).events = s.events := rfl
@[simp] theorem State.stepDi_ipStart (s : State) (w : Width) : (s.stepDi w).ipStart = s.ipStart := rfl
@[simp] theorem State.stepDi_draws (s : State) (w : Width) : (s.stepDi w).draws = s.draws := rfl

/-! `chosen` -/

@[simp] theorem State.chosen_gpr (s : State) (reads : List FlagName) : (s.chosen reads).gpr = s.gpr := by unfold State.chosen; split <;> rfl
@[simp] theorem State.chosen_segs (s : State) (reads : List FlagName) : (s.chosen reads).segs = s.segs := by unfold State.chosen; split <;> rfl
@[simp] theorem State.chosen_ip (s : State) (reads : List FlagName) : (s.chosen reads).ip = s.ip := by unfold State.chosen; split <;> rfl
@[simp] theorem State.chosen_flags (s : State) (reads : List FlagName) : (s.chosen reads).flags = s.flags := by unfold State.chosen; split <;> rfl
@[simp] theorem State.chosen_mem (s : State) (reads : List FlagName) : (s.chosen reads).mem = s.mem := by unfold State.chosen; split <;> rfl
@[simp] theorem State.chosen_halted (s : State) (reads : List FlagName) : (s.chosen reads).halted = s.halted := by unfold State.chosen; split <;> rfl
@[simp] theorem State.chosen_waiting (s : State) (reads : List FlagName) : (s.chosen reads).waiting = s.waiting := by unfold State.chosen; split <;> rfl
@[simp] theorem State.chosen_window (s : State) (reads : List FlagName) : (s.chosen reads).window = s.window := by unfold State.chosen; split <;> rfl
@[simp] theorem State.chosen_segOverride (s : State) (reads : List FlagName) : (s.chosen reads).segOverride = s.segOverride := by unfold State.chosen; split <;> rfl
@[simp] theorem State.chosen_repeatWith (s : State) (reads : List FlagName) : (s.chosen reads).repeatWith = s.repeatWith := by unfold State.chosen; split <;> rfl
@[simp] theorem State.chosen_lockPrefix (s : State) (reads : List FlagName) : (s.chosen reads).lockPrefix = s.lockPrefix := by unfold State.chosen; split <;> rfl
@[simp] theorem State.chosen_repeating (s : State) (reads : List FlagName) : (s.chosen reads).repeating = s.repeating := by unfold State.chosen; split <;> rfl
@[simp] theorem State.chosen_staleCode (s : State) (reads : List FlagName) : (s.chosen reads).staleCode = s.staleCode := by unfold State.chosen; split <;> rfl
@[simp] theorem State.chosen_nmiPending (s : State) (reads : List FlagName) : (s.chosen reads).nmiPending = s.nmiPending := by unfold State.chosen; split <;> rfl
@[simp] theorem State.chosen_inputs (s : State) (reads : List FlagName) : (s.chosen reads).inputs = s.inputs := by unfold State.chosen; split <;> rfl
@[simp] theorem State.chosen_events (s : State) (reads : List FlagName) : (s.chosen reads).events = s.events := by unfold State.chosen; split <;> rfl
@[simp] theorem State.chosen_ipStart (s : State) (reads : List FlagName) : (s.chosen reads).ipStart = s.ipStart := by unfold State.chosen; split <;> rfl

/-! Registers by number -/

theorem Gprs.get_set_same (g : Gprs) (r : Reg16) (v : Word) : (g.set v r).get r = v := by cases r <;> rfl

theorem Gprs.get_set_ne (g : Gprs) {r q : Reg16} (v : Word) (h : q ≠ r) : (g.set v r).get q = g.get q := by
  cases r <;> cases q <;> first | rfl | exact absurd rfl h

@[simp] theorem Gprs.get_set (g : Gprs) (r q : Reg16) (v : Word) : (g.set v r).get q = if q = r then v else g.get q := by
  split
  · next h => subst h; exact g.get_set_same q v
  · next h => exact g.get_set_ne v h

@[simp] theorem SegRegs.get_set (g : SegRegs) (r q : SegReg) (v : Word) :
    (g.set v r).get q = if q = r then v else g.get q := by
  cases r <;> cases q <;> rfl

@[simp] theorem SegRegs.set_cs_cs (g : SegRegs) (v : Word) : (g.set v .cs).cs = v := rfl
@[simp] theorem SegRegs.set_cs_ss (g : SegRegs) (v : Word) : (g.set v .cs).ss = g.ss := rfl
@[simp] theorem SegRegs.set_cs_ds (g : SegRegs) (v : Word) : (g.set v .cs).ds = g.ds := rfl
@[simp] theorem SegRegs.set_cs_es (g : SegRegs) (v : Word) : (g.set v .cs).es = g.es := rfl

@[simp] theorem Gprs.set_ax_ax (g : Gprs) (v : Word) : (g.set v .ax).ax = v := rfl
@[simp] theorem Gprs.set_ax_cx (g : Gprs) (v : Word) : (g.set v .ax).cx = g.cx := rfl
@[simp] theorem Gprs.set_ax_dx (g : Gprs) (v : Word) : (g.set v .ax).dx = g.dx := rfl
@[simp] theorem Gprs.set_ax_bx (g : Gprs) (v : Word) : (g.set v .ax).bx = g.bx := rfl
@[simp] theorem Gprs.set_ax_sp (g : Gprs) (v : Word) : (g.set v .ax).sp = g.sp := rfl
@[simp] theorem Gprs.set_ax_bp (g : Gprs) (v : Word) : (g.set v .ax).bp = g.bp := rfl
@[simp] theorem Gprs.set_ax_si (g : Gprs) (v : Word) : (g.set v .ax).si = g.si := rfl
@[simp] theorem Gprs.set_ax_di (g : Gprs) (v : Word) : (g.set v .ax).di = g.di := rfl
@[simp] theorem Gprs.set_cx_ax (g : Gprs) (v : Word) : (g.set v .cx).ax = g.ax := rfl
@[simp] theorem Gprs.set_cx_cx (g : Gprs) (v : Word) : (g.set v .cx).cx = v := rfl
@[simp] theorem Gprs.set_cx_dx (g : Gprs) (v : Word) : (g.set v .cx).dx = g.dx := rfl
@[simp] theorem Gprs.set_cx_bx (g : Gprs) (v : Word) : (g.set v .cx).bx = g.bx := rfl
@[simp] theorem Gprs.set_cx_sp (g : Gprs) (v : Word) : (g.set v .cx).sp = g.sp := rfl
@[simp] theorem Gprs.set_cx_bp (g : Gprs) (v : Word) : (g.set v .cx).bp = g.bp := rfl
@[simp] theorem Gprs.set_cx_si (g : Gprs) (v : Word) : (g.set v .cx).si = g.si := rfl
@[simp] theorem Gprs.set_cx_di (g : Gprs) (v : Word) : (g.set v .cx).di = g.di := rfl
@[simp] theorem Gprs.set_dx_ax (g : Gprs) (v : Word) : (g.set v .dx).ax = g.ax := rfl
@[simp] theorem Gprs.set_dx_cx (g : Gprs) (v : Word) : (g.set v .dx).cx = g.cx := rfl
@[simp] theorem Gprs.set_dx_dx (g : Gprs) (v : Word) : (g.set v .dx).dx = v := rfl
@[simp] theorem Gprs.set_dx_bx (g : Gprs) (v : Word) : (g.set v .dx).bx = g.bx := rfl
@[simp] theorem Gprs.set_dx_sp (g : Gprs) (v : Word) : (g.set v .dx).sp = g.sp := rfl
@[simp] theorem Gprs.set_dx_bp (g : Gprs) (v : Word) : (g.set v .dx).bp = g.bp := rfl
@[simp] theorem Gprs.set_dx_si (g : Gprs) (v : Word) : (g.set v .dx).si = g.si := rfl
@[simp] theorem Gprs.set_dx_di (g : Gprs) (v : Word) : (g.set v .dx).di = g.di := rfl
@[simp] theorem Gprs.set_bx_ax (g : Gprs) (v : Word) : (g.set v .bx).ax = g.ax := rfl
@[simp] theorem Gprs.set_bx_cx (g : Gprs) (v : Word) : (g.set v .bx).cx = g.cx := rfl
@[simp] theorem Gprs.set_bx_dx (g : Gprs) (v : Word) : (g.set v .bx).dx = g.dx := rfl
@[simp] theorem Gprs.set_bx_bx (g : Gprs) (v : Word) : (g.set v .bx).bx = v := rfl
@[simp] theorem Gprs.set_bx_sp (g : Gprs) (v : Word) : (g.set v .bx).sp = g.sp := rfl
@[simp] theorem Gprs.set_bx_bp (g : Gprs) (v : Word) : (g.set v .bx).bp = g.bp := rfl
@[simp] theorem Gprs.set_bx_si (g : Gprs) (v : Word) : (g.set v .bx).si = g.si := rfl
@[simp] theorem Gprs.set_bx_di (g : Gprs) (v : Word) : (g.set v .bx).di = g.di := rfl
@[simp] theorem Gprs.set_sp_ax (g : Gprs) (v : Word) : (g.set v .sp).ax = g.ax := rfl
@[simp] theorem Gprs.set_sp_cx (g : Gprs) (v : Word) : (g.set v .sp).cx = g.cx := rfl
@[simp] theorem Gprs.set_sp_dx (g : Gprs) (v : Word) : (g.set v .sp).dx = g.dx := rfl
@[simp] theorem Gprs.set_sp_bx (g : Gprs) (v : Word) : (g.set v .sp).bx = g.bx := rfl
@[simp] theorem Gprs.set_sp_sp (g : Gprs) (v : Word) : (g.set v .sp).sp = v := rfl
@[simp] theorem Gprs.set_sp_bp (g : Gprs) (v : Word) : (g.set v .sp).bp = g.bp := rfl
@[simp] theorem Gprs.set_sp_si (g : Gprs) (v : Word) : (g.set v .sp).si = g.si := rfl
@[simp] theorem Gprs.set_sp_di (g : Gprs) (v : Word) : (g.set v .sp).di = g.di := rfl
@[simp] theorem Gprs.set_bp_ax (g : Gprs) (v : Word) : (g.set v .bp).ax = g.ax := rfl
@[simp] theorem Gprs.set_bp_cx (g : Gprs) (v : Word) : (g.set v .bp).cx = g.cx := rfl
@[simp] theorem Gprs.set_bp_dx (g : Gprs) (v : Word) : (g.set v .bp).dx = g.dx := rfl
@[simp] theorem Gprs.set_bp_bx (g : Gprs) (v : Word) : (g.set v .bp).bx = g.bx := rfl
@[simp] theorem Gprs.set_bp_sp (g : Gprs) (v : Word) : (g.set v .bp).sp = g.sp := rfl
@[simp] theorem Gprs.set_bp_bp (g : Gprs) (v : Word) : (g.set v .bp).bp = v := rfl
@[simp] theorem Gprs.set_bp_si (g : Gprs) (v : Word) : (g.set v .bp).si = g.si := rfl
@[simp] theorem Gprs.set_bp_di (g : Gprs) (v : Word) : (g.set v .bp).di = g.di := rfl
@[simp] theorem Gprs.set_si_ax (g : Gprs) (v : Word) : (g.set v .si).ax = g.ax := rfl
@[simp] theorem Gprs.set_si_cx (g : Gprs) (v : Word) : (g.set v .si).cx = g.cx := rfl
@[simp] theorem Gprs.set_si_dx (g : Gprs) (v : Word) : (g.set v .si).dx = g.dx := rfl
@[simp] theorem Gprs.set_si_bx (g : Gprs) (v : Word) : (g.set v .si).bx = g.bx := rfl
@[simp] theorem Gprs.set_si_sp (g : Gprs) (v : Word) : (g.set v .si).sp = g.sp := rfl
@[simp] theorem Gprs.set_si_bp (g : Gprs) (v : Word) : (g.set v .si).bp = g.bp := rfl
@[simp] theorem Gprs.set_si_si (g : Gprs) (v : Word) : (g.set v .si).si = v := rfl
@[simp] theorem Gprs.set_si_di (g : Gprs) (v : Word) : (g.set v .si).di = g.di := rfl
@[simp] theorem Gprs.set_di_ax (g : Gprs) (v : Word) : (g.set v .di).ax = g.ax := rfl
@[simp] theorem Gprs.set_di_cx (g : Gprs) (v : Word) : (g.set v .di).cx = g.cx := rfl
@[simp] theorem Gprs.set_di_dx (g : Gprs) (v : Word) : (g.set v .di).dx = g.dx := rfl
@[simp] theorem Gprs.set_di_bx (g : Gprs) (v : Word) : (g.set v .di).bx = g.bx := rfl
@[simp] theorem Gprs.set_di_sp (g : Gprs) (v : Word) : (g.set v .di).sp = g.sp := rfl
@[simp] theorem Gprs.set_di_bp (g : Gprs) (v : Word) : (g.set v .di).bp = g.bp := rfl
@[simp] theorem Gprs.set_di_si (g : Gprs) (v : Word) : (g.set v .di).si = g.si := rfl
@[simp] theorem Gprs.set_di_di (g : Gprs) (v : Word) : (g.set v .di).di = v := rfl

@[simp] theorem Gprs.set_set (g : Gprs) (r : Reg16) (v w : Word) : (g.set v r).set w r = g.set w r := by cases r <;> rfl

/-- A register written with its own value is unchanged. -/
@[simp] theorem Gprs.set_self (g : Gprs) (r : Reg16) : g.set (g.get r) r = g := by cases r <;> rfl

/-! Reading a register after an update -/

@[simp] theorem State.reg16_setReg16 (s : State) (r q : Reg16) (v : Word) :
    (s.setReg16 r v).reg16 q = if q = r then v else s.reg16 q := s.gpr.get_set r q v

theorem State.reg16_congr {s t : State} (h : t.gpr = s.gpr) (r : Reg16) : t.reg16 r = s.reg16 r := by
  unfold State.reg16; rw [h]

theorem State.reg8_congr {s t : State} (h : t.gpr = s.gpr) (r : Reg8) : t.reg8 r = s.reg8 r := by
  unfold State.reg8; rw [State.reg16_congr h]

theorem wordOf_toNat (hi lo : Byte) : (wordOf hi lo).toNat = hi.toNat * 256 + lo.toNat := by
  show (hi ++ lo : BitVec (8 + 8)).toNat = _
  rw [BitVec.toNat_append, Nat.shiftLeft_eq, Nat.mul_comm, ← Nat.two_pow_add_eq_or_of_lt lo.isLt]

theorem lowByte_toNat (v : Word) : (lowByte v).toNat = v.toNat % 256 := by simp [lowByte]

theorem highByte_toNat (v : Word) : (highByte v).toNat = v.toNat / 256 := by
  have := v.isLt
  simp only [highByte, BitVec.toNat_setWidth, BitVec.toNat_ushiftRight, Nat.shiftRight_eq_div_pow]
  omega

@[simp] theorem lowByte_wordOf (hi lo : Byte) : lowByte (wordOf hi lo) = lo := by
  apply BitVec.eq_of_toNat_eq; rw [lowByte_toNat, wordOf_toNat]; have := lo.isLt; omega

@[simp] theorem highByte_wordOf (hi lo : Byte) : highByte (wordOf hi lo) = hi := by
  apply BitVec.eq_of_toNat_eq; rw [highByte_toNat, wordOf_toNat]; have := lo.isLt; omega

@[simp] theorem wordOf_high_low (v : Word) : wordOf (highByte v) (lowByte v) = v := by
  apply BitVec.eq_of_toNat_eq; rw [wordOf_toNat, lowByte_toNat, highByte_toNat]; omega

/-- A byte register after a byte write (`10_state.md` R21). -/
@[simp] theorem State.reg8_setReg8 (s : State) (r q : Reg8) (v : Byte) :
    (s.setReg8 r v).reg8 q = if q = r then v else s.reg8 q := by
  cases r <;> cases q <;> simp [State.setReg8, State.reg8, Reg8Parent, Reg8High]

/-- A word register after a byte write: only the parent changes. -/
theorem State.reg16_setReg8 (s : State) (r : Reg8) (q : Reg16) (v : Byte) (h : q ≠ Reg8Parent r) :
    (s.setReg8 r v).reg16 q = s.reg16 q := by
  simp [State.setReg8, h]

end Sys2Proof.Machine
end

