-- ==== Sys2Proof/Laws/Memory.lean ====
section
/-! SUPPORT. Read after write, the canonical form, and which bytes a word store touches (`20_memory.md` R60 to R69). -/

namespace Sys2Proof.Machine

/-! ## Lists of cells -/

@[simp] theorem Memory.read_nil (a : Nat) : Memory.read [] a = Memory.unlisted := rfl

theorem Memory.read_cons (k : Nat) (v : Byte) (m : Memory) (a : Nat) :
    Memory.read ((k, v) :: m) a = if k = a then v else m.read a := rfl

theorem Memory.read_erase (m : Memory) (a b : Nat) :
    (m.erase a).read b = if b = a then Memory.unlisted else m.read b := by
  induction m with
  | nil => simp [Memory.erase]
  | cons c m ih =>
    obtain ⟨k, v⟩ := c
    simp only [Memory.erase, List.filter_cons, bne_iff_ne, ne_eq, ite_not] at ih ⊢
    by_cases hk : k = a
    · subst hk
      rw [if_pos rfl, ih, Memory.read_cons]
      by_cases hb : b = k
      · simp [hb]
      · rw [if_neg hb, if_neg hb, if_neg (Ne.symm hb)]
    · rw [if_neg hk, Memory.read_cons, Memory.read_cons, ih]
      by_cases hb : k = b
      · subst hb; simp [hk]
      · rw [if_neg hb, if_neg hb]

theorem Memory.read_insert (m : Memory) (a b : Nat) (v : Byte) (h : ∀ c ∈ m, c.1 ≠ a) :
    (m.insert a v).read b = if b = a then v else m.read b := by
  induction m with
  | nil =>
    simp only [Memory.insert, Memory.read_cons, Memory.read_nil]
    by_cases hb : b = a
    · simp [hb]
    · rw [if_neg hb, if_neg (Ne.symm hb)]
  | cons c m ih =>
    obtain ⟨k, w⟩ := c
    have hk : k ≠ a := h (k, w) (by simp)
    have ih := ih fun c hc => h c (by simp [hc])
    simp only [Memory.insert]
    split
    · simp only [Memory.read_cons]
      by_cases hb : b = a
      · simp [hb]
      · rw [if_neg hb, if_neg (Ne.symm hb)]
    · simp only [Memory.read_cons, ih]
      by_cases hb : b = a
      · subst hb; simp [hk]
      · rw [if_neg hb, if_neg hb]

theorem Memory.erase_ne (m : Memory) (a : Nat) : ∀ c ∈ m.erase a, c.1 ≠ a := by
  intro c hc; simpa [Memory.erase] using (List.mem_filter.mp hc).2

/-- Reading any address after a write (`20_memory.md` R65). -/
theorem Memory.read_write (m : Memory) (a b : Nat) (v : Byte) :
    (m.write a v).read b = if b = a then v else m.read b := by
  unfold Memory.write
  split
  · next hv => rw [Memory.read_erase, hv]
  · rw [Memory.read_insert _ _ _ _ (m.erase_ne a), Memory.read_erase]
    split <;> rfl

/-! ## The canonical form -/

theorem Memory.wf_nil : Memory.wf [] := by simp [Memory.wf]

theorem Memory.wf_erase {m : Memory} (h : m.wf) (a : Nat) : (m.erase a).wf :=
  ⟨h.1.filter _, fun c hc => h.2 c (List.mem_of_mem_filter hc)⟩

theorem Memory.mem_insert (m : Memory) (a : Nat) (v : Byte) (c : Host.Cell) :
    c ∈ m.insert a v ↔ c = (a, v) ∨ c ∈ m := by
  induction m with
  | nil => simp [Memory.insert]
  | cons d m ih =>
    obtain ⟨k, w⟩ := d
    simp only [Memory.insert]
    split
    · simp
    · rw [List.mem_cons, ih, List.mem_cons]; tauto

theorem Memory.wf_insert {m : Memory} (h : m.wf) {a : Nat} {v : Byte} (hv : v ≠ Memory.unlisted) (ha : a < 2 ^ 20)
    (hn : ∀ c ∈ m, c.1 ≠ a) : (m.insert a v).wf := by
  refine ⟨?_, fun c hc => ?_⟩
  · induction m with
    | nil => simp [Memory.insert]
    | cons d m ih =>
      obtain ⟨k, w⟩ := d
      have hp := List.pairwise_cons.mp h.1
      simp only [Memory.insert]
      split
      · next hk =>
        refine List.pairwise_cons.mpr ⟨fun c hc => ?_, h.1⟩
        rcases List.mem_cons.mp hc with rfl | hc
        · exact hk
        · exact hk.trans (hp.1 c hc)
      · next hk =>
        have hka : k < a := lt_of_le_of_ne (Nat.le_of_not_lt hk) (hn (k, w) (by simp))
        refine List.pairwise_cons.mpr ⟨fun c hc => ?_, ih ⟨hp.2, fun c hc => h.2 c (by simp [hc])⟩
          fun c hc => hn c (by simp [hc])⟩
        rcases (Memory.mem_insert m a v c).mp hc with rfl | hc
        · exact hka
        · exact hp.1 c hc
  · rcases (Memory.mem_insert m a v c).mp hc with rfl | hc
    · exact ⟨hv, ha⟩
    · exact h.2 c hc

/-- A write keeps the canonical form. -/
theorem Memory.wf_write {m : Memory} (h : m.wf) {a : Nat} (v : Byte) (ha : a < 2 ^ 20) : (m.write a v).wf := by
  unfold Memory.write
  split
  · exact Memory.wf_erase h a
  · next hv => exact Memory.wf_insert (Memory.wf_erase h a) hv ha (m.erase_ne a)

/-- Canonical memories that read the same everywhere are equal data. -/
theorem Memory.read_of_not_mem {m : Memory} {a : Nat} (h : ∀ c ∈ m, c.1 ≠ a) : m.read a = Memory.unlisted := by
  induction m with
  | nil => rfl
  | cons c m ih =>
    obtain ⟨k, v⟩ := c
    rw [Memory.read_cons, if_neg (h (k, v) (by simp)), ih fun c hc => h c (by simp [hc])]

theorem State.reset_mem_wf : State.reset.mem.wf := Memory.wf_nil

/-! ## Physical addresses -/

theorem phys_toNat (seg off : Word) : (phys seg off).toNat = (seg.toNat * 16 + off.toNat) % 2 ^ 20 := by
  simp [phys]

/-- Two offsets of one segment are two addresses (`20_memory.md` R61). -/
@[simp] theorem phys_inj (seg a b : Word) : phys seg a = phys seg b ↔ a = b := by
  refine ⟨fun h => ?_, fun h => h ▸ rfl⟩
  have h := congrArg BitVec.toNat h
  rw [phys_toNat, phys_toNat] at h
  apply BitVec.eq_of_toNat_eq
  have := a.isLt; have := b.isLt
  omega

theorem phys_ne_next (seg off : Word) : phys seg off ≠ phys seg (off + 1) := by
  rw [Ne, phys_inj]; intro h
  have h := congrArg BitVec.toNat h
  rw [BitVec.toNat_add] at h
  have := off.isLt
  simp at h; omega

/-! ## Bytes and words of the state -/

theorem State.byteAt_congr {s t : State} (h : t.mem = s.mem) (a : Addr) : t.byteAt a = s.byteAt a := by
  unfold State.byteAt; rw [h]

theorem State.read8_congr {s t : State} (h : t.mem = s.mem) (seg off : Word) : t.read8 seg off = s.read8 seg off :=
  State.byteAt_congr h _

theorem State.read16_congr {s t : State} (h : t.mem = s.mem) (seg off : Word) : t.read16 seg off = s.read16 seg off := by
  unfold State.read16; rw [State.read8_congr h, State.read8_congr h]

/-- Any byte after a byte store (`20_memory.md` R65). -/
@[simp] theorem State.byteAt_write8 (s : State) (seg off : Word) (v : Byte) (a : Addr) :
    (s.write8 seg off v).byteAt a = if a = phys seg off then v else s.byteAt a := by
  unfold State.byteAt
  rw [State.write8_mem, Memory.read_write]
  simp only [BitVec.toNat_inj]

/-- Any byte after a word store (`20_memory.md` R66, R69). -/
@[simp] theorem State.byteAt_write16 (s : State) (seg off v : Word) (a : Addr) :
    (s.write16 seg off v).byteAt a =
      if a = phys seg (off + 1) then highByte v else if a = phys seg off then lowByte v else s.byteAt a := by
  unfold State.write16; rw [State.byteAt_write8, State.byteAt_write8]

/-- A word store leaves the other bytes alone. -/
theorem State.byteAt_write16_ne (s : State) (seg off v : Word) {a : Addr} (h0 : a ≠ phys seg off)
    (h1 : a ≠ phys seg (off + 1)) : (s.write16 seg off v).byteAt a = s.byteAt a := by
  rw [State.byteAt_write16, if_neg h1, if_neg h0]

@[simp] theorem State.read8_write8_same (s : State) (seg off : Word) (v : Byte) :
    (s.write8 seg off v).read8 seg off = v := by simp [State.read8]

/-- A word read after a word store to the same place (`20_memory.md` R66). -/
@[simp] theorem State.read16_write16_same (s : State) (seg off v : Word) :
    (s.write16 seg off v).read16 seg off = v := by
  unfold State.read16 State.read8
  rw [State.byteAt_write16, State.byteAt_write16, if_pos rfl, if_neg (phys_ne_next seg off), if_pos rfl, wordOf_high_low]

/-- A word read at an offset at least two away from a word store in the same segment. -/
theorem State.read16_write16_apart (s : State) (seg off v o : Word) (h0 : o ≠ off) (h1 : o ≠ off + 1) (h2 : o + 1 ≠ off) :
    (s.write16 seg off v).read16 seg o = s.read16 seg o := by
  have h3 : o + 1 ≠ off + 1 := fun h => h0 (by simpa using h)
  unfold State.read16 State.read8
  rw [State.byteAt_write16_ne _ _ _ _ (mt (phys_inj _ _ _).mp h2) (mt (phys_inj _ _ _).mp h3),
    State.byteAt_write16_ne _ _ _ _ (mt (phys_inj _ _ _).mp h0) (mt (phys_inj _ _ _).mp h1)]

theorem State.wf_write8 {s : State} (h : s.mem.wf) (seg off : Word) (v : Byte) : (s.write8 seg off v).mem.wf :=
  Memory.wf_write h v (phys seg off).isLt

theorem State.wf_write16 {s : State} (h : s.mem.wf) (seg off v : Word) : (s.write16 seg off v).mem.wf :=
  State.wf_write8 (State.wf_write8 h _ _ _) _ _ _

theorem State.wf_push16 {s : State} (h : s.mem.wf) (v : Word) : (s.push16 v).mem.wf :=
  State.wf_write16 (s := s.setReg16 .sp (s.gpr.sp - 2)) h _ _ _

/-! `store8` and `store16` store as `write8` and `write16` do (`20_memory.md` R65, R66); they only remember more. -/

@[simp] theorem State.byteAt_store8 (s : State) (seg off : Word) (v : Byte) (a : Addr) :
    (s.store8 seg off v).byteAt a = (s.write8 seg off v).byteAt a := rfl

@[simp] theorem State.byteAt_store16 (s : State) (seg off v : Word) (a : Addr) :
    (s.store16 seg off v).byteAt a = (s.write16 seg off v).byteAt a := rfl

@[simp] theorem State.read8_store8_same (s : State) (seg off : Word) (v : Byte) :
    (s.store8 seg off v).read8 seg off = v := s.read8_write8_same seg off v

@[simp] theorem State.read16_store16_same (s : State) (seg off v : Word) :
    (s.store16 seg off v).read16 seg off = v := s.read16_write16_same seg off v

/-- Any byte after a push (`20_memory.md` R81). -/
theorem State.byteAt_push16 (s : State) (v : Word) (a : Addr) :
    (s.push16 v).byteAt a = (s.write16 s.segs.ss (s.gpr.sp - 2) v).byteAt a := by
  unfold State.push16; rw [State.byteAt_store16, State.byteAt_write16, State.byteAt_write16]; rfl

/-- The word pushed is on top of the stack. -/
@[simp] theorem State.top16_push16 (s : State) (v : Word) : (s.push16 v).top16 = v := by
  unfold State.top16
  simp only [State.push16_segs, State.push16_gpr, Gprs.set_sp_sp]
  exact State.read16_write16_same _ _ _ _

end Sys2Proof.Machine
end

