-- ==== Sys2Proof/Laws/Ops.lean ====
section
/-! SUPPORT. For each shared operation, once, everything it can do: what it answers and what it leaves. -/

namespace Sys2Proof.Machine

/-! ## Answers -/

@[simp] theorem andThen_next (s : State) (k : State → Result) : andThen (.next s) k = k s := rfl
@[simp] theorem andThen_refused (e : Refusal) (k : State → Result) : andThen (.refused e) k = .refused e := rfl
@[simp] theorem andThen_fault (e : Fault) (k : State → Result) : andThen (.fault e) k = .fault e := rfl

/-- A sequence answers a next state iff both parts do. -/
theorem andThen_eq_next {r : Result} {k : State → Result} {t : State} :
    andThen r k = .next t ↔ ∃ u, r = .next u ∧ k u = .next t := by
  cases r with
  | next u => exact ⟨fun h => ⟨u, rfl, h⟩, fun ⟨_, h, hk⟩ => by cases h; exact hk⟩
  | fault e => exact ⟨nofun, fun ⟨_, h, _⟩ => nomatch h⟩
  | refused e => exact ⟨nofun, fun ⟨_, h, _⟩ => nomatch h⟩

/-- A sequence is refused iff its first part is, or its second after the first. -/
theorem andThen_eq_refused {r : Result} {k : State → Result} {e : Refusal} :
    andThen r k = .refused e ↔ r = .refused e ∨ ∃ u, r = .next u ∧ k u = .refused e := by
  cases r with
  | next u =>
    exact ⟨fun h => .inr ⟨u, rfl, h⟩, fun h => by rcases h with h | ⟨_, h, hk⟩ <;> cases h; exact hk⟩
  | fault e => exact ⟨nofun, fun h => by rcases h with h | ⟨_, h, _⟩ <;> cases h⟩
  | refused e' => exact ⟨fun h => .inl h, fun h => by rcases h with h | ⟨_, h, _⟩; exacts [h, by cases h]⟩

/-! ## The bytes that may already be fetched (`20_memory.md` R79) -/

/-- Only CS and IP say which bytes may already be fetched. -/
theorem State.prefetched_congr {s t : State} (hs : t.segs.cs = s.segs.cs) (hi : t.ip = s.ip) (a : Addr) :
    t.prefetched a = s.prefetched a := by
  unfold State.prefetched; rw [hs, hi]

/-- A byte in the window of R79 is one of the next `PREFETCH_BYTES` bytes at CS:IP. -/
theorem State.prefetched_iff (s : State) (a : Addr) :
    s.prefetched a = true ↔
      ∃ k, k < Config.maxPrefetchBytes ∧ k < Config.prefetchBytes ∧ a = phys s.segs.cs (s.ip + BitVec.ofNat 16 k) := by
  simp only [State.prefetched, List.any_eq_true, List.mem_range, Bool.and_eq_true, beq_iff_eq, decide_eq_true_eq]
  exact ⟨fun ⟨k, hk, ha, hp⟩ => ⟨k, hk, hp, ha⟩, fun ⟨k, hk, hp, ha⟩ => ⟨k, hk, ha, hp⟩⟩

/-- What stores to `bytes` add to the bytes to remember. -/
@[simp] theorem State.mem_noted (s : State) (bytes : List Addr) (a : Addr) :
    a ∈ s.noted bytes ↔ (a ∈ bytes ∧ s.prefetched a = true) ∨ a ∈ s.staleCode := by
  simp [State.noted]

@[simp] theorem State.noted_nil (s : State) : s.noted [] = s.staleCode := rfl

/-! ## Choices that read flags (`44_control_transfer.md` R358) -/

/-- A choice whose flags are all defined is its condition, and draws nothing. -/
theorem State.choose_defined {s : State} {reads : List FlagName} (h : s.flags.readsUndef reads = false) (c : Bool) :
    s.choose reads c = c := by simp [State.choose, h]

theorem State.chosen_defined {s : State} {reads : List FlagName} (h : s.flags.readsUndef reads = false) :
    s.chosen reads = s := by simp [State.chosen, h]

/-- A choice that reads an `undef` flag is a free value. -/
theorem State.choose_undef {s : State} {reads : List FlagName} (h : s.flags.readsUndef reads = true) (c : Bool) :
    s.choose reads c = Config.undefChoice s.draws := by simp [State.choose, h]

theorem State.chosen_undef {s : State} {reads : List FlagName} (h : s.flags.readsUndef reads = true) :
    s.chosen reads = s.nextDraw := by simp [State.chosen, h]

/-! ## The LOCK output (`45_processor_control.md` R426, `20_memory.md` R78) -/

@[simp] theorem State.lockOutput_setLock (s : State) (b : Bool) : (s.setLock b).lockOutput = b := by
  by_cases h : s.lockOutput = b
  · exact (congrArg lockLevel (if_pos h)).trans h
  · exact congrArg lockLevel (if_neg h)

theorem State.setLock_self {s : State} {b : Bool} (h : s.lockOutput = b) : s.setLock b = s := by
  cases s; simp only [State.setLock]; rw [if_pos h]

theorem State.lockOutput_congr {s t : State} (h : t.events = s.events) : t.lockOutput = s.lockOutput := by
  unfold State.lockOutput; rw [h]

/-- Whatever is done under LOCK, LOCK is afterwards as it was, if the work itself leaves it alone. -/
theorem State.lockOutput_underLock (s : State) (locks : Bool) {work : State → State}
    (h : ∀ u, (work u).events = u.events) : (s.underLock locks work).lockOutput = s.lockOutput := by
  unfold State.underLock
  split
  · simp
  · exact State.lockOutput_congr (h s)

/-! ## Writing a place -/

/-- A place reads as what was written to it. -/
@[simp] theorem State.get8_put8 (s : State) (v : Byte) (l : Loc Reg8) : (s.put8 v l).get8 l = v := by
  cases l <;> simp [State.put8, State.get8]

@[simp] theorem State.get16_put16 (s : State) (v : Word) (l : Loc Reg16) : (s.put16 v l).get16 l = v := by
  cases l <;> simp [State.put16, State.get16]

/-- A write to a place changes no byte of memory outside it. -/
theorem State.byteAt_put8 (s : State) (v : Byte) (l : Loc Reg8) {a : Addr} (h : a ∉ l.bytes8) :
    (s.put8 v l).byteAt a = s.byteAt a := by
  cases l with
  | reg r => rfl
  | mem seg off => simp only [Loc.bytes8, List.mem_singleton] at h; simp [State.put8, h]

theorem State.byteAt_put16 (s : State) (v : Word) (l : Loc Reg16) {a : Addr} (h : a ∉ l.bytes16) :
    (s.put16 v l).byteAt a = s.byteAt a := by
  cases l with
  | reg r => rfl
  | mem seg off =>
    simp only [Loc.bytes16, wordAt, List.mem_cons, List.not_mem_nil, or_false, not_or] at h
    exact State.byteAt_write16_ne _ _ _ _ h.1 h.2

/-- A write to a place changes no general register outside it. -/
theorem State.reg16_put8 (s : State) (v : Byte) (l : Loc Reg8) {r : Reg16} (h : r ∉ l.regs8) :
    (s.put8 v l).reg16 r = s.reg16 r := by
  cases l with
  | reg q => exact State.reg16_setReg8 s q r v (by simpa [Loc.regs8] using h)
  | mem seg off => rfl

theorem State.reg16_put16 (s : State) (v : Word) (l : Loc Reg16) {r : Reg16} (h : r ∉ l.regs16) :
    (s.put16 v l).reg16 r = s.reg16 r := by
  cases l with
  | reg q => simp only [Loc.regs16, List.mem_singleton] at h; simp [State.put16, h]
  | mem seg off => rfl

theorem State.wf_put8 {s : State} (h : s.mem.wf) (v : Byte) (l : Loc Reg8) : (s.put8 v l).mem.wf := by
  cases l with
  | reg r => exact h
  | mem seg off => exact State.wf_write8 h _ _ _

theorem State.wf_put16 {s : State} (h : s.mem.wf) (v : Word) (l : Loc Reg16) : (s.put16 v l).mem.wf := by
  cases l with
  | reg r => exact h
  | mem seg off => exact State.wf_write16 h _ _ _

/-- A write to a place changes nothing but the general registers, memory and the bytes to remember. -/
theorem State.put8_rest (s : State) (v : Byte) (l : Loc Reg8) :
    s.put8 v l = { s with gpr := (s.put8 v l).gpr, mem := (s.put8 v l).mem, staleCode := s.noted l.bytes8 } := by
  cases l <;> rfl

theorem State.put16_rest (s : State) (v : Word) (l : Loc Reg16) :
    s.put16 v l = { s with gpr := (s.put16 v l).gpr, mem := (s.put16 v l).mem, staleCode := s.noted l.bytes16 } := by
  cases l <;> rfl

/-! ## Computing and writing back -/

/-- With CF defined, an operation with a carry in is that operation (`41_arithmetic.md` R245). -/
theorem State.combineWithCarry_defined {s : State} (h : s.flags.undef.CF = false)
    (op : {n : Nat} → BitVec n → BitVec n → Flags → BitVec n × Flags) (o : Operands) :
    s.combineWithCarry op o = s.combine op o := by simp [State.combineWithCarry, h]

/-- With CF `undef`, its result and all six flags are free values. -/
theorem State.combineWithCarry_undef {s : State} (h : s.flags.undef.CF = true)
    (op : {n : Nat} → BitVec n → BitVec n → Flags → BitVec n × Flags) (o : Operands) :
    s.combineWithCarry op o =
      s.nextDraw.combine (fun {n} _ _ fl => (Config.undefResult s.draws n, fl.undefined s.draws)) o := by
  simp [State.combineWithCarry, h]

/-- The common form of the shifts: nothing for a count of 0, and otherwise a read-modify-write (`42_logic_shift.md` R290). -/
theorem State.shift_zero (s : State) (step : {n : Nat} → BitVec n × Bool → BitVec n × Bool)
    (flags : {n : Nat} → Nat → Nat → BitVec n → BitVec n → Bool → Flags → Flags) (d : Dest) :
    s.shift step flags 0 d = s := rfl

theorem State.shift_count {s : State} (step : {n : Nat} → BitVec n × Bool → BitVec n × Bool)
    (flags : {n : Nat} → Nat → Nat → BitVec n → BitVec n → Bool → Flags → Flags) {count : Nat} (hc : count ≠ 0) (d : Dest) :
    s.shift step flags count d =
      s.nextDraw.modify
        (fun x fl => ((repeatStep step count (x, fl.CF)).1,
          flags s.draws count x (repeatStep step count (x, fl.CF)).1 (repeatStep step count (x, fl.CF)).2 fl)) d := by
  unfold State.shift
  rw [if_neg hc]

theorem State.shiftThroughCarry_zero (s : State) (step : {n : Nat} → BitVec n × Bool → BitVec n × Bool) (d : Dest) :
    s.shiftThroughCarry step 0 d = s := by simp [State.shiftThroughCarry, State.shift_zero]

/-- With CF defined, RCL and RCR have the common form. -/
theorem State.shiftThroughCarry_defined {s : State} (h : s.flags.undef.CF = false)
    (step : {n : Nat} → BitVec n × Bool → BitVec n × Bool) (count : Nat) (d : Dest) :
    s.shiftThroughCarry step count d = s.shift step (fun n c x0 x cf fl => fl.rotated n c x0 x cf) count d := by
  simp [State.shiftThroughCarry, h]

/-- With CF `undef`, their result, CF and OF are free values. -/
theorem State.shiftThroughCarry_undef {s : State} (h : s.flags.undef.CF = true)
    (step : {n : Nat} → BitVec n × Bool → BitVec n × Bool) {count : Nat} (hc : count ≠ 0) (d : Dest) :
    s.shiftThroughCarry step count d =
      s.nextDraw.modify (fun {n} _ fl => (Config.undefResult s.draws n, fl.rotatedUndef s.draws)) d := by
  simp [State.shiftThroughCarry, h, hc]

/-! ## The stack and interrupts -/

/-- A push changes no byte outside the word it stores. -/
theorem State.byteAt_push16_ne (s : State) (v : Word) {a : Addr} (h : a ∉ s.pushBytes) :
    (s.push16 v).byteAt a = s.byteAt a := by
  simp only [State.pushBytes, wordAt, List.mem_cons, List.not_mem_nil, or_false, not_or] at h
  rw [State.byteAt_push16, State.byteAt_write16_ne _ _ _ _ h.1 h.2]

/-- A push changes SP and no other general register. -/
theorem State.reg16_push16 (s : State) (v : Word) {r : Reg16} (h : r ≠ .sp) : (s.push16 v).reg16 r = s.reg16 r := by
  simp [State.reg16, State.push16_gpr, h]

/-- The state before the interrupt sequence reads the vector: the three words are pushed, IF and TF cleared (`60_exceptions.md`
R508). -/
def State.framed (s : State) : State :=
  let pushed := (s.push16 (s.flags.word (Config.undefFlagBits s.draws))).nextDraw
  let masked := pushed.withFlags { s.flags with IF := false, TF := false }
  (masked.push16 s.segs.cs).push16 s.ip

/-- The interrupt sequence is the three pushes and a far transfer to the vector (`60_exceptions.md` R508). -/
theorem State.interrupt_eq (s : State) (t : Byte) :
    s.interrupt t = s.framed.jumpFar (s.framed.read16 0 (vectorOffset t + 2)) (s.framed.read16 0 (vectorOffset t)) := rfl

@[simp] theorem State.framed_gpr (s : State) :
    s.framed.gpr = s.gpr.set (s.gpr.sp - 6) .sp := by
  simp only [State.framed, State.push16_gpr, State.withFlags_gpr, State.nextDraw_gpr, Gprs.set_set, Gprs.set_sp_sp]
  congr 1
  simp [BitVec.sub_sub]

@[simp] theorem State.framed_flags (s : State) : s.framed.flags = { s.flags with IF := false, TF := false } := rfl
@[simp] theorem State.framed_segs (s : State) : s.framed.segs = s.segs := rfl

/-- The pushes of the interrupt sequence change no byte outside the three words (`60_exceptions.md` R508). -/
theorem State.byteAt_framed_ne (s : State) {a : Addr} (h : a ∉ s.interruptFrame) : s.framed.byteAt a = s.byteAt a := by
  simp only [State.interruptFrame, State.farFrame, List.mem_append, not_or] at h
  obtain ⟨⟨h2, h4⟩, h6⟩ := h
  unfold State.framed
  rw [State.byteAt_push16_ne, State.byteAt_push16_ne]
  · exact State.byteAt_push16_ne s _ h2
  · simpa [State.pushBytes, BitVec.sub_sub] using h4
  · simpa [State.pushBytes, BitVec.sub_sub] using h6

/-- What the interrupt sequence leaves besides memory (`60_exceptions.md` R508). -/
theorem State.interrupt_gpr (s : State) (t : Byte) : (s.interrupt t).gpr = s.gpr.set (s.gpr.sp - 6) .sp :=
  s.framed_gpr

theorem State.interrupt_flags (s : State) (t : Byte) :
    (s.interrupt t).flags = { s.flags with IF := false, TF := false } := rfl

theorem State.interrupt_mem (s : State) (t : Byte) : (s.interrupt t).mem = s.framed.mem := rfl

theorem State.byteAt_interrupt_ne (s : State) (t : Byte) {a : Addr} (h : a ∉ s.interruptFrame) :
    (s.interrupt t).byteAt a = s.byteAt a := s.byteAt_framed_ne h

theorem State.wf_withFlags {s : State} (h : s.mem.wf) (f : Flags) : (s.withFlags f).mem.wf := h

theorem State.wf_nextDraw {s : State} (h : s.mem.wf) : s.nextDraw.mem.wf := h

theorem State.wf_framed {s : State} (h : s.mem.wf) : s.framed.mem.wf := by
  have h1 := State.wf_push16 h (s.flags.word (Config.undefFlagBits s.draws))
  have h2 := State.wf_withFlags (State.wf_nextDraw h1) { s.flags with IF := false, TF := false }
  have h3 := State.wf_push16 (State.wf_push16 h2 s.segs.cs) s.ip
  unfold State.framed
  exact h3

theorem State.wf_interrupt {s : State} (h : s.mem.wf) (t : Byte) : (s.interrupt t).mem.wf := by
  rw [State.interrupt_mem]
  exact State.wf_framed h

end Sys2Proof.Machine
end

