-- ==== Sys2Proof/Laws/Step.lean ====
section
/-! SUPPORT. What a string iteration, a recognition point, the boundary after an instruction and a step can do, once each: later
proofs cite these and unfold nothing. -/

namespace Sys2Proof.Machine

/-! ## String iterations (`43_string.md` R339) -/

theorem State.stringStep_plain {s : State} (h : s.repeatWith = none) (i : Instr) (tests : Bool) (element : State → State) :
    s.stringStep i tests element = element s := by simp [State.stringStep, h]

theorem State.stringStep_done {s : State} {z : RepeatWith} (h : s.repeatWith = some z) (hc : s.gpr.cx = 0) (i : Instr)
    (tests : Bool) (element : State → State) : s.stringStep i tests element = { s with repeating := none } := by
  simp [State.stringStep, h, hc]

theorem State.stringStep_iteration {s : State} {z : RepeatWith} (h : s.repeatWith = some z) (hc : s.gpr.cx ≠ 0) (i : Instr)
    (tests : Bool) (element : State → State) :
    s.stringStep i tests element =
      { (element s).setReg16 .cx ((element s).gpr.cx - 1) with
        repeating := if z.ends tests ((element s).gpr.cx - 1) (element s).flags.ZF then none else some i } := by
  unfold State.stringStep
  rw [h]
  simp only [if_neg hc]

/-! ## Interrupts (`60_exceptions.md` R508 to R511) -/

/-- What the interrupt sequence leaves alone besides registers and memory. -/
theorem State.interrupt_rest (s : State) (t : Byte) :
    (s.interrupt t).halted = s.halted ∧ (s.interrupt t).waiting = s.waiting ∧ (s.interrupt t).window = s.window ∧
    (s.interrupt t).hasPrefix = s.hasPrefix ∧ (s.interrupt t).repeatWith = s.repeatWith ∧
    (s.interrupt t).repeating = s.repeating ∧ (s.interrupt t).nmiPending = s.nmiPending ∧
    (s.interrupt t).inputs = s.inputs ∧ (s.interrupt t).events = s.events ∧ (s.interrupt t).staleCode = [] :=
  ⟨rfl, rfl, rfl, rfl, rfl, rfl, rfl, rfl, rfl, rfl⟩

/-- Where an interrupt is recognised between instructions, it is the interrupt sequence at this very state. -/
theorem State.resumePoint_idle {s : State} (h : s.repeating = none) (hw : s.waiting = false) : s.resumePoint = s := by
  simp [State.resumePoint, h, hw]

theorem State.resumePoint_repeating {s : State} {i : Instr} (h : s.repeating = some i) :
    s.resumePoint = { s.clearPrefixes with ip := s.ip - 2, repeating := none } := by
  simp [State.resumePoint, h]

theorem State.resumePoint_waiting {s : State} (h : s.repeating = none) (hw : s.waiting = true) :
    s.resumePoint = { s.clearPrefixes with ip := s.ipStart, waiting := false } := by
  simp [State.resumePoint, h, hw]

theorem State.resumePoint_mem (s : State) : s.resumePoint.mem = s.mem := by
  unfold State.resumePoint
  split <;> [rfl; split <;> rfl]

/-- An interrupt that is taken ends the halt and any hold: whatever the state was, no repetition is due afterwards. -/
theorem State.enter_repeating (t : Byte) (s : State) : (s.enter t).repeating = none := by
  show s.resumePoint.repeating = none
  cases h : s.repeating with
  | none =>
    unfold State.resumePoint
    simp only [h, Option.isSome_none, Bool.false_eq_true, if_false]
    split <;> exact h
  | some i => rw [State.resumePoint_repeating h]

theorem State.enter_halted (t : Byte) (s : State) : (s.enter t).halted = false := rfl

theorem State.enter_mem (t : Byte) (s : State) : (s.enter t).mem = (s.resumePoint.interrupt t).mem := rfl

theorem State.wf_enter {s : State} (h : s.mem.wf) (t : Byte) : (s.enter t).mem.wf := by
  rw [State.enter_mem]
  exact State.wf_interrupt (by rw [State.resumePoint_mem]; exact h) t

/-- What `recognise` does, by the window. -/
theorem State.recognise_all {s : State} (h : s.window = .all) (tf : Bool) :
    s.recognise tf = { s with nmiPending := s.nmiPending || s.lines.nmiLate } := by
  simp [State.recognise, h]

theorem State.recognise_open {s : State} (h : s.window ≠ .all) (tf : Bool) :
    s.recognise tf = (s.recogniseExternal.recogniseSingleStep tf).recogniseLateNmi := by
  unfold State.recognise
  split
  · next hw => exact absurd hw h
  · rfl
  · rfl

/-- A property that every interrupt and every change of the remembered NMI keeps is kept by a recognition point. -/
theorem State.recognise_keeps {P : State → Prop} (hn : ∀ s b, P s → P { s with nmiPending := b })
    (he : ∀ s t, P s → P (s.enter t)) {s : State} (h : P s) (tf : Bool) : P (s.recognise tf) := by
  have hx : ∀ u, P u → P u.enterNmi := fun u hu => he _ _ (hn u false hu)
  have h1 : P s.recogniseExternal := by
    unfold State.recogniseExternal
    split
    · exact hx s h
    · split
      · exact he s _ h
      · exact h
  have h2 : P (s.recogniseExternal.recogniseSingleStep tf) := by
    unfold State.recogniseSingleStep
    split
    · exact he _ _ h1
    · exact h1
  by_cases hw : s.window = .all
  · rw [State.recognise_all hw]; exact hn s _ h
  · rw [State.recognise_open hw]
    unfold State.recogniseLateNmi
    split
    · exact hx _ h2
    · exact h2

theorem State.wf_recognise {s : State} (h : s.mem.wf) (tf : Bool) : (s.recognise tf).mem.wf :=
  State.recognise_keeps (P := fun u => u.mem.wf) (fun _ _ hu => hu) (fun _ t hu => State.wf_enter hu t) h tf

/-! ## The boundary and the step -/

/-- The boundary after a prefix byte, after an iteration that is not the last, while WAIT holds, and after an instruction that is
over. -/
theorem State.complete_prefix {i : Instr} (h : i.isPrefix = true) (w : Window) (tf : Bool) (s : State) :
    s.complete i w tf = { s with window := w, nmiPending := s.nmiPending || s.lines.nmiLate } := by
  simp [State.complete, h]

theorem State.complete_iteration {i : Instr} (h : i.isPrefix = false) {s : State} {j : Instr} (hs : s.repeating = some j)
    (w : Window) (tf : Bool) : s.complete i w tf = ({ s.setLock false with window := w }).recognise tf := by
  simp [State.complete, h, hs]

theorem State.complete_waiting {i : Instr} (h : i.isPrefix = false) {s : State} (hr : s.repeating = none) (hw : s.waiting = true)
    (w : Window) (tf : Bool) : s.complete i w tf = ({ s with window := w }).recognise false := by
  simp [State.complete, h, hr, hw]

theorem State.complete_over {i : Instr} (h : i.isPrefix = false) {s : State} (hr : s.repeating = none) (hw : s.waiting = false)
    (w : Window) (tf : Bool) : s.complete i w tf = s.clearPrefixes.recognise tf := by
  simp [State.complete, h, hr, hw]

/-- The instruction that is due: WAIT again, the next iteration, or the next instruction of the stream. -/
theorem State.due_ok {s : State} {i : Instr} {b : State} (h : s.due = .ok (i, b)) :
    (s.waiting = true ∧ i = .wait ∧ b = s.openWindow .closed) ∨
    (s.waiting = false ∧ s.repeating = some i ∧ b = s.openWindow .closed) ∨
    (∃ rest, s.waiting = false ∧ s.repeating = none ∧ decode s.fetch = .ok (i, rest) ∧
      s.staleBytes (maxInstrBytes - rest.length) = false ∧ s.repeatMeaningless i = false ∧
      b = s.begin (maxInstrBytes - rest.length)) := by
  unfold State.due at h
  split at h
  · next hw => cases h; exact .inl ⟨hw, rfl, rfl⟩
  · next hw =>
    have hw : s.waiting = false := by simpa using hw
    split at h
    · next j hj => cases h; exact .inr (.inl ⟨hw, hj, rfl⟩)
    · next hj =>
      split at h
      · cases h
      · next j rest hd =>
        split at h
        · cases h
        · next hst =>
          split at h
          · cases h
          · next hm => cases h; exact .inr (.inr ⟨rest, hw, hj, hd, by simpa using hst, by simpa using hm, rfl⟩)

/-- Everything `runDue` can do when it answers a next state. -/
theorem State.runDue_next {s t : State} {k : Option Instr → State → State} (h : s.runDue k = .next t) :
    (s.halted = true ∧ t = k none s) ∨
    (∃ i b u, s.halted = false ∧ s.due = .ok (i, b) ∧ exec i (b.assertLock i) = .next u ∧ t = k (some i) u) := by
  unfold State.runDue at h
  split at h
  · next hh => cases h; exact .inl ⟨hh, rfl⟩
  · next hh =>
    refine .inr ?_
    split at h
    · cases h
    · next i b hd =>
      obtain ⟨u, hu, ht⟩ := andThen_eq_next.mp h
      cases ht
      exact ⟨i, b, u, by simpa using hh, hd, hu, rfl⟩

/-- Everything a step can do when it answers a next state: a reset, at a moment of what it was doing; a look at the requests
while halted; or the instruction that is due and the boundary after it. -/
theorem step_next {s t : State} (h : step s = .next t) :
    (∃ m u, s.lines.reset = some m ∧ s.latchNmi.cutShort m = .next u ∧ t = u.resetLine.nextSample) ∨
    (s.lines.reset = none ∧ s.halted = true ∧ t = (s.latchNmi.recognise false).nextSample) ∨
    (∃ i b u, s.lines.reset = none ∧ s.halted = false ∧ s.latchNmi.due = .ok (i, b) ∧
      exec i (b.assertLock i) = .next u ∧ t = (u.complete i s.window s.flags.TF).nextSample) := by
  unfold step at h
  split at h
  · next m hm =>
    obtain ⟨u, hu, ht⟩ := andThen_eq_next.mp h
    cases ht
    exact .inl ⟨m, u, hm, hu, rfl⟩
  · next hm =>
    obtain ⟨u, hu, ht⟩ := andThen_eq_next.mp h
    cases ht
    rcases State.runDue_next hu with ⟨hh, rfl⟩ | ⟨i, b, v, hh, hd, he, rfl⟩
    · exact .inr (.inl ⟨hm, hh, rfl⟩)
    · exact .inr (.inr ⟨i, b, v, hm, hh, hd, he, rfl⟩)

/-- Where a reset cuts a step short, memory keeps its canonical form: it holds bytes of before and of after. -/
theorem State.wf_cut {s : State} (h : s.mem.wf) (t : State) (c : Cut) : (s.cut t c).mem.wf := by
  show (c.landed.foldl (fun m a => m.write a.toNat (t.byteAt a)) s.mem).wf
  generalize s.mem = m at h
  induction c.landed generalizing m with
  | nil => exact h
  | cons a l ih => exact ih _ (Memory.wf_write h _ a.isLt)

end Sys2Proof.Machine
end

