-- ==== Sys2Proof/Laws/Stored.lean ====
section
/-! SUPPORT. Writing a place stores the value there and nothing else, also after the flags or the draw counter were changed. -/

namespace Sys2Proof.Machine

/-- Two states with the same general registers, segment registers and memory: what an instruction computes from is the same. -/
structure SameData (s u : State) : Prop where
  gpr : u.gpr = s.gpr
  segs : u.segs = s.segs
  mem : u.mem = s.mem

theorem SameData.refl (s : State) : SameData s s := ⟨rfl, rfl, rfl⟩

theorem SameData.withFlags {s u : State} (h : SameData s u) (f : Flags) : SameData s (u.withFlags f) := ⟨h.1, h.2, h.3⟩

theorem SameData.nextDraw {s u : State} (h : SameData s u) : SameData s u.nextDraw := ⟨h.1, h.2, h.3⟩

theorem SameData.reg16 {s u : State} (h : SameData s u) (r : Reg16) : u.reg16 r = s.reg16 r := State.reg16_congr h.gpr r

theorem SameData.reg8 {s u : State} (h : SameData s u) (r : Reg8) : u.reg8 r = s.reg8 r := State.reg8_congr h.gpr r

theorem SameData.byteAt {s u : State} (h : SameData s u) (a : Addr) : u.byteAt a = s.byteAt a := State.byteAt_congr h.mem a

theorem SameData.get8 {s u : State} (h : SameData s u) (l : Loc Reg8) : u.get8 l = s.get8 l := by
  cases l with
  | reg r => exact h.reg8 r
  | mem seg off => exact State.read8_congr h.mem seg off

theorem SameData.get16 {s u : State} (h : SameData s u) (l : Loc Reg16) : u.get16 l = s.get16 l := by
  cases l with
  | reg r => exact h.reg16 r
  | mem seg off => exact State.read16_congr h.mem seg off

/-- Writing a byte place stores the byte there and nothing else. -/
theorem SameData.stored8 {s u : State} (h : SameData s u) (v : Byte) (l : Loc Reg8) : Stored8 s (u.put8 v l) l v where
  value := u.get8_put8 v l
  halves q hq := by
    cases l with
    | reg r =>
      have hne : q ≠ r := fun e => hq (e ▸ rfl)
      exact (State.reg8_setReg8 u r q v).trans ((if_neg hne).trans (h.reg8 q))
    | mem seg off => exact h.reg8 q
  regs r hr := (u.reg16_put8 v l hr).trans (h.reg16 r)
  memory a ha := (u.byteAt_put8 v l ha).trans (h.byteAt a)
  segs := by cases l <;> exact h.segs

/-- Writing a word place stores the word there and nothing else. -/
theorem SameData.stored16 {s u : State} (h : SameData s u) (v : Word) (l : Loc Reg16) : Stored16 s (u.put16 v l) l v where
  value := u.get16_put16 v l
  regs r hr := (u.reg16_put16 v l hr).trans (h.reg16 r)
  memory a ha := (u.byteAt_put16 v l ha).trans (h.byteAt a)
  segs := by cases l <;> exact h.segs

@[simp] theorem State.put8_flags (s : State) (v : Byte) (l : Loc Reg8) : (s.put8 v l).flags = s.flags := by cases l <;> rfl
@[simp] theorem State.put16_flags (s : State) (v : Word) (l : Loc Reg16) : (s.put16 v l).flags = s.flags := by cases l <;> rfl
@[simp] theorem State.put8_segs (s : State) (v : Byte) (l : Loc Reg8) : (s.put8 v l).segs = s.segs := by cases l <;> rfl
@[simp] theorem State.put16_segs (s : State) (v : Word) (l : Loc Reg16) : (s.put16 v l).segs = s.segs := by cases l <;> rfl
@[simp] theorem State.put8_ip (s : State) (v : Byte) (l : Loc Reg8) : (s.put8 v l).ip = s.ip := by cases l <;> rfl
@[simp] theorem State.put16_ip (s : State) (v : Word) (l : Loc Reg16) : (s.put16 v l).ip = s.ip := by cases l <;> rfl

/-- What `assign` leaves: the source in the destination (`40_data_transfer.md` R206). -/
theorem State.assign_moved (s : State) (o : Operands) : Moved s (s.assign o) o := by
  cases o with
  | byte d v => exact (SameData.refl s).stored8 v d
  | word d v => exact (SameData.refl s).stored16 v d

/-- What `combine` leaves: `op` of the old destination and the source in the destination, and the flags of `op`. -/
theorem SameData.combined {s u : State} (h : SameData s u)
    {op : {n : Nat} → BitVec n → BitVec n → Flags → BitVec n × Flags} {P : {n : Nat} → (a b r : BitVec n) → Prop}
    (o : Operands) (hP : ∀ {n : Nat} (a b : BitVec n), (u.combine op o).flags = (op a b u.flags).2 → P a b (op a b u.flags).1) :
    Combined s (u.combine op o) P o := by
  cases o with
  | byte d b =>
    refine ⟨_, (h.withFlags _).stored8 _ d, ?_⟩
    rw [h.get8]; exact hP _ _ (by simp [State.combine, h.get8])
  | word d b =>
    refine ⟨_, (h.withFlags _).stored16 _ d, ?_⟩
    rw [h.get16]; exact hP _ _ (by simp [State.combine, h.get16])

/-- What `modify` leaves: `op` of the old operand written back, and the flags of `op`. -/
theorem SameData.modified {s u : State} (h : SameData s u) {op : {n : Nat} → BitVec n → Flags → BitVec n × Flags}
    {P : {n : Nat} → (x r : BitVec n) → Prop} (d : Dest)
    (hP : ∀ {n : Nat} (x : BitVec n), 0 < n → (u.modify op d).flags = (op x u.flags).2 → P x (op x u.flags).1) :
    Updated s (u.modify op d) P d := by
  cases d with
  | byte d =>
    refine ⟨_, (h.withFlags _).stored8 _ d, ?_⟩
    rw [h.get8]; exact hP _ (by decide) (by simp [State.modify, h.get8])
  | word d =>
    refine ⟨_, (h.withFlags _).stored16 _ d, ?_⟩
    rw [h.get16]; exact hP _ (by decide) (by simp [State.modify, h.get16])

end Sys2Proof.Machine
end

