-- ==== Sys2Proof/Tests/Slice0.lean ====
section
/-! SUPPORT. Tests: ill-formed terms are refused, words written out from the spec's encodings decode to their instructions,
single steps give what `95_test_vectors.md` lists, and every statement's hypotheses are met somewhere. -/

namespace Sys2Proof.Tests

open Sys2Proof Sys2Proof.Machine

/-! ## WellFormed refuses -/

/-- `[BP]` without a displacement, which no ModRM byte selects (`30_encoding.md` R106). -/
def badMem : Mem := .based .bp .none

/-- One term for every check of `badMem` in `WellFormed`. -/
def illFormedOperands : List Instr :=
  [.lds .ax badMem, .lea .ax badMem, .les .ax badMem, .callFarIndirect badMem, .jmpFarIndirect badMem,
   .movReg (.rm8R8 (.mem badMem) .al), .movReg (.rm16R16 (.mem badMem) .ax), .movReg (.r8Rm8 .al (.mem badMem)),
   .movReg (.r16Rm16 .ax (.mem badMem)), .movFromSeg (.mem badMem) .ds, .movToSeg .ds (.mem badMem),
   .movImm (.rm8 (.mem badMem) 0), .movImm (.rm16 (.mem badMem) 0), .pop (.rm16 (.mem badMem)),
   .push (.rm16 (.mem badMem)), .xchg (.r8Rm8 .al (.mem badMem)), .xchg (.r16Rm16 .ax (.mem badMem)),
   .adc (.rm8R8 (.mem badMem) .al), .add (.rm16R16 (.mem badMem) .ax), .cmp (.r8Rm8 .al (.mem badMem)),
   .sbb (.r16Rm16 .ax (.mem badMem)), .sub (.rm8Imm8 (.mem badMem) 0), .and (.rm16Imm16 (.mem badMem) 0),
   .add (.rm8Imm8Alt (.mem badMem) 0), .add (.rm16Imm8 (.mem badMem) 0), .or (.rm8R8 (.mem badMem) .al),
   .xor (.rm8R8 (.mem badMem) .al), .inc (.rm8 (.mem badMem)), .dec (.rm16 (.mem badMem)), .not (.rm8 (.mem badMem)),
   .neg (.rm16 (.mem badMem)), .mul (.rm8 (.mem badMem)), .imul (.rm16 (.mem badMem)), .div (.rm8 (.mem badMem)),
   .idiv (.rm16 (.mem badMem)), .rol (.rm8 (.mem badMem) .one), .ror (.rm16 (.mem badMem) .cl),
   .rcl (.rm8 (.mem badMem) .cl), .rcr (.rm16 (.mem badMem) .one), .sal (.rm8 (.mem badMem) .one),
   .shr (.rm16 (.mem badMem) .one), .sar (.rm8 (.mem badMem) .cl), .test (.rm8R8 (.mem badMem) .al),
   .test (.rm16R16 (.mem badMem) .ax), .test (.rm8Imm8 (.mem badMem) 0), .test (.rm16Imm16 (.mem badMem) 0),
   .callNearIndirect (.mem badMem), .jmpNearIndirect (.mem badMem), .esc 0 (.mem badMem)]

theorem test_ill_formed_operands : (illFormedOperands.all fun i => !i.wellFormed) = true := by decide

/-- POP CS and MOV CS are listed nowhere (`40_data_transfer.md` R207, R211). -/
theorem test_ill_formed_cs :
    (Instr.pop (.seg .cs)).wellFormed = false ∧ (Instr.movToSeg .cs (.reg .ax)).wellFormed = false := by decide

/-- Opcodes 82 and 83 list no AND, OR or XOR (`30_encoding.md` R122, R124). -/
theorem test_ill_formed_logic :
    ((AluForm.rm8Imm8Alt (.reg .al) 0 :: [.rm16Imm8 (.reg .ax) 0]).all fun f =>
      !(Instr.and f).wellFormed && !(Instr.or f).wellFormed && !(Instr.xor f).wellFormed) = true := by decide

/-! ## Words written out from the spec's encodings (`30_encoding.md` R121, R122; the encoding lines of files 40 to 45) -/

/-- The bytes are exactly the instruction. -/
def reads (bytes : List Byte) (i : Instr) : Bool := decide (decode bytes = .ok (i, []))

theorem test_decode_mov :
    -- [10001 0dw] [MOD REG R/M]
    reads [0b10001000, 0b11_000_100] (.movReg (.rm8R8 (.reg .ah) .al)) ∧
    reads [0b10001001, 0b10_001_111, 0x00, 0x03] (.movReg (.rm16R16 (.mem (.based .bx (.d16 0x0300))) .cx)) ∧
    reads [0b10001010, 0b01_000_111, 0xFE] (.movReg (.r8Rm8 .al (.mem (.based .bx (.d8 0xFE))))) ∧
    reads [0b10001011, 0b00_010_110, 0x34, 0x12] (.movReg (.r16Rm16 .dx (.mem (.direct 0x1234)))) ∧
    -- [8C], [8E] [MOD 0SR R/M]
    reads [0b10001100, 0b11_011_000] (.movFromSeg (.reg .ax) .ds) ∧
    reads [0b10001110, 0b11_010_000] (.movToSeg .ss (.reg .ax)) ∧
    -- [A0] to [A3] [ADDR-LO] [ADDR-HI]
    reads [0b10100000, 0x10, 0x00] (.movLoad .byte 0x0010) ∧ reads [0b10100011, 0x10, 0x00] (.movStore .word 0x0010) ∧
    -- [1011 w reg], [C6], [C7] [MOD 000 R/M]
    reads [0b10110_100, 0xCD] (.movImm (.r8 .ah 0xCD)) ∧ reads [0b10111_100, 0x00, 0x20] (.movImm (.r16 .sp 0x2000)) ∧
    reads [0b11000110, 0b00_000_110, 0x34, 0x12, 0x7F] (.movImm (.rm8 (.mem (.direct 0x1234)) 0x7F)) ∧
    reads [0b11000111, 0b01_000_110, 0x02, 0x7F, 0xEE] (.movImm (.rm16 (.mem (.based .bp (.d8 0x02))) 0xEE7F)) := by
  decide

theorem test_decode_data_transfer :
    reads [0b11100100, 0x10] (.input .byte (.imm8 0x10)) ∧ reads [0b11101101] (.input .word .dx) ∧
    reads [0b11100111, 0x10] (.output .word (.imm8 0x10)) ∧ reads [0b11101110] (.output .byte .dx) ∧
    reads [0b10011111] .lahf ∧ reads [0b10011110] .sahf ∧ reads [0b10011100] .pushf ∧ reads [0b10011101] .popf ∧
    reads [0b11000101, 0b00_011_110, 0x00, 0x03] (.lds .bx (.direct 0x0300)) ∧
    reads [0b11000100, 0b00_111_110, 0x00, 0x03] (.les .di (.direct 0x0300)) ∧
    reads [0b10001101, 0b01_000_000, 0x07] (.lea .ax (.based .bxSi (.d8 0x07))) ∧
    reads [0b000_11_111] (.pop (.seg .ds)) ∧ reads [0b01011_100] (.pop (.r16 .sp)) ∧
    reads [0b10001111, 0b00_000_110, 0x00, 0x03] (.pop (.rm16 (.mem (.direct 0x0300)))) ∧
    reads [0b000_01_110] (.push (.seg .cs)) ∧ reads [0b01010_011] (.push (.r16 .bx)) ∧
    reads [0b11111111, 0b00_110_101] (.push (.rm16 (.mem (.based .di .none)))) ∧
    reads [0b10000110, 0b00_000_111] (.xchg (.r8Rm8 .al (.mem (.based .bx .none)))) ∧
    reads [0b10000111, 0b11_011_001] (.xchg (.r16Rm16 .bx (.reg .cx))) ∧ reads [0b10010_110] (.xchg (.axR16 .si)) ∧
    reads [0b11010111] .xlat := by decide

theorem test_decode_alu :
    -- [00 nnn 0dw] [MOD REG R/M], [00 nnn 10w] [DATA], [100000sw] [MOD nnn R/M] [DATA]
    reads [0b00_000_000, 0b11_011_000] (.add (.rm8R8 (.reg .al) .bl)) ∧
    reads [0b00_001_011, 0b00_000_100] (.or (.r16Rm16 .ax (.mem (.based .si .none)))) ∧
    reads [0b00_010_001, 0b01_001_000, 0x80] (.adc (.rm16R16 (.mem (.based .bxSi (.d8 0x80))) .cx)) ∧
    reads [0b00_011_010, 0b11_100_111] (.sbb (.r8Rm8 .ah (.reg .bh))) ∧
    reads [0b00_100_100, 0x0F] (.and (.alImm8 0x0F)) ∧ reads [0b00_101_101, 0x01, 0x02] (.sub (.axImm16 0x0201)) ∧
    reads [0b10000000, 0b11_110_011, 0x0F] (.xor (.rm8Imm8 (.reg .bl) 0x0F)) ∧
    reads [0b10000001, 0b11_111_011, 0x0F, 0x01] (.cmp (.rm16Imm16 (.reg .bx) 0x010F)) ∧
    reads [0b10000010, 0b11_000_011, 0xFF] (.add (.rm8Imm8Alt (.reg .bl) 0xFF)) ∧
    reads [0b10000011, 0b11_101_011, 0xFF] (.sub (.rm16Imm8 (.reg .bx) 0xFF)) := by decide

theorem test_decode_arithmetic :
    reads [0b00110111] .aaa ∧ reads [0b11010101, 0x0A] .aad ∧ reads [0b11010100, 0x0A] .aam ∧ reads [0b00111111] .aas ∧
    reads [0b10011000] .cbw ∧ reads [0b10011001] .cwd ∧ reads [0b00100111] .daa ∧ reads [0b00101111] .das ∧
    reads [0b01000_111] (.inc (.r16 .di)) ∧ reads [0b01001_001] (.dec (.r16 .cx)) ∧
    reads [0b11111110, 0b11_000_100] (.inc (.rm8 (.reg .ah))) ∧
    reads [0b11111111, 0b00_001_111] (.dec (.rm16 (.mem (.based .bx .none)))) ∧
    reads [0b11110111, 0b11_011_000] (.neg (.rm16 (.reg .ax))) ∧ reads [0b11110110, 0b11_100_011] (.mul (.rm8 (.reg .bl))) ∧
    reads [0b11110111, 0b11_101_011] (.imul (.rm16 (.reg .bx))) ∧ reads [0b11110110, 0b11_110_011] (.div (.rm8 (.reg .bl))) ∧
    reads [0b11110111, 0b00_111_100] (.idiv (.rm16 (.mem (.based .si .none)))) := by decide

theorem test_decode_logic :
    reads [0b11110110, 0b11_010_000] (.not (.rm8 (.reg .al))) ∧
    reads [0b10000100, 0b11_000_001] (.test (.rm8R8 (.reg .cl) .al)) ∧
    reads [0b10000101, 0b11_000_001] (.test (.rm16R16 (.reg .cx) .ax)) ∧
    reads [0b10101000, 0x80] (.test (.alImm8 0x80)) ∧ reads [0b10101001, 0x00, 0x80] (.test (.axImm16 0x8000)) ∧
    reads [0b11110110, 0b11_000_011, 0xFF] (.test (.rm8Imm8 (.reg .bl) 0xFF)) ∧
    reads [0b11110111, 0b11_000_000, 0x00, 0x80] (.test (.rm16Imm16 (.reg .ax) 0x8000)) ∧
    -- [110100vw] [MOD nnn R/M]
    reads [0b11010000, 0b11_000_000] (.rol (.rm8 (.reg .al) .one)) ∧
    reads [0b11010001, 0b11_001_000] (.ror (.rm16 (.reg .ax) .one)) ∧
    reads [0b11010010, 0b11_010_000] (.rcl (.rm8 (.reg .al) .cl)) ∧
    reads [0b11010011, 0b11_011_000] (.rcr (.rm16 (.reg .ax) .cl)) ∧
    reads [0b11010001, 0b00_100_110, 0x00, 0x03] (.sal (.rm16 (.mem (.direct 0x0300)) .one)) ∧
    reads [0b11010000, 0b11_101_000] (.shr (.rm8 (.reg .al) .one)) ∧
    reads [0b11010010, 0b11_111_000] (.sar (.rm8 (.reg .al) .cl)) := by decide

theorem test_decode_strings :
    reads [0b10100100] (.movs .byte) ∧ reads [0b10100101] (.movs .word) ∧ reads [0b10100110] (.cmps .byte) ∧
    reads [0b10100111] (.cmps .word) ∧ reads [0b10101010] (.stos .byte) ∧ reads [0b10101011] (.stos .word) ∧
    reads [0b10101100] (.lods .byte) ∧ reads [0b10101101] (.lods .word) ∧ reads [0b10101110] (.scas .byte) ∧
    reads [0b10101111] (.scas .word) ∧ reads [0b11110010] .repne ∧ reads [0b11110011] .repe := by decide

/-- `70` to `7F`, in the order of the opcodes (`44_control_transfer.md` R359 to R377). -/
theorem test_decode_conditional_jumps :
    reads [0x70, 0x10] (.jo 0x10) ∧ reads [0x71, 0x10] (.jno 0x10) ∧ reads [0x72, 0x10] (.jb 0x10) ∧
    reads [0x73, 0x10] (.jae 0x10) ∧ reads [0x74, 0x10] (.je 0x10) ∧ reads [0x75, 0x10] (.jne 0x10) ∧
    reads [0x76, 0x10] (.jbe 0x10) ∧ reads [0x77, 0x10] (.ja 0x10) ∧ reads [0x78, 0x10] (.js 0x10) ∧
    reads [0x79, 0x10] (.jns 0x10) ∧ reads [0x7A, 0x10] (.jp 0x10) ∧ reads [0x7B, 0x10] (.jnp 0x10) ∧
    reads [0x7C, 0x10] (.jl 0x10) ∧ reads [0x7D, 0x10] (.jge 0x10) ∧ reads [0x7E, 0x10] (.jle 0x10) ∧
    reads [0x7F, 0x10] (.jg 0x10) ∧ reads [0xE3, 0x10] (.jcxz 0x10) := by decide

theorem test_decode_control :
    reads [0b11101000, 0x05, 0x00] (.callNear 0x0005) ∧ reads [0b11111111, 0b11_010_011] (.callNearIndirect (.reg .bx)) ∧
    reads [0b10011010, 0x34, 0x12, 0x78, 0x56] (.callFar 0x1234 0x5678) ∧
    reads [0b11111111, 0b00_011_110, 0x00, 0x03] (.callFarIndirect (.direct 0x0300)) ∧
    reads [0b11001100] .int3 ∧ reads [0b11001101, 0x21] (.int 0x21) ∧ reads [0b11001110] .into ∧
    reads [0b11001111] .iret ∧ reads [0b11101001, 0xFD, 0x7F] (.jmpNear 0x7FFD) ∧
    reads [0b11101010, 0x00, 0x01, 0x00, 0x20] (.jmpFar 0x0100 0x2000) ∧ reads [0b11101011, 0xFE] (.jmpShort 0xFE) ∧
    reads [0b11111111, 0b11_100_011] (.jmpNearIndirect (.reg .bx)) ∧
    reads [0b11111111, 0b00_101_110, 0x00, 0x03] (.jmpFarIndirect (.direct 0x0300)) ∧
    reads [0b11100010, 0xFE] (.loop 0xFE) ∧ reads [0b11100001, 0x05] (.loope 0x05) ∧
    reads [0b11100000, 0x05] (.loopne 0x05) ∧ reads [0b11000011] .retNear ∧
    reads [0b11000010, 0x04, 0x00] (.retNearPop 0x0004) ∧ reads [0b11001011] .retFar ∧
    reads [0b11001010, 0x02, 0x00] (.retFarPop 0x0002) := by decide

theorem test_decode_processor_control :
    reads [0b11111000] .clc ∧ reads [0b11111100] .cld ∧ reads [0b11111010] .cli ∧ reads [0b11110101] .cmc ∧
    reads [0b11011_001, 0b00_000_110, 0x00, 0x02] (.esc 0b001_000 (.mem (.direct 0x0200))) ∧
    reads [0b11011_111, 0b11_111_111] (.esc 0b111_111 (.reg .di)) ∧ reads [0b11110100] .hlt ∧
    reads [0b11110000] .lock ∧ reads [0b10010000] .nop ∧ reads [0b11111001] .stc ∧ reads [0b11111101] .std ∧
    reads [0b11111011] .sti ∧ reads [0b10011011] .wait ∧ reads [0b001_00_110] .esOverride ∧
    reads [0b001_01_110] .csOverride ∧ reads [0b001_10_110] .ssOverride ∧ reads [0b001_11_110] .dsOverride := by decide

/-- The second names share the bytes of the first (`30_encoding.md` R128, R130). -/
theorem test_second_names :
    encode (.jc 0x10) = [0x72, 0x10] ∧ encode (.jnc 0x10) = [0x73, 0x10] ∧ encode .rep = [0xF3] ∧
    encode (.xchg (.axR16 .ax)) = [0x90] := by decide

/-- What `95_test_vectors.md`, part 2.1, lists as refused. -/
theorem test_refused :
    ([[0x0F], [0x60], [0xC8], [0x82, 0xC8, 0x00], [0x83, 0xE3, 0x0F], [0xD0, 0xF0], [0xF6, 0xC8], [0xFE, 0xD0],
      [0xFF, 0xF8], [0x8F, 0xC8], [0xC6, 0xC8, 0x00], [0x8C, 0xE0], [0x8E, 0xE8], [0x8E, 0xC8], [0x8D, 0xC0], [0xC5, 0xC0],
      [0xFF, 0xD8], [0xFF, 0xE8], [0xD4, 0x0B]].all fun b => (decode b).toOption.isNone) = true := by decide

/-! ## Single steps (`95_test_vectors.md`, part 2: bytes, start state and result as listed there) -/

def gp (ax bx cx dx si di bp : Word := 0) (sp : Word := 0x0100) : Gprs :=
  { ax := ax, bx := bx, cx := cx, dx := dx, si := si, di := di, bp := bp, sp := sp }

def fl (OF SF ZF AF PF CF DF IF TF : Bool := false) : Flags :=
  { OF := OF, SF := SF, ZF := ZF, AF := AF, PF := PF, CF := CF, DF := DF, IF := IF, TF := TF, undef := .none }

/-- The start state of the vectors: the code at 1000:0100, and some bytes at `seg:off`. -/
def machine (code : List Byte) (g : Gprs := gp) (f : Flags := Flags.cleared) (seg off : Word := 0) (data : List Byte := []) :
    State :=
  State.place 0x1000 0x0100 code
    (State.place seg off data
      { State.reset with
        gpr := g, flags := f, ip := 0x0100, segs := { cs := 0x1000, ds := 0x2000, es := 0x2000, ss := 0x3000 } })

/-- One step from `s` leaves a state with the property. -/
def gives (s : State) (p : State → Bool) : Bool :=
  match step s with
  | .next t => p t
  | .fault _ => false
  | .refused _ => false

/-- What a comparison of the six arithmetic flags needs: O S Z A P C. -/
def osazpc (s : State) : List Bool := [s.flags.OF, s.flags.SF, s.flags.ZF, s.flags.AF, s.flags.PF, s.flags.CF]

theorem test_mov_byte_load :
    gives (machine [0x8A, 0x47, 0xFE] (gp (bx := 0x0010)) (seg := 0x2000) (off := 0x000E) (data := [0x77])) (fun t =>
      t.gpr.ax == 0x0077 && t.ip == 0x0103) = true := by decide

theorem test_mov_bp_uses_ss :
    gives (machine [0x8B, 0x02] (gp (bp := 0x0100) (si := 5)) (seg := 0x3000) (off := 0x0105) (data := [0xCD, 0xAB])) (fun t =>
      t.gpr.ax == 0xABCD) = true := by decide

theorem test_mov_word_store :
    gives (machine [0x89, 0x07] (gp (bx := 0x0021) (ax := 0xBEEF))) (fun t =>
      t.byteAt 0x20021 == 0xEF && t.byteAt 0x20022 == 0xBE && t.ip == 0x0102) = true := by decide

theorem test_mov_offset_wraps :
    gives (machine [0x89, 0x07] (gp (bx := 0xFFFF) (ax := 0xBEEF))) (fun t =>
      t.byteAt 0x2FFFF == 0xEF && t.byteAt 0x20000 == 0xBE) = true := by decide

theorem test_mov_to_segment :
    gives (machine [0x8E, 0xD8] (gp (ax := 0x1234))) (fun t => t.segs.ds == 0x1234 && t.segs.es == 0x2000) = true := by
  decide

theorem test_lds :
    gives (machine [0xC5, 0x1E, 0x00, 0x03] (seg := 0x2000) (off := 0x0300) (data := [0x34, 0x12, 0x78, 0x56])) (fun t =>
      t.gpr.bx == 0x1234 && t.segs.ds == 0x5678) = true := by decide

theorem test_les :
    gives (machine [0xC4, 0x3E, 0x00, 0x03] (seg := 0x2000) (off := 0x0300) (data := [0x34, 0x12, 0x78, 0x56])) (fun t =>
      t.gpr.di == 0x1234 && t.segs.es == 0x5678 && t.segs.ds == 0x2000) = true := by decide

theorem test_lea :
    gives (machine [0x8D, 0x40, 0x07] (gp (bx := 0xFFFE) (si := 3))) (fun t => t.gpr.ax == 0x0008) = true := by decide

theorem test_push_sp :
    gives (machine [0x54]) (fun t => t.gpr.sp == 0x00FE && t.byteAt 0x300FE == 0xFE && t.byteAt 0x300FF == 0x00) = true := by
  decide

theorem test_push_wraps :
    gives (machine [0x50] (gp (sp := 0) (ax := 0xA1B2))) (fun t =>
      t.gpr.sp == 0xFFFE && t.byteAt 0x3FFFE == 0xB2 && t.byteAt 0x3FFFF == 0xA1) = true := by decide

theorem test_pop_sp :
    gives (machine [0x5C] (seg := 0x3000) (off := 0x0100) (data := [0x00, 0x30])) (fun t => t.gpr.sp == 0x3000) = true := by
  decide

theorem test_pop_memory :
    gives (machine [0x8F, 0x06, 0x00, 0x03] (seg := 0x3000) (off := 0x0100) (data := [0xAA, 0x55])) (fun t =>
      t.gpr.sp == 0x0102 && t.byteAt 0x20300 == 0xAA && t.byteAt 0x20301 == 0x55) = true := by decide

theorem test_xchg :
    gives (machine [0x86, 0x07] (gp (bx := 0x0010) (ax := 0x1122)) (seg := 0x2000) (off := 0x0010) (data := [0x77])) (fun t =>
      t.gpr.ax == 0x1177 && t.byteAt 0x20010 == 0x22) = true := by decide

theorem test_xlat :
    gives (machine [0xD7] (gp (bx := 0xFF80) (ax := 0x00FF)) (seg := 0x2000) (off := 0x007F) (data := [0x99])) (fun t =>
      t.gpr.ax == 0x0099) = true := by decide

theorem test_sahf :
    gives (machine [0x9E] (gp (ax := 0x2A00)) (fl (OF := true) (SF := true) (ZF := true) (AF := true) (PF := true) (CF := true)))
      (fun t => t.flags == fl (OF := true)) = true := by decide

theorem test_popf :
    gives (machine [0x9D] (seg := 0x3000) (off := 0x0100) (data := [0xD5, 0x0A])) (fun t =>
      t.flags == fl (OF := true) (IF := true) (SF := true) (ZF := true) (AF := true) (PF := true) (CF := true)) = true := by
  decide

theorem test_out_word :
    gives (machine [0xEF] (gp (ax := 0x1234) (dx := 0xFFFF))) (fun t =>
      t.events == [.portWrite16 0xFFFF 0x1234]) = true := by decide

theorem test_add_flags :
    gives (machine [0x00, 0xD8] (gp (ax := 0x7F) (bx := 1))) (fun t =>
      t.gpr.ax == 0x80 && osazpc t == [true, true, false, true, false, false]) = true := by decide

theorem test_add_sign_extends :
    gives (machine [0x83, 0xC3, 0x80] (gp (bx := 0x0100))) (fun t =>
      t.gpr.bx == 0x0080 && osazpc t == [false, false, false, false, false, true]) = true := by decide

theorem test_adc :
    gives (machine [0x11, 0xD8] (gp (ax := 0xFFFF) (bx := 0xFFFF)) (fl (CF := true))) (fun t =>
      t.gpr.ax == 0xFFFF && osazpc t == [false, true, false, true, true, true]) = true := by decide

theorem test_sub :
    gives (machine [0x29, 0xD8] (gp (ax := 0x8000) (bx := 1))) (fun t =>
      t.gpr.ax == 0x7FFF && osazpc t == [true, false, false, true, true, false]) = true := by decide

theorem test_sbb :
    gives (machine [0x18, 0xD8] (gp (ax := 0) (bx := 0xFF)) (fl (CF := true))) (fun t =>
      t.gpr.ax == 0 && osazpc t == [false, false, true, true, true, true]) = true := by decide

theorem test_cmp :
    gives (machine [0x3C, 0x80] (gp (ax := 0x7F))) (fun t =>
      t.gpr.ax == 0x7F && osazpc t == [true, true, false, false, true, true]) = true := by decide

theorem test_inc_keeps_cf :
    gives (machine [0x40] (gp (ax := 0xFFFF)) (fl (CF := true))) (fun t =>
      t.gpr.ax == 0 && osazpc t == [false, false, true, true, true, true]) = true := by decide

theorem test_dec :
    gives (machine [0xFE, 0xC8] (gp (ax := 0x0100))) (fun t =>
      t.gpr.ax == 0x01FF && osazpc t == [false, true, false, true, true, false]) = true := by decide

theorem test_neg :
    gives (machine [0xF6, 0xD8] (gp (ax := 0x80))) (fun t =>
      t.gpr.ax == 0x80 && osazpc t == [true, true, false, false, false, true]) = true := by decide

theorem test_mul :
    gives (machine [0xF7, 0xE3] (gp (ax := 0xFFFF) (bx := 0xFFFF) (dx := 0x1111))) (fun t =>
      t.gpr.dx == 0xFFFE && t.gpr.ax == 0x0001 && t.flags.CF && t.flags.OF) = true := by decide

theorem test_imul :
    gives (machine [0xF6, 0xEB] (gp (ax := 0xC0) (bx := 2))) (fun t =>
      t.gpr.ax == 0xFF80 && !t.flags.CF && !t.flags.OF) = true := by decide

theorem test_div :
    gives (machine [0xF7, 0xF3] (gp (ax := 0x5678) (bx := 0xFFFF) (dx := 0x1234))) (fun t =>
      t.gpr.ax == 0x1234 && t.gpr.dx == 0x68AC) = true := by decide

theorem test_idiv :
    gives (machine [0xF6, 0xFB] (gp (ax := 0xFFF9) (bx := 0xFE))) (fun t => t.gpr.ax == 0xFF03) = true := by decide

theorem test_div_error_takes_the_interrupt :
    gives (machine [0xF6, 0xF3] (gp (ax := 0x0100) (bx := 1)) (fl (IF := true))) (fun t =>
      t.gpr.sp == 0x00FA && !t.flags.IF && !t.flags.TF) = true := by decide

theorem test_cbw : gives (machine [0x98] (gp (ax := 0x0080))) (fun t => t.gpr.ax == 0xFF80) = true := by decide

theorem test_cwd : gives (machine [0x99] (gp (ax := 0x8000) (dx := 0x1234))) (fun t => t.gpr.dx == 0xFFFF) = true := by decide

theorem test_aaa :
    gives (machine [0x37] (gp (ax := 0x00FF))) (fun t => t.gpr.ax == 0x0105 && t.flags.AF && t.flags.CF) = true := by decide

theorem test_aas :
    gives (machine [0x3F] (gp (ax := 0)) (fl (AF := true))) (fun t => t.gpr.ax == 0xFF0A && t.flags.CF) = true := by decide

theorem test_aad :
    gives (machine [0xD5, 0x0A] (gp (ax := 0xFFFF))) (fun t => t.gpr.ax == 0x00F5 && t.flags.SF && t.flags.PF) = true := by
  decide

theorem test_aam :
    gives (machine [0xD4, 0x0A] (gp (ax := 0x00FF))) (fun t => t.gpr.ax == 0x1905 && t.flags.PF && !t.flags.ZF) = true := by
  decide

theorem test_daa :
    gives (machine [0x27] (gp (ax := 0xFF))) (fun t =>
      t.gpr.ax == 0x65 && t.flags.CF && t.flags.AF && t.flags.PF) = true := by decide

theorem test_das :
    gives (machine [0x2F] (gp (ax := 0xD1)) (fl (CF := true))) (fun t =>
      t.gpr.ax == 0x71 && t.flags.CF && !t.flags.AF && t.flags.PF) = true := by decide

theorem test_and :
    gives (machine [0x25, 0xF0, 0xF0] (gp (ax := 0xFFFF)) (fl (OF := true) (CF := true))) (fun t =>
      t.gpr.ax == 0xF0F0 && !t.flags.OF && !t.flags.CF && t.flags.SF && !t.flags.ZF && t.flags.PF) = true := by decide

theorem test_or :
    gives (machine [0x08, 0xD8] (gp (ax := 0x80) (bx := 1))) (fun t => t.gpr.ax == 0x81 && t.flags.SF && t.flags.PF) = true := by
  decide

theorem test_xor :
    gives (machine [0x30, 0xC0] (gp (ax := 0x12FF)) (fl (CF := true))) (fun t =>
      t.gpr.ax == 0x1200 && t.flags.ZF && !t.flags.CF) = true := by decide

theorem test_test :
    gives (machine [0xF7, 0xC0, 0x00, 0x80] (gp (ax := 0x8000))) (fun t =>
      t.gpr.ax == 0x8000 && t.flags.SF && !t.flags.ZF && t.flags.PF) = true := by decide

theorem test_not :
    gives (machine [0xF7, 0x16, 0x00, 0x03] (seg := 0x2000) (off := 0x0300) (data := [0x0F, 0xF0])) (fun t =>
      t.byteAt 0x20300 == 0xF0 && t.byteAt 0x20301 == 0x0F) = true := by decide

theorem test_rotates :
    gives (machine [0xD0, 0xC0] (gp (ax := 0x81))) (fun t => t.gpr.ax == 0x03 && t.flags.CF && t.flags.OF) ∧
    gives (machine [0xD2, 0xC8] (gp (ax := 0x81) (cx := 9))) (fun t => t.gpr.ax == 0xC0 && t.flags.CF) ∧
    gives (machine [0xD3, 0xD0] (gp (ax := 0x8001) (cx := 0x10))) (fun t => t.gpr.ax == 0x4000 && t.flags.CF) ∧
    gives (machine [0xD0, 0xD8] (gp (ax := 0x81)) (fl (CF := true))) (fun t =>
      t.gpr.ax == 0xC0 && t.flags.CF && !t.flags.OF) := by decide

theorem test_shifts :
    gives (machine [0xD0, 0xE0] (gp (ax := 0x40))) (fun t =>
      t.gpr.ax == 0x80 && !t.flags.CF && t.flags.OF && t.flags.SF && !t.flags.PF) ∧
    gives (machine [0xD3, 0xE8] (gp (ax := 0x8001) (cx := 0x10))) (fun t => t.gpr.ax == 0 && t.flags.CF && t.flags.ZF) ∧
    gives (machine [0xD2, 0xF8] (gp (ax := 0x81) (cx := 4))) (fun t => t.gpr.ax == 0xF8 && !t.flags.CF) := by decide

/-- A count of 0 changes no flag (`42_logic_shift.md` R290, decision D23). -/
theorem test_shift_by_zero :
    gives (machine [0xD2, 0xE0] (gp (ax := 0x81)) (fl (OF := true) (CF := true))) (fun t =>
      t.gpr.ax == 0x81 && t.flags == fl (OF := true) (CF := true)) = true := by decide

theorem test_movs :
    gives (machine [0xA5] (gp (si := 0x10) (di := 0x20)) (fl (DF := true)) 0x2000 0x10 [0xCD, 0xAB]) (fun t =>
      t.byteAt 0x20020 == 0xCD && t.byteAt 0x20021 == 0xAB && t.gpr.si == 0x0E && t.gpr.di == 0x1E) = true := by decide

theorem test_cmps :
    gives (machine [0xA6] (gp (si := 0x10) (di := 0x11)) (seg := 0x2000) (off := 0x10) (data := [0x05, 0x07])) (fun t =>
      t.gpr.si == 0x11 && t.gpr.di == 0x12 && osazpc t == [false, true, false, true, false, true]) = true := by decide

theorem test_scas :
    gives (machine [0xAE] (gp (ax := 5) (di := 0x20)) (seg := 0x2000) (off := 0x20) (data := [0x05])) (fun t =>
      t.flags.ZF && t.gpr.di == 0x21) = true := by decide

theorem test_lods :
    gives (machine [0xAC] (gp (ax := 0x1200) (si := 0x10)) (seg := 0x2000) (off := 0x10) (data := [0x7F])) (fun t =>
      t.gpr.ax == 0x127F && t.gpr.si == 0x11) = true := by decide

theorem test_stos :
    gives (machine [0xAA] (gp (ax := 0x1234) (di := 0x20))) (fun t => t.byteAt 0x20020 == 0x34 && t.gpr.di == 0x21) = true := by
  decide

/-- The state after the prefix F3 runs one iteration a step and counts CX down (`43_string.md` R339). -/
theorem test_rep_iteration :
    gives { machine [0xA4] (gp (cx := 5) (si := 0x10) (di := 0x20)) with repeatWith := some .f3 } (fun t =>
      t.gpr.cx == 4 && t.gpr.si == 0x11 && t.repeating == some (.movs .byte)) = true := by decide

theorem test_prefix_is_latched :
    gives (machine [0x26, 0x8B, 0x07]) (fun t => t.segOverride == some .es && t.ip == 0x0101 && t.ipStart == 0x0100) ∧
    gives (machine [0xF2]) (fun t => t.repeatWith == some .f2) ∧
    gives (machine [0xF0]) (fun t => t.lockPrefix) := by decide

theorem test_repne_movs_refused :
    step { machine [0xA4] with repeatWith := some .f2 } = .refused .meaninglessRepeat := rfl

theorem test_calls :
    gives (machine [0xE8, 0xFB, 0xFF]) (fun t =>
      t.ip == 0x00FE && t.gpr.sp == 0x00FE && t.byteAt 0x300FE == 0x03 && t.byteAt 0x300FF == 0x01) ∧
    gives (machine [0x9A, 0x34, 0x12, 0x78, 0x56]) (fun t =>
      t.ip == 0x1234 && t.segs.cs == 0x5678 && t.byteAt 0x300FC == 0x05 && t.byteAt 0x300FF == 0x10) := by decide

theorem test_rets :
    gives (machine [0xC2, 0xFF, 0xFF] (seg := 0x3000) (off := 0x0100) (data := [0x03, 0x02])) (fun t =>
      t.ip == 0x0203 && t.gpr.sp == 0x0101) ∧
    gives (machine [0xCA, 0x02, 0x00] (seg := 0x3000) (off := 0x0100) (data := [0x03, 0x02, 0x00, 0x50])) (fun t =>
      t.ip == 0x0203 && t.segs.cs == 0x5000 && t.gpr.sp == 0x0106) := by decide

theorem test_jumps :
    gives (machine [0xEB, 0x80]) (fun t => t.ip == 0x0082) ∧ gives (machine [0xE9, 0xFD, 0x7F]) (fun t => t.ip == 0x8100) ∧
    gives (machine [0x7C, 0x10] gp (fl (SF := true))) (fun t => t.ip == 0x0112) ∧
    gives (machine [0x7E, 0x10] gp (fl (SF := true) (OF := true))) (fun t => t.ip == 0x0102) ∧
    gives (machine [0x76, 0x10] gp (fl (CF := true))) (fun t => t.ip == 0x0112) := by decide

theorem test_loops :
    gives (machine [0xE2, 0xFE] (gp (cx := 0))) (fun t => t.gpr.cx == 0xFFFF && t.ip == 0x0100) ∧
    gives (machine [0xE1, 0x05] (gp (cx := 2))) (fun t => t.gpr.cx == 1 && t.ip == 0x0102) ∧
    gives (machine [0xE0, 0x05] (gp (cx := 2))) (fun t => t.gpr.cx == 1 && t.ip == 0x0107) ∧
    gives (machine [0xE3, 0x05] (gp (cx := 0))) (fun t => t.gpr.cx == 0 && t.ip == 0x0107) := by decide

theorem test_iret :
    gives (machine [0xCF] (seg := 0x3000) (off := 0x0100) (data := [0x02, 0x01, 0x00, 0x10, 0xD7, 0x0E])) (fun t =>
      t.ip == 0x0102 && t.segs.cs == 0x1000 && t.gpr.sp == 0x0106 &&
        t.flags == fl (OF := true) (DF := true) (IF := true) (SF := true) (ZF := true) (AF := true) (PF := true) (CF := true)) =
      true := by decide

/-- `CD 21` with the vector of type 21h at 0000:0084. -/
theorem test_int :
    (State.interrupt (machine [] gp (fl (IF := true) (CF := true))) 0x21).flags = fl (CF := true) ∧
    (State.interrupt (machine [] gp (fl (IF := true))) 0x21).gpr.sp = 0x00FA ∧ vectorOffset 0x21 = 0x0084 := by decide

theorem test_into_not_taken : gives (machine [0xCE]) (fun t => t.ip == 0x0101 && t.gpr.sp == 0x0100) = true := by decide

theorem test_flag_instructions :
    gives (machine [0xF5] gp (fl (CF := true))) (fun t => t.flags == fl) ∧
    gives (machine [0xFA] gp (fl (DF := true) (IF := true))) (fun t => t.flags == fl (DF := true)) ∧
    gives (machine [0xFD]) (fun t => t.flags == fl (DF := true)) := by decide

theorem test_sti_opens_the_window :
    gives { machine [0xFB] with inputs := [{ Lines.quiet with intr := some 8 }] } (fun t =>
      t.flags.IF && t.window == .intr && t.ip == 0x0101) = true := by decide

theorem test_hlt_and_wait :
    gives (machine [0xF4]) (fun t => t.halted && t.ip == 0x0101) ∧
    gives { machine [0x9B] with inputs := [{ Lines.quiet with test := false }] } (fun t => t.waiting && t.ip == 0x0101) ∧
    gives (machine [0x9B]) (fun t => !t.waiting && t.ip == 0x0101) := by decide

theorem test_esc :
    gives (machine [0xD9, 0x06, 0x00, 0x02] (seg := 0x2000) (off := 0x0200) (data := [0x12, 0x34])) (fun t =>
      t.events == [.escape 0b001000 (some (0x2000, 0x0200, 0x3412))]) = true := by decide

/-- After MOV SS no NMI is taken before the next instruction (`60_exceptions.md` R511; part 2.10, scenario 4). -/
theorem test_mov_ss_holds_nmi_off :
    gives { machine [0x8E, 0xD0] with nmiPending := true } (fun t =>
      t.nmiPending && t.window == .all && t.ip == 0x0102) = true := by decide

/-- The next byte of the instruction stream may already be fetched, on either processor (`20_memory.md` R79). -/
theorem test_next_byte_is_prefetched (s : State) : s.prefetched (phys s.segs.cs s.ip) = true := by
  have h : decide (0 < Config.prefetchBytes) = true := by
    unfold Config.prefetchBytes; cases Config.cpu <;> rfl
  simp only [State.prefetched, List.any_eq_true]
  exact ⟨0, by decide, by simp [h]⟩

/-- A state whose data segment is its code segment, about to run the byte at 1000:0100. -/
def selfModifying : State := { machine [0x90] with segs := { cs := 0x1000, ds := 0x1000, es := 0x1000, ss := 0x1000 } }

/-- Patching the next byte is remembered, and its fetch is refused (`20_memory.md` R79, decision D14). -/
theorem test_store_into_prefetch :
    (∃ t, exec (.movStore .byte 0x0100) selfModifying = .next t ∧ phys 0x1000 0x0100 ∈ t.staleCode) ∧
    step { selfModifying with staleCode := [phys 0x1000 0x0100] } = .refused .storeIntoPrefetch :=
  ⟨⟨_, rfl, by
      rw [State.store8_staleCode, State.mem_noted]
      exact .inl ⟨List.mem_singleton.mpr (by decide), test_next_byte_is_prefetched selfModifying⟩⟩, rfl⟩

/-- A taken jump in between makes the patched bytes good (`70_reset_and_hazards.md` R563). -/
theorem test_jump_empties_the_queue :
    gives { machine [0xEB, 0x10] with staleCode := [phys 0x1000 0x0112] } (fun t =>
      t.ip == 0x0112 && t.staleCode == []) = true := by decide

/-- XCHG with memory asserts LOCK by itself (`20_memory.md` R78), and a LOCK prefix asserts it while its instruction runs
(`45_processor_control.md` R426), so for each iteration of a repetition. -/
theorem test_lock_output :
    gives (machine [0x86, 0x07] (gp (bx := 0x10))) (fun t => t.events == [.lock false, .lock true]) ∧
    gives (machine [0x86, 0xC4]) (fun t => t.events == []) ∧
    gives { machine [0x86, 0x07] (gp (bx := 0x10)) with lockPrefix := true } (fun t =>
      t.events == [.lock false, .lock true] && !t.lockPrefix) ∧
    gives { machine [0xAA] (gp (cx := 2) (di := 0x20)) with lockPrefix := true, repeatWith := some .f3 } (fun t =>
      t.events == [.lock false, .lock true] && t.lockPrefix && t.repeating == some (.stos .byte)) := by decide

/-- After AAD, CF is `undef`, so ADC leaves every flag `undef` (`41_arithmetic.md` R242, R245), and CMP defines them again. -/
theorem test_undef_carry :
    gives (machine [0xD5, 0x0A]) (fun t => t.flags.undef == { UndefFlags.none with OF := true, AF := true, CF := true }) ∧
    gives (machine [0x15, 0x00, 0x00] gp { fl with undef := { UndefFlags.none with CF := true } }) (fun t =>
      t.flags.undef == .all) ∧
    gives (machine [0x3C, 0x80] gp { fl with undef := .all }) (fun t => t.flags.undef == .none) := by decide

/-- RESET in the middle of a word store: one byte of it has landed (`70_reset_and_hazards.md` R560). -/
theorem test_reset_cuts_a_store :
    gives { machine [0x89, 0x07] (gp (bx := 0x21) (ax := 0xBEEF)) with
        inputs := [{ Lines.quiet with reset := some (.inInstruction { landed := [phys 0x2000 0x22], seen := 0 }) }] }
      (fun t => t.byteAt 0x20021 == 0x00 && t.byteAt 0x20022 == 0xBE && t.segs.cs == 0xFFFF) = true := by decide

/-! ## Witnesses: each statement's hypotheses hold together somewhere -/

/-- Data, stack and code apart from each other. -/
def demo : State :=
  machine [0x90] (gp (ax := 0x0064) (bx := 0x0010) (cx := 0x0003) (dx := 0x0001) (si := 0x0030) (di := 0x0040) (bp := 0x0050))

/-- The byte operand in memory of the witnesses. -/
def m8 : RM Reg8 := .mem (.based .bx (.d8 0x80))

/-- The word operand in memory of the witnesses. -/
def m16 : RM Reg16 := .mem (.based .bpDi (.d16 0xFFF0))

/-- RESET before, inside and after an instruction that can run. -/
theorem witness_reset_line :
    ({ demo with inputs := [{ Lines.quiet with reset := some .before }] } : State).lines.reset = some .before ∧
    (let c : Cut := { landed := [], seen := 0 };
      let s : State := { demo with inputs := [{ Lines.quiet with reset := some (.inInstruction c) }] };
      s.lines.reset = some (.inInstruction c) ∧ ∃ u, s.latchNmi.runDue (fun _ t => t) = .next u) ∧
    (let c : Cut := { landed := [0], seen := 1 };
      let s : State := { demo with inputs := [{ Lines.quiet with reset := some (.inBoundary c) }] };
      s.lines.reset = some (.inBoundary c) ∧ (∃ u, s.latchNmi.runDue (fun _ t => t) = .next u) ∧
        ∃ v, s.latchNmi.advance = .next v) :=
  ⟨rfl, ⟨rfl, _, rfl⟩, ⟨rfl, ⟨_, rfl⟩, _, rfl⟩⟩

theorem witness_canonical_memory : Memory.wf [(5, 1), (7, 2)] ∧ ∀ a, Memory.read [(5, 1), (7, 2)] a = Memory.read [(5, 1), (7, 2)] a :=
  ⟨by decide, fun _ => rfl⟩

theorem witness_memory_operand_addresses :
    ({ demo with segOverride := some .es } : State).segOverride = some .es ∧ demo.segOverride = none := ⟨rfl, rfl⟩

theorem witness_flag_width : 0 < 8 ∧ 0 < 16 := by decide

theorem witness_pop_segment : SegReg.ds ≠ .cs ∧ SegReg.ss ≠ .cs := by decide

theorem witness_stack : SegReg.ss ≠ .cs ∧ Reg16.ax ≠ .sp := by decide

theorem witness_ports :
    ((Port.imm8 0xFF = .dx → (0x00FF : Word) = demo.gpr.dx) ∧ ∀ b, Port.imm8 0xFF = .imm8 b → (0x00FF : Word).toNat = b.toNat) ∧
    ((Port.dx = .dx → (1 : Word) = demo.gpr.dx) ∧ ∀ b, Port.dx = .imm8 b → (1 : Word).toNat = b.toNat) := by
  refine ⟨⟨fun h => (by cases h), fun b h => ?_⟩, ⟨fun _ => (by decide), fun b h => (by cases h)⟩⟩
  cases h; decide

/-- CF, AF, OF and ZF defined, and each of them `undef`. -/
theorem witness_undef_flags :
    (demo.flags.undef.CF = false ∧ demo.flags.undef.AF = false ∧ demo.flags.undef.OF = false ∧ demo.flags.undef.ZF = false) ∧
    (let s : State := machine [] gp { fl with undef := .all };
      s.flags.undef.CF = true ∧ s.flags.undef.AF = true ∧ s.flags.undef.OF = true ∧ s.flags.undef.ZF = true) ∧
    ((∀ f ∈ [FlagName.CF, .ZF], demo.flags.isUndef f = false) ∧
      ∃ f ∈ [FlagName.CF, .ZF], (machine [] gp { fl with undef := { UndefFlags.none with CF := true } }).flags.isUndef f = true) := by
  decide

/-- The largest and the smallest quotients that raise no divide error. -/
theorem witness_divisions_that_fit :
    (let s := machine [] (gp (ax := 0xFEFF) (bx := 0xFF));
      (s.get8 (s.locate (.reg .bl))).toNat ≠ 0 ∧ s.gpr.ax.toNat / (s.get8 (s.locate (.reg .bl))).toNat = 255) ∧
    (let s := machine [] (gp (dx := 0xFFFE) (ax := 0xFFFF) (bx := 0xFFFF));
      (s.get16 (s.locate (.reg .bx))).toNat ≠ 0 ∧ s.dxAx.toNat / (s.get16 (s.locate (.reg .bx))).toNat = 65535) ∧
    (let s := machine [] (gp (ax := 0xFF81) (bx := 1));
      (s.get8 (s.locate (.reg .bl))).toInt ≠ 0 ∧ s.gpr.ax.toInt.tdiv (s.get8 (s.locate (.reg .bl))).toInt = -127) ∧
    (let s := machine [] (gp (ax := 0x007F) (bx := 1));
      (s.get8 (s.locate (.reg .bl))).toInt ≠ 0 ∧ s.gpr.ax.toInt.tdiv (s.get8 (s.locate (.reg .bl))).toInt = 127) ∧
    (let s := machine [] (gp (dx := 0xFFFF) (ax := 0x8001) (bx := 1));
      (s.get16 (s.locate (.reg .bx))).toInt ≠ 0 ∧ s.dxAx.toInt.tdiv (s.get16 (s.locate (.reg .bx))).toInt = -32767) ∧
    (let s := machine [] (gp (ax := 0x7FFF) (bx := 1));
      (s.get16 (s.locate (.reg .bx))).toInt ≠ 0 ∧ s.dxAx.toInt.tdiv (s.get16 (s.locate (.reg .bx))).toInt = 32767) := by decide

/-- The quotients next to those, and a divisor of 0. -/
theorem witness_divide_errors :
    (let s := machine [] (gp (ax := 0x0100) (bx := 1)); 255 < s.gpr.ax.toNat / (s.get8 (s.locate (.reg .bl))).toNat) ∧
    (let s := machine [] (gp (dx := 1) (bx := 1)); 65535 < s.dxAx.toNat / (s.get16 (s.locate (.reg .bx))).toNat) ∧
    (let s := machine []; (s.get8 (s.locate (.reg .bl))).toInt = 0 ∧ (s.get16 (s.locate (.reg .bx))).toNat = 0) ∧
    (let s := machine [] (gp (ax := 0x0080) (bx := 1)); 127 < s.gpr.ax.toInt.tdiv (s.get8 (s.locate (.reg .bl))).toInt) ∧
    (let s := machine [] (gp (ax := 0xFF7F) (bx := 1)); s.gpr.ax.toInt.tdiv (s.get8 (s.locate (.reg .bl))).toInt < -128) ∧
    (let s := machine [] (gp (ax := 0x8000) (bx := 1)); 32767 < s.dxAx.toInt.tdiv (s.get16 (s.locate (.reg .bx))).toInt) ∧
    (let s := machine [] (gp (dx := 0xFFFF) (ax := 0x7FFF) (bx := 1));
      s.dxAx.toInt.tdiv (s.get16 (s.locate (.reg .bx))).toInt < -32768) := by decide

theorem witness_most_negative_quotient :
    (let s := machine [] (gp (ax := 0xFF7F) (bx := 1));
      (s.get8 (s.locate (.reg .bl))).toInt ≠ 0 ∧ s.gpr.ax.toInt.tdiv (s.get8 (s.locate (.reg .bl))).toInt = -129) ∧
    (let s := machine [] (gp (ax := 0xFF80) (bx := 1));
      (s.get8 (s.locate (.reg .bl))).toInt ≠ 0 ∧ s.gpr.ax.toInt.tdiv (s.get8 (s.locate (.reg .bl))).toInt = -128) ∧
    (let s := machine [] (gp (dx := 0xFFFF) (ax := 0x8000) (bx := 1));
      (s.get16 (s.locate (.reg .bx))).toInt ≠ 0 ∧ s.dxAx.toInt.tdiv (s.get16 (s.locate (.reg .bx))).toInt = -32768) := by
  decide

/-- A count of 0, of 1 and of 255. -/
theorem witness_shifts :
    (machine []).shiftCount (.rm8 m8 .cl) = 0 ∧ demo.shiftCount (.rm16 m16 .one) = 1 ∧
    (machine [] (gp (cx := 0xFF))).shiftCount (.rm8 m8 .cl) = 255 := by decide

theorem witness_string_elements :
    (demo.repeatWith = none ∧ demo.flags.DF = false) ∧
    (let s := machine [] (gp (di := 0xFFFF)) (fl (DF := true)); s.repeatWith = none ∧ s.flags.DF = true) := by decide

theorem witness_repeated_string :
    (Instr.isString (.movs .byte) = true ∧ ({ machine [] with repeatWith := some .f3 } : State).repeatWith = some .f3 ∧
      ({ machine [] with repeatWith := some .f3 } : State).gpr.cx = 0) ∧
    (Instr.isString (.scas .byte) = true ∧ ({ demo with repeatWith := some .f2 } : State).repeatWith = some .f2 ∧
      ({ demo with repeatWith := some .f2 } : State).gpr.cx ≠ 0 ∧
      ∃ u, exec (.scas .byte) { demo with repeatWith := none } = .next u) ∧
    ({ machine [] (gp (cx := 1)) with repeatWith := some .f3 } : State).gpr.cx = 1 :=
  ⟨⟨rfl, rfl, rfl⟩, ⟨rfl, rfl, by decide, _, rfl⟩, rfl⟩

theorem witness_rep_stos :
    let s : State := { demo with repeatWith := some .f3 };
    s.repeatWith = some .f3 ∧ s.flags.DF = false ∧ s.gpr.cx ≠ 0 := by decide

/-- TEST active, also while WAIT holds, and not active; IF set and clear. -/
theorem witness_overflow_and_lines :
    (demo.lines.test = true ∧ demo.waiting = false) ∧
    (let s : State := { demo with waiting := true }; s.lines.test = true ∧ s.waiting = true) ∧
    ({ demo with inputs := [{ Lines.quiet with test := false }] } : State).lines.test = false ∧
    (machine [] gp (fl (IF := true))).flags.IF = true ∧ demo.flags.IF = false := by decide

/-- Both clauses: a taken control transfer, and a store into the next byte of the instruction stream. -/
theorem witness_completes :
    Instr.isTransfer demo .int3 = true ∧ Instr.isTransfer selfModifying (.movStore .byte 0x0100) = false ∧
    (phys 0x1000 0x0100 ∈ (Instr.movStore .byte 0x0100).storesAt selfModifying ∧
      selfModifying.prefetched (phys 0x1000 0x0100) = true) :=
  ⟨rfl, rfl, by decide, test_next_byte_is_prefetched selfModifying⟩

/-- What the frames assume: `exec` answers a next state, with and without a store. -/
theorem witness_next :
    (∃ t, exec .nop demo = .next t) ∧ (∃ t, exec (.add (.r8Rm8 .al m8)) demo = .next t) ∧ (∃ t, exec .int3 demo = .next t) ∧
    ∃ t, exec .hlt demo = .next t := ⟨⟨_, rfl⟩, ⟨_, rfl⟩, ⟨_, rfl⟩, ⟨_, rfl⟩⟩

theorem witness_well_formed :
    (Instr.add (.rm16Imm16 (.mem (.based .bp (.d8 0x80))) 0x1234)).wellFormed = true ∧
    (Instr.callFar 0xFFFF 0x0000).wellFormed = true ∧ (Instr.jnc 0x80).wellFormed = true := by decide

theorem witness_decoded : decode [0x90, 0x01] = .ok (.nop, [0x01]) ∧ decode [0xC7, 0x06, 1, 2, 3, 4] =
    .ok (.movImm (.rm16 (.mem (.direct 0x0201)) 0x0403), []) := by decide

theorem witness_unlisted : (1 : BitVec 3) ≠ 0 ∧ 4 ≤ (4 : BitVec 3).toNat ∧ 4 ≤ (7 : BitVec 3).toNat ∧ (0x0B : Byte) ≠ 0x0A := by
  decide

/-- An instruction of the stream, a repetition, and a WAIT that holds. -/
theorem witness_step_runs_decoded :
    (let s := machine [0x00, 0xD8];
      s.lines.reset = none ∧ s.halted = false ∧ s.waiting = false ∧ s.repeating = none ∧
        decode s.fetch = .ok (.add (.rm8R8 (.reg .al) .bl), [0, 0, 0, 0]) ∧
        (∀ k, k < (encode (.add (.rm8R8 (.reg .al) .bl))).length → phys s.segs.cs (s.ip + BitVec.ofNat 16 k) ∉ s.staleCode) ∧
        s.repeatMeaningless (.add (.rm8R8 (.reg .al) .bl)) = false) ∧
    (let s : State := { demo with repeatWith := some .f3, repeating := some (.movs .byte), lockPrefix := true };
      s.lines.reset = none ∧ s.halted = false ∧ s.waiting = false ∧ s.repeating = some (.movs .byte) ∧
        (Instr.movs .byte).isPrefix = false) ∧
    (let s : State := { demo with waiting := true }; s.lines.reset = none ∧ s.halted = false ∧ s.waiting = true) := by decide

/-- A prefix byte; a repetition and a WAIT, each in the window of a segment load, with an NMI, with INTR and IF = 1, and with INTR held
off by IF and by the window of STI. -/
theorem witness_boundary_inside :
    Instr.lock.isPrefix = true ∧ (Instr.movs .byte).isPrefix = false ∧ Instr.wait.isPrefix = false ∧
    Window.closed ≠ .all ∧ Window.intr ≠ .all ∧
    (let asked : State := { machine [] gp (fl (IF := true)) with inputs := [{ Lines.quiet with intr := some 8 }] };
      ∀ t ∈ [({ asked with repeating := some (.movs .byte) } : State), { asked with waiting := true }],
        t.lines.nmiLate = false ∧ (t.repeating = some (.movs .byte) ∨ t.repeating = none ∧ t.waiting = true) ∧
        t.nmiPending = false ∧ t.flags.IF = true ∧ t.lines.intr = some 8) ∧
    (∀ t ∈ [({ demo with repeating := some (.movs .byte) } : State), { demo with waiting := true }],
      t.lines.nmiLate = false ∧ (t.repeating = some (.movs .byte) ∨ t.repeating = none ∧ t.waiting = true) ∧
      t.nmiPending = false ∧ t.flags.IF = false ∧ ({ t with nmiPending := true } : State).nmiPending = true) := by decide

theorem witness_quiet_boundary :
    Instr.nop.isPrefix = false ∧ demo.repeating = none ∧ demo.waiting = false ∧ demo.nmiPending = false ∧
      demo.lines.intr = none ∧ demo.lines.nmiLate = false := by decide

theorem witness_step_refuses :
    decode (machine [0x0F]).fetch = .error (.unlistedOpcode 0x0F) ∧
    (let s : State := { machine [0x90] with staleCode := [phys 0x1000 0x0100] };
      decode s.fetch = .ok (.nop, [0, 0, 0, 0, 0]) ∧ 0 < (encode .nop).length ∧
      phys s.segs.cs (s.ip + BitVec.ofNat 16 0) ∈ s.staleCode) ∧
    (let s : State := { machine [0x90] with repeatWith := some .f3 };
      s.lines.reset = none ∧ s.halted = false ∧ s.waiting = false ∧ s.repeating = none ∧
      decode s.fetch = .ok (.nop, [0, 0, 0, 0, 0]) ∧ Instr.nop.isPrefix = false ∧ s.repeatWith = some .f3 ∧
      (∀ k, k < (encode .nop).length → phys s.segs.cs (s.ip + BitVec.ofNat 16 k) ∉ s.staleCode) ∧
      Instr.nop.isString = false) ∧
    (let s : State := { machine [0xA4] with repeatWith := some .f2 };
      decode s.fetch = .ok (.movs .byte, [0, 0, 0, 0, 0]) ∧ (Instr.movs .byte).isPrefix = false ∧ s.repeatWith = some .f2 ∧
      ∀ w : Width, Instr.movs .byte ≠ .cmps w ∧ Instr.movs .byte ≠ .scas w) :=
  ⟨by decide, by decide, by decide, ⟨by decide, rfl, rfl, fun _ => ⟨by simp, by simp⟩⟩⟩

theorem witness_window :
    ({ demo with window := .all } : State).window = .all ∧
    (let s : State := { demo with window := .intr };
      s.window = .intr ∧ s.nmiPending = false ∧ s.lines.nmiLate = false) ∧
    (demo.flags.IF = false ∧ demo.window ≠ .all ∧ demo.nmiPending = false ∧ demo.lines.nmiLate = false) := by decide

/-- NMI with the window closed and after STI, INTR with the window closed, and INTR held off after STI. -/
theorem witness_order_of_acceptance :
    (let s : State := { demo with nmiPending := true };
      s.window ≠ .all ∧ s.repeating = none ∧ s.waiting = false ∧ s.nmiPending = true) ∧
    (let s : State := { demo with nmiPending := true, window := .intr };
      s.window ≠ .all ∧ s.repeating = none ∧ s.waiting = false ∧ s.nmiPending = true) ∧
    (let s : State := { machine [] gp (fl (IF := true)) with inputs := [{ Lines.quiet with intr := some 8 }] };
      s.window ≠ .all ∧ s.repeating = none ∧ s.waiting = false ∧ s.nmiPending = false ∧ s.flags.IF = true ∧
      s.window = .closed ∧ s.lines.intr = some 8) ∧
    (let s : State :=
        { machine [] gp (fl (IF := true)) with window := .intr, inputs := [{ Lines.quiet with intr := some 8 }] };
      s.window ≠ .all ∧ s.nmiPending = false ∧ s.window = .intr) := by decide

theorem witness_saved_ip :
    ({ demo with repeating := some (.movs .byte) } : State).repeating = some (.movs .byte) ∧
    (let s : State := { demo with waiting := true }; s.repeating = none ∧ s.waiting = true) ∧
    (demo.repeating = none ∧ demo.waiting = false) := by decide

theorem witness_halt :
    (let s : State := { demo with halted := true };
      s.halted = true ∧ s.waiting = false ∧ s.repeating = none ∧ s.window = .closed ∧ s.lines.reset = none ∧
      s.lines.nmiLate = false ∧ s.nmiPending = false ∧ s.lines.nmi = false ∧ s.flags.IF = false) ∧
    (let s : State := { demo with halted := true, inputs := [{ Lines.quiet with nmi := true }] };
      s.halted = true ∧ s.lines.reset = none ∧ s.lines.nmiLate = false ∧ s.lines.nmi = true) ∧
    (let s : State :=
        { machine [] gp (fl (IF := true)) with halted := true, inputs := [{ Lines.quiet with intr := some 8 }] };
      s.halted = true ∧ s.lines.reset = none ∧ s.lines.nmiLate = false ∧ s.nmiPending = false ∧ s.lines.nmi = false ∧
      s.flags.IF = true ∧ s.lines.intr = some 8) := by decide

/-- A state between two iterations of a repeated MOVS meets the invariant and goes on. -/
def repeatingDemo : State := { demo with repeatWith := some .f3, repeating := some (.movs .byte) }

theorem witness_invariant : repeatingDemo.Inv ∧ ∃ t, step repeatingDemo = .next t :=
  ⟨{ memory := by decide
     repeatingString := fun i h => by cases h; exact ⟨rfl, rfl⟩
     oneHold := fun h => by cases h
     haltedIdle := fun h => by cases h
     lockHeld := fun h => by cases h },
    by
      have h : gives repeatingDemo (fun _ => true) = true := by decide
      unfold gives at h
      cases hs : step repeatingDemo with
      | next t => exact ⟨t, rfl⟩
      | fault e => cases e
      | refused e => rw [hs] at h; cases h⟩

end Sys2Proof.Tests
end

section
/-! PROOFS. The byte registers, the stored word of the flags, and the flags of a sum and of a difference (`10_state.md` R21,
R26 to R33). -/

namespace Sys2Proof.Machine

open Sys2Proof

/-! ## The halves of a word register (`10_state.md` R21) -/

theorem lowByte_eq_extractLsb' (v : Word) : lowByte v = v.extractLsb' 0 8 :=
  BitVec.setWidth_eq_extractLsb' (by decide)

theorem highByte_eq_extractLsb' (v : Word) : highByte v = v.extractLsb' 8 8 := by
  apply BitVec.eq_of_toNat_eq
  rw [highByte_toNat, BitVec.extractLsb'_toNat, Nat.shiftRight_eq_div_pow]
  have := v.isLt
  omega

/-- A byte register by its number: numbers 0 to 3 are the low halves, 4 to 7 the high ones. -/
theorem State.reg8_by_number (s : State) (r : Reg8) :
    s.reg8 r =
      if r.bits.toNat < 4 then (s.reg16 (Reg16.ofBits r.bits)).extractLsb' 0 8
      else (s.reg16 (Reg16.ofBits (r.bits - 4))).extractLsb' 8 8 := by
  rw [State.reg8, lowByte_eq_extractLsb', highByte_eq_extractLsb']
  cases r <;> rfl

/-- SP, BP, SI and DI have no byte halves. -/
theorem Reg8Parent_not_pointer (r : Reg8) : Reg8Parent r ∉ [Reg16.sp, .bp, .si, .di] := by
  cases r <;> decide

/-- Settles O3: the halves by number, and what a byte write reads back and leaves alone. -/
theorem byteRegistersAreHalves : Obligations.ByteRegistersAreHalves := by
  intro s r v
  refine ⟨s.reg8_by_number r, by simp, fun q hq => by simp [hq], fun q hq => ?_⟩
  exact State.reg16_setReg8 s r q v fun e => Reg8Parent_not_pointer r (e ▸ hq)

/-- Settles O59: memory is empty and every latch of the invariant is clear at reset. -/
theorem invariantAtReset : Obligations.InvariantAtReset where
  memory := State.reset_mem_wf
  repeatingString _ h := nomatch h
  oneHold _ := rfl
  haltedIdle h := nomatch h
  lockHeld h := nomatch h

/-! ## The stored word of the flags (`10_state.md` R26, R33) -/

theorem flagBit_getLsbD (b : Bool) (place : Word) (i : Nat) :
    (flagBit b place).getLsbD i = (b && place.getLsbD i) := by
  cases b <;> simp [flagBit]

/-- Every position of the stored word: the flag that has its place there, or the position of the free word. -/
theorem Flags.word_getLsbD (f : Flags) (u : Word) (i : Nat) :
    (f.word u).getLsbD i =
      ((u.getLsbD i && (0xF02A#16).getLsbD i) || (f.CF && (0x0001#16).getLsbD i) || (f.PF && (0x0004#16).getLsbD i) ||
        (f.AF && (0x0010#16).getLsbD i) || (f.ZF && (0x0040#16).getLsbD i) || (f.SF && (0x0080#16).getLsbD i) ||
        (f.TF && (0x0100#16).getLsbD i) || (f.IF && (0x0200#16).getLsbD i) || (f.DF && (0x0400#16).getLsbD i) ||
        (f.OF && (0x0800#16).getLsbD i)) := by
  simp only [Flags.word, BitVec.getLsbD_or, BitVec.getLsbD_and, flagBit_getLsbD]
  rfl

/-- The nine places of R26. -/
theorem Flags.word_places (f : Flags) (u : Word) :
    [0, 2, 4, 6, 7, 8, 9, 10, 11].map (f.word u).getLsbD =
      [f.CF, f.PF, f.AF, f.ZF, f.SF, f.TF, f.IF, f.DF, f.OF] := by
  simp only [List.map_cons, List.map_nil, Flags.word_getLsbD]
  simp

/-- The seven other positions are those of the free word (R33 (b)). -/
theorem Flags.word_free (f : Flags) (u : Word) {i : Nat} (h : i ∈ [1, 3, 5, 12, 13, 14, 15]) :
    (f.word u).getLsbD i = u.getLsbD i := by
  simp only [List.mem_cons, List.not_mem_nil, or_false] at h
  rw [Flags.word_getLsbD]
  rcases h with rfl | rfl | rfl | rfl | rfl | rfl | rfl <;> simp

/-- The free word reaches none of the defined positions: it is masked to the others first. -/
theorem Flags.word_mask (f : Flags) (u : Word) : f.word u &&& 0x0FD5 = f.word 0 &&& 0x0FD5 := by
  have disjoint : (u &&& 0xF02A) &&& 0x0FD5 = (0 : Word) := by
    rw [BitVec.and_assoc]
    exact BitVec.and_zero
  simp only [Flags.word, BitVec.and_or_distrib_right, disjoint]
  rfl

/-- Loading reads only the nine places. -/
theorem Flags.ofWord_mask (v : Word) : Flags.ofWord (v &&& 0x0FD5) = Flags.ofWord v := by
  simp [Flags.ofWord]

/-- Loading a stored word gives the nine flags back, none `undef`. -/
theorem Flags.ofWord_word (f : Flags) (u : Word) : Flags.ofWord (f.word u) = f.defined := by
  have places := f.word_places u
  simp only [List.map_cons, List.map_nil, List.cons.injEq, and_true] at places
  obtain ⟨hc, hp, ha, hz, hs, ht, hi, hd, ho⟩ := places
  simp only [Flags.ofWord, Flags.defined, hc, hp, ha, hz, hs, ht, hi, hd, ho]

/-- Settles O7, from the value of the stored word at each position. -/
theorem flagsWordFormat : Obligations.FlagsWordFormat := fun f u v =>
  ⟨f.word_places u, f.ofWord_word u, fun _ hi => f.word_free u hi,
    (f.word_mask u).trans (f.word_mask v).symm, Flags.ofWord_mask v⟩

/-! ## The flags of a sum and of a difference (`10_state.md` R29 to R31) -/

theorem evenParity_iff {n : Nat} (r : BitVec n) :
    evenParity r = true ↔ ((List.range 8).countP fun i => r.getLsbD i) % 2 = 0 := beq_iff_eq

/-- `SZP` writes ZF, SF and PF from the result (R29). -/
theorem Flags.szp_describes {n : Nat} (f : Flags) (r : BitVec n) : Describes (f.szp r) r :=
  ⟨beq_iff_eq, rfl, evenParity_iff r⟩

/-- The most significant bit says whether the value is in the upper half. -/
theorem msb_iff_half_le {n : Nat} (x : BitVec n) : x.msb = true ↔ 2 ^ (n - 1) ≤ x.toNat := by
  rw [BitVec.msb_eq_decide, decide_eq_true_iff]

theorem msb_eq_iff {n : Nat} (x y : BitVec n) :
    x.msb = y.msb ↔ (2 ^ (n - 1) ≤ x.toNat ↔ 2 ^ (n - 1) ≤ y.toNat) := by
  rw [Bool.eq_iff_iff, msb_iff_half_le, msb_iff_half_le]

/-- The signed value: the upper half stands for the negative numbers. -/
theorem toInt_of_half {n : Nat} (x : BitVec n) :
    x.toInt = if 2 ^ (n - 1) ≤ x.toNat then (x.toNat : Int) - (2 ^ n : Nat) else x.toNat := by
  rw [BitVec.toInt_eq_msb_cond]
  simp only [msb_iff_half_le]

theorem two_pow_eq_cast (k : Nat) : (2 : Int) ^ k = ((2 ^ k : Nat) : Int) := by push_cast; rfl

theorem addFlags_toNat {n : Nat} (a b : BitVec n) (c : Bool) (f : Flags) :
    (addFlags a b c f).1.toNat = (a.toNat + b.toNat + c.toNat) % 2 ^ n := BitVec.toNat_ofNat _ _

theorem addFlags_OF_iff_signs {n : Nat} (a b : BitVec n) (c : Bool) (f : Flags) :
    (addFlags a b c f).2.OF = true ↔ a.msb = b.msb ∧ (addFlags a b c f).1.msb ≠ a.msb := by
  simp [addFlags]

/-- The signs of two operands agree and the sum's differs iff the signed sum is out of range (R30). -/
theorem addFlags_OF_iff_range {n : Nat} (h : 0 < n) (a b : BitVec n) (c : Bool) (f : Flags) :
    (addFlags a b c f).2.OF = true ↔
      2 ^ (n - 1) ≤ a.toInt + b.toInt + c.toNat ∨ a.toInt + b.toInt + c.toNat < -2 ^ (n - 1) := by
  have two_halves : 2 ^ n = 2 ^ (n - 1) * 2 := (Nat.two_pow_pred_mul_two h).symm
  have ha := a.isLt
  have hb := b.isLt
  have hc := Bool.toNat_le c
  have sum : (addFlags a b c f).1.toNat = a.toNat + b.toNat + c.toNat ∨
      (addFlags a b c f).1.toNat + 2 ^ n = a.toNat + b.toNat + c.toNat := by
    rw [addFlags_toNat]
    rcases Nat.lt_or_ge (a.toNat + b.toNat + c.toNat) (2 ^ n) with small | large
    · exact .inl (Nat.mod_eq_of_lt small)
    · rw [Nat.mod_eq_sub_mod large, Nat.mod_eq_of_lt (by omega)]
      exact .inr (by omega)
  have hr := (addFlags a b c f).1.isLt
  rw [addFlags_OF_iff_signs, Ne, msb_eq_iff, msb_eq_iff, toInt_of_half, toInt_of_half, two_pow_eq_cast, two_halves]
  rw [two_halves] at ha hb sum hr
  generalize 2 ^ (n - 1) = half at *
  split_ifs <;> omega

/-- Settles O8. -/
theorem additionFlags : Obligations.AdditionFlags := fun _ a b c f h =>
  ⟨addFlags_toNat a b c f, Flags.szp_describes f _, decide_eq_true_iff, decide_eq_true_iff,
    addFlags_OF_iff_range h a b c f, addFlags_OF_iff_signs a b c f, rfl, rfl, rfl, rfl⟩

theorem subFlags_toNat {n : Nat} (a b : BitVec n) (c : Bool) (f : Flags) :
    ((subFlags a b c f).1.toNat : Int) = ((a.toNat : Int) - b.toNat - c.toNat) % 2 ^ n := by
  have nonneg : 0 ≤ ((a.toNat : Int) - b.toNat - c.toNat) % 2 ^ n := Int.emod_nonneg _ (by positivity)
  show (((BitVec.ofInt n ((a.toNat : Int) - b.toNat - c.toNat)).toNat : Nat) : Int) = _
  rw [BitVec.toNat_ofInt]
  push_cast
  exact Int.toNat_of_nonneg nonneg

theorem subFlags_OF_iff_signs {n : Nat} (a b : BitVec n) (c : Bool) (f : Flags) :
    (subFlags a b c f).2.OF = true ↔ a.msb ≠ b.msb ∧ (subFlags a b c f).1.msb ≠ a.msb := by
  simp [subFlags]

/-- The signs of two operands differ and the difference's is not that of the first iff the signed difference is out of range
(R31). -/
theorem subFlags_OF_iff_range {n : Nat} (h : 0 < n) (a b : BitVec n) (c : Bool) (f : Flags) :
    (subFlags a b c f).2.OF = true ↔
      2 ^ (n - 1) ≤ a.toInt - b.toInt - c.toNat ∨ a.toInt - b.toInt - c.toNat < -2 ^ (n - 1) := by
  have two_halves : 2 ^ n = 2 ^ (n - 1) * 2 := (Nat.two_pow_pred_mul_two h).symm
  have ha := a.isLt
  have hb := b.isLt
  have hc := Bool.toNat_le c
  have difference : ((subFlags a b c f).1.toNat : Int) = (a.toNat : Int) - b.toNat - c.toNat ∨
      ((subFlags a b c f).1.toNat : Int) = (a.toNat : Int) - b.toNat - c.toNat + (2 ^ n : Nat) := by
    rw [subFlags_toNat, two_pow_eq_cast]
    rcases lt_or_ge ((a.toNat : Int) - b.toNat - c.toNat) 0 with negative | nonneg
    · rw [← Int.add_emod_right, Int.emod_eq_of_lt (by omega) (by omega)]
      exact .inr rfl
    · exact .inl (Int.emod_eq_of_lt nonneg (by omega))
  have hr := (subFlags a b c f).1.isLt
  rw [subFlags_OF_iff_signs, Ne, Ne, msb_eq_iff, msb_eq_iff, toInt_of_half, toInt_of_half, two_pow_eq_cast, two_halves]
  rw [two_halves] at ha hb difference hr
  generalize 2 ^ (n - 1) = half at *
  split_ifs <;> omega

/-- Settles O9. -/
theorem subtractionFlags : Obligations.SubtractionFlags := fun _ a b c f h =>
  ⟨subFlags_toNat a b c f, Flags.szp_describes f _, decide_eq_true_iff, decide_eq_true_iff,
    subFlags_OF_iff_range h a b c f, subFlags_OF_iff_signs a b c f, rfl, rfl, rfl, rfl⟩

end Sys2Proof.Machine
end

section
/-! PROOFS. What each operation of the machine may change, and from that what each instruction may change (`10_state.md` R22,
R23, R25, R28, R35, R36). -/

namespace Sys2Proof.Machine

open Sys2Proof

/-! ## Flags outside a list (`10_state.md` R28) -/

/-- The flags outside `listed` have the same value in both, and are `undef` in both or in neither. -/
def AgreeBut (listed : List FlagName) (f g : Flags) : Prop :=
  ∀ n, n ∉ listed → g.get n = f.get n ∧ g.isUndef n = f.isUndef n

theorem AgreeBut.refl (listed : List FlagName) (f : Flags) : AgreeBut listed f f := fun _ _ => ⟨rfl, rfl⟩

theorem AgreeBut.trans {listed : List FlagName} {f g h : Flags} (hfg : AgreeBut listed f g) (hgh : AgreeBut listed g h) :
    AgreeBut listed f h := fun n hn =>
  ⟨(hgh n hn).1.trans (hfg n hn).1, (hgh n hn).2.trans (hfg n hn).2⟩

theorem AgreeBut.mono {small large : List FlagName} {f g : Flags} (h : AgreeBut small f g) (hs : small ⊆ large) :
    AgreeBut large f g := fun n hn => h n fun hm => hn (hs hm)

/-- What keeps the control flags writes arithmetic flags only: TF, IF and DF are never `undef`. -/
theorem SameControl.agreeBut {f g : Flags} (h : SameControl g f) : AgreeBut arithmeticFlags f g := by
  obtain ⟨htf, hif, hdf⟩ := h
  intro n hn
  cases n with
  | TF => exact ⟨htf, rfl⟩
  | IF => exact ⟨hif, rfl⟩
  | DF => exact ⟨hdf, rfl⟩
  | CF | PF | AF | ZF | SF | OF => exact absurd hn (by decide)

theorem addFlags_agree {n : Nat} (a b : BitVec n) (c : Bool) (f : Flags) :
    AgreeBut arithmeticFlags f (addFlags a b c f).2 := SameControl.agreeBut ⟨rfl, rfl, rfl⟩

theorem subFlags_agree {n : Nat} (a b : BitVec n) (c : Bool) (f : Flags) :
    AgreeBut arithmeticFlags f (subFlags a b c f).2 := SameControl.agreeBut ⟨rfl, rfl, rfl⟩

theorem Flags.logic_agree {k : Nat} (n : Nat) (f : Flags) (r : BitVec k) : AgreeBut arithmeticFlags f (f.logic n r) :=
  SameControl.agreeBut ⟨rfl, rfl, rfl⟩

theorem Flags.undefined_agree (n : Nat) (f : Flags) : AgreeBut arithmeticFlags f (f.undefined n) :=
  SameControl.agreeBut ⟨rfl, rfl, rfl⟩

theorem Flags.multiplied_agree (n : Nat) (b : Bool) (f : Flags) : AgreeBut arithmeticFlags f (f.multiplied n b) :=
  SameControl.agreeBut ⟨rfl, rfl, rfl⟩

theorem Flags.asciiAdjusted_agree (n : Nat) (b : Bool) (f : Flags) : AgreeBut arithmeticFlags f (f.asciiAdjusted n b) :=
  SameControl.agreeBut ⟨rfl, rfl, rfl⟩

theorem Flags.asciiScaled_agree (n : Nat) (al : Byte) (f : Flags) : AgreeBut arithmeticFlags f (f.asciiScaled n al) :=
  SameControl.agreeBut ⟨rfl, rfl, rfl⟩

theorem Flags.decimalAdjusted_agree (n : Nat) (al : Byte) (af cf : Bool) (f : Flags) :
    AgreeBut arithmeticFlags f (f.decimalAdjusted n al af cf) := SameControl.agreeBut ⟨rfl, rfl, rfl⟩

theorem Flags.shifted_agree {k : Nat} (n count : Nat) (x0 x : BitVec k) (cf : Bool) (f : Flags) :
    AgreeBut arithmeticFlags f (f.shifted n count x0 x cf) := SameControl.agreeBut ⟨rfl, rfl, rfl⟩

/-- INC and DEC: CF is taken from before (`41_arithmetic.md` R252, R256). -/
theorem Flags.keepCF_agree {f g : Flags} (h : AgreeBut arithmeticFlags f g) :
    AgreeBut [.OF, .SF, .ZF, .AF, .PF] f (g.keepCF f) := by
  intro n hn
  cases n with
  | CF => exact ⟨rfl, rfl⟩
  | TF => exact h .TF (by decide)
  | IF => exact h .IF (by decide)
  | DF => exact h .DF (by decide)
  | PF | AF | ZF | SF | OF => exact absurd hn (by decide)

theorem Flags.rotated_agree {k : Nat} (n count : Nat) (x0 x : BitVec k) (cf : Bool) (f : Flags) :
    AgreeBut [.OF, .CF] f (f.rotated n count x0 x cf) := by
  intro m hm
  cases m with
  | CF | OF => exact absurd hm (by decide)
  | PF | AF | ZF | SF | TF | IF | DF => exact ⟨rfl, rfl⟩

theorem Flags.rotatedUndef_agree (n : Nat) (f : Flags) : AgreeBut [.OF, .CF] f (f.rotatedUndef n) := by
  intro m hm
  cases m with
  | CF | OF => exact absurd hm (by decide)
  | PF | AF | ZF | SF | TF | IF | DF => exact ⟨rfl, rfl⟩

/-- SAHF loads five flags; OF keeps its value and its mark (`40_data_transfer.md` R215). -/
theorem Flags.loadLow_agree (f : Flags) (b : Byte) : AgreeBut [.SF, .ZF, .AF, .PF, .CF] f (f.loadLow b) := by
  intro m hm
  cases m with
  | SF | ZF | AF | PF | CF => exact absurd hm (by decide)
  | TF | IF | DF | OF => exact ⟨rfl, rfl⟩

theorem Flags.withCF_agree (f : Flags) (b : Bool) (u : Bool) :
    AgreeBut [.CF] f { f with CF := b, undef := { f.undef with CF := u } } := by
  intro m hm
  cases m with
  | CF => exact absurd hm (by decide)
  | PF | AF | ZF | SF | TF | IF | DF | OF => exact ⟨rfl, rfl⟩

theorem Flags.withDF_agree (f : Flags) (b : Bool) : AgreeBut [.DF] f { f with DF := b } := by
  intro m hm
  cases m with
  | DF => exact absurd hm (by decide)
  | CF | PF | AF | ZF | SF | TF | IF | OF => exact ⟨rfl, rfl⟩

theorem Flags.withIF_agree (f : Flags) (b : Bool) : AgreeBut [.IF] f { f with IF := b } := by
  intro m hm
  cases m with
  | IF => exact absurd hm (by decide)
  | CF | PF | AF | ZF | SF | TF | DF | OF => exact ⟨rfl, rfl⟩

/-- The interrupt sequence clears IF and TF (`60_exceptions.md` R508). -/
theorem Flags.masked_agree (f : Flags) : AgreeBut [.IF, .TF] f { f with IF := false, TF := false } := by
  intro m hm
  cases m with
  | IF | TF => exact absurd hm (by decide)
  | CF | PF | AF | ZF | SF | DF | OF => exact ⟨rfl, rfl⟩

/-- POPF and IRET list all nine flags (`10_state.md` R28). -/
theorem agreeBut_all (f g : Flags) : AgreeBut [.CF, .PF, .AF, .ZF, .SF, .TF, .IF, .DF, .OF] f g := by
  intro m hm
  cases m <;> exact absurd hm (by decide)

/-! ## Effects -/

/-- What may differ after something was done: the registers and flags of the lists, and the parts of the control state whose
proposition holds. -/
structure Effect where
  regs : List Reg16
  segs : List SegReg
  flags : List FlagName
  /-- IP: control is transferred -/
  jumps : Prop
  /-- the halt state -/
  halts : Prop
  /-- the wait state -/
  waits : Prop
  /-- the interrupt window -/
  opens : Prop
  /-- the latches of the segment override, the repeat and the LOCK byte -/
  latches : Prop
  /-- the repetition that is due -/
  repeats : Prop
  /-- what the environment has seen -/
  reports : Prop

/-- From `s` to `t` nothing changed but what `e` lists, and the LOCK output is as it was. -/
structure Within (e : Effect) (s t : State) : Prop where
  reg : ∀ r, r ∉ e.regs → t.reg16 r = s.reg16 r
  seg : ∀ q, q ∉ e.segs → t.sreg q = s.sreg q
  flag : AgreeBut e.flags s.flags t.flags
  ip : ¬ e.jumps → t.ip = s.ip
  halted : ¬ e.halts → t.halted = s.halted
  waiting : ¬ e.waits → t.waiting = s.waiting
  window : ¬ e.opens → t.window = s.window
  segOverride : ¬ e.latches → t.segOverride = s.segOverride
  repeatWith : ¬ e.latches → t.repeatWith = s.repeatWith
  lockPrefix : ¬ e.latches → t.lockPrefix = s.lockPrefix
  repeating : ¬ e.repeats → t.repeating = s.repeating
  events : ¬ e.reports → t.events = s.events
  lockOutput : t.lockOutput = s.lockOutput
  nmiPending : t.nmiPending = s.nmiPending
  inputs : t.inputs = s.inputs
  ipStart : t.ipStart = s.ipStart

/-- The event is a change of the LOCK output (log 24); every other leaves its level alone. -/
def BusEvent.isLock : BusEvent → Bool
  | .lock _ => true
  | _ => false

theorem lockLevel_cons {x : BusEvent} (h : x.isLock = false) (es : List BusEvent) : lockLevel (x :: es) = lockLevel es := by
  cases x with
  | lock b => cases h
  | portRead8 | portRead16 | portWrite8 | portWrite16 | escape => rfl

/-! ## One rule per operation: it stays within an effect that lists what it writes -/

section Rules
variable {e : Effect} {s u : State}

theorem Within.refl (e : Effect) (s : State) : Within e s s where
  reg _ _ := rfl
  seg _ _ := rfl
  flag := .refl _ _
  ip _ := rfl
  halted _ := rfl
  waiting _ := rfl
  window _ := rfl
  segOverride _ := rfl
  repeatWith _ := rfl
  lockPrefix _ := rfl
  repeating _ := rfl
  events _ := rfl
  lockOutput := rfl
  nmiPending := rfl
  inputs := rfl
  ipStart := rfl

/-! Operations that write nothing an effect speaks of -/

theorem Within.nextDraw (h : Within e s u) : Within e s u.nextDraw := { h with }

theorem Within.store8 (h : Within e s u) (seg off : Word) (v : Byte) : Within e s (u.store8 seg off v) := { h with }

theorem Within.store16 (h : Within e s u) (seg off v : Word) : Within e s (u.store16 seg off v) := { h with }

theorem Within.chosen (h : Within e s u) (reads : List FlagName) : Within e s (u.chosen reads) := by
  unfold State.chosen
  split
  · exact h.nextDraw
  · exact h

/-! Registers and flags -/

theorem Within.setReg16 (h : Within e s u) {r : Reg16} (hr : r ∈ e.regs) (v : Word) : Within e s (u.setReg16 r v) :=
  { h with
    reg := fun q hq => by
      have hne : q ≠ r := fun heq => hq (heq ▸ hr)
      simpa [hne] using h.reg q hq }

theorem Within.setReg8 (h : Within e s u) {r : Reg8} (hr : Reg8Parent r ∈ e.regs) (v : Byte) : Within e s (u.setReg8 r v) :=
  h.setReg16 hr _

theorem Within.setDxAx (h : Within e s u) (hd : .dx ∈ e.regs) (ha : .ax ∈ e.regs) (v : BitVec 32) :
    Within e s (u.setDxAx v) := (h.setReg16 hd _).setReg16 ha _

theorem Within.setSreg (h : Within e s u) {q : SegReg} (hq : q ∈ e.segs) (v : Word) : Within e s (u.setSreg q v) :=
  { h with
    seg := fun p hp => by
      have hne : p ≠ q := fun heq => hp (heq ▸ hq)
      have := h.seg p hp
      simpa [State.sreg, hne] using this }

theorem Within.withFlags (h : Within e s u) {f : Flags} (hf : AgreeBut e.flags u.flags f) : Within e s (u.withFlags f) :=
  { h with flag := h.flag.trans hf }

theorem Within.put8 (h : Within e s u) {l : Loc Reg8} (hl : l.regs8 ⊆ e.regs) (v : Byte) : Within e s (u.put8 v l) := by
  cases l with
  | reg r => exact h.setReg8 (hl (.head _)) v
  | mem seg off => exact h.store8 seg off v

theorem Within.put16 (h : Within e s u) {l : Loc Reg16} (hl : l.regs16 ⊆ e.regs) (v : Word) : Within e s (u.put16 v l) := by
  cases l with
  | reg r => exact h.setReg16 (hl (.head _)) v
  | mem seg off => exact h.store16 seg off v

/-! Control transfers, the stack and interrupts -/

theorem Within.withIp (h : Within e s u) (hj : e.jumps) (ip : Word) : Within e s (u.withIp ip) :=
  { h with ip := fun hn => absurd hj hn }

theorem Within.branch (h : Within e s u) (hj : e.jumps) (inc : Word) : Within e s (u.branch inc) := h.withIp hj _

theorem Within.branchIf (h : Within e s u) {c : Bool} (hj : c = true → e.jumps) (inc : Byte) :
    Within e s (u.branchIf c inc) := by
  unfold State.branchIf
  split
  · next hc => exact h.branch (hj hc) _
  · exact h

theorem Within.jumpIf (h : Within e s u) {reads : List FlagName} {c : Bool} (hj : u.choose reads c = true → e.jumps)
    (inc : Byte) : Within e s (u.jumpIf reads c inc) := (h.chosen reads).branchIf hj inc

theorem Within.jumpFar (h : Within e s u) (hj : e.jumps) (hcs : .cs ∈ e.segs) (cs ip : Word) :
    Within e s (u.jumpFar cs ip) := (h.setSreg hcs cs).withIp hj ip

theorem Within.push16 (h : Within e s u) (hsp : .sp ∈ e.regs) (v : Word) : Within e s (u.push16 v) :=
  (h.setReg16 hsp _).store16 _ _ v

theorem Within.drop16 (h : Within e s u) (hsp : .sp ∈ e.regs) : Within e s u.drop16 := h.setReg16 hsp _

theorem Within.interrupt (h : Within e s u) (hsp : .sp ∈ e.regs) (hcs : .cs ∈ e.segs) (hf : [.IF, .TF] ⊆ e.flags)
    (hj : e.jumps) (t : Byte) : Within e s (u.interrupt t) := by
  rw [State.interrupt_eq]
  refine Within.jumpFar ?_ hj hcs _ _
  refine Within.push16 (Within.push16 ?_ hsp _) hsp _
  exact (h.push16 hsp _).nextDraw.withFlags ((Flags.masked_agree u.flags).mono hf)

theorem Within.divideError8 (h : Within e s u) (hax : .ax ∈ e.regs) (hsp : .sp ∈ e.regs) (hcs : .cs ∈ e.segs)
    (ha : arithmeticFlags ⊆ e.flags) (hf : [.IF, .TF] ⊆ e.flags) (hj : e.jumps) : Within e s u.divideError8 :=
  ((h.setReg16 hax _).withFlags ((Flags.undefined_agree _ _).mono ha)).nextDraw.interrupt hsp hcs hf hj 0

theorem Within.divideError16 (h : Within e s u) (hax : .ax ∈ e.regs) (hdx : .dx ∈ e.regs) (hsp : .sp ∈ e.regs)
    (hcs : .cs ∈ e.segs) (ha : arithmeticFlags ⊆ e.flags) (hf : [.IF, .TF] ⊆ e.flags) (hj : e.jumps) :
    Within e s u.divideError16 :=
  (((h.setReg16 hax _).setReg16 hdx _).withFlags ((Flags.undefined_agree _ _).mono ha)).nextDraw.interrupt hsp hcs hf hj 0

/-! Reading, computing and writing back -/

theorem Within.assign (h : Within e s u) {o : Operands} (ho : o.regs ⊆ e.regs) : Within e s (u.assign o) := by
  cases o with
  | byte d v => exact h.put8 ho v
  | word d v => exact h.put16 ho v

theorem Within.combine (h : Within e s u) {op : {n : Nat} → BitVec n → BitVec n → Flags → BitVec n × Flags} {o : Operands}
    (ho : o.regs ⊆ e.regs) (hf : ∀ {n : Nat} (a b : BitVec n) (f : Flags), AgreeBut e.flags f (op a b f).2) :
    Within e s (u.combine op o) := by
  cases o with
  | byte d b => exact (h.withFlags (hf _ _ _)).put8 ho _
  | word d b => exact (h.withFlags (hf _ _ _)).put16 ho _

theorem Within.combineWithCarry (h : Within e s u)
    {op : {n : Nat} → BitVec n → BitVec n → Flags → BitVec n × Flags} {o : Operands} (ho : o.regs ⊆ e.regs)
    (hf : ∀ {n : Nat} (a b : BitVec n) (f : Flags), AgreeBut e.flags f (op a b f).2) (ha : arithmeticFlags ⊆ e.flags) :
    Within e s (u.combineWithCarry op o) := by
  unfold State.combineWithCarry
  split
  · exact h.nextDraw.combine ho fun _ _ f => (f.undefined_agree _).mono ha
  · exact h.combine ho hf

theorem Within.compare (h : Within e s u) {op : {n : Nat} → BitVec n → BitVec n → Flags → BitVec n × Flags} {o : Operands}
    (hf : ∀ {n : Nat} (a b : BitVec n) (f : Flags), AgreeBut e.flags f (op a b f).2) : Within e s (u.compare op o) := by
  cases o with
  | byte d b => exact h.withFlags (hf _ _ _)
  | word d b => exact h.withFlags (hf _ _ _)

theorem Within.modify (h : Within e s u) {op : {n : Nat} → BitVec n → Flags → BitVec n × Flags} {d : Dest}
    (hd : d.regs ⊆ e.regs) (hf : ∀ {n : Nat} (a : BitVec n) (f : Flags), AgreeBut e.flags f (op a f).2) :
    Within e s (u.modify op d) := by
  cases d with
  | byte d => exact (h.withFlags (hf _ _)).put8 hd _
  | word d => exact (h.withFlags (hf _ _)).put16 hd _

/-- A shift by 0 writes nothing, so what it may write is asked for other counts only (`42_logic_shift.md` R290). -/
theorem Within.shift (h : Within e s u) (step : {n : Nat} → BitVec n × Bool → BitVec n × Bool)
    {flags : {n : Nat} → Nat → Nat → BitVec n → BitVec n → Bool → Flags → Flags} {count : Nat} {d : Dest}
    (hd : count ≠ 0 → d.regs ⊆ e.regs)
    (hf : count ≠ 0 → ∀ {n : Nat} (k : Nat) (x0 x : BitVec n) (cf : Bool) (f : Flags),
      AgreeBut e.flags f (flags k count x0 x cf f)) :
    Within e s (u.shift step flags count d) := by
  by_cases hc : count = 0
  · subst hc
    exact h
  · rw [State.shift_count step flags hc]
    exact h.nextDraw.modify (hd hc) fun _ f => hf hc _ _ _ _ f

theorem Within.shiftThroughCarry (h : Within e s u) (step : {n : Nat} → BitVec n × Bool → BitVec n × Bool) {count : Nat}
    {d : Dest} (hd : count ≠ 0 → d.regs ⊆ e.regs) (hf : count ≠ 0 → [.OF, .CF] ⊆ e.flags) :
    Within e s (u.shiftThroughCarry step count d) := by
  unfold State.shiftThroughCarry
  split
  · next hc =>
    have hc : count ≠ 0 := by simp_all
    exact h.nextDraw.modify (hd hc) fun _ f => (f.rotatedUndef_agree _).mono (hf hc)
  · exact h.shift step hd fun hc => fun _ _ _ _ f => (f.rotated_agree _ _ _ _ _).mono (hf hc)

/-! The control state -/

theorem Within.openWindow (h : Within e s u) (ho : e.opens) (w : Window) : Within e s (u.openWindow w) :=
  { h with window := fun hn => absurd ho hn }

theorem Within.setHalted (h : Within e s u) (hh : e.halts) (b : Bool) : Within e s { u with halted := b } :=
  { h with halted := fun hn => absurd hh hn }

theorem Within.setWaiting (h : Within e s u) (hw : e.waits) (b : Bool) : Within e s { u with waiting := b } :=
  { h with waiting := fun hn => absurd hw hn }

theorem Within.setRepeating (h : Within e s u) (hr : e.repeats) (r : Option Instr) : Within e s { u with repeating := r } :=
  { h with repeating := fun hn => absurd hr hn }

theorem Within.setSegOverride (h : Within e s u) (hl : e.latches) (q : Option SegReg) :
    Within e s { u with segOverride := q } := { h with segOverride := fun hn => absurd hl hn }

theorem Within.setRepeatWith (h : Within e s u) (hl : e.latches) (z : Option RepeatWith) :
    Within e s { u with repeatWith := z } := { h with repeatWith := fun hn => absurd hl hn }

theorem Within.setLockPrefix (h : Within e s u) (hl : e.latches) (b : Bool) : Within e s { u with lockPrefix := b } :=
  { h with lockPrefix := fun hn => absurd hl hn }

theorem Within.emit (h : Within e s u) (hr : e.reports) {x : BusEvent} (hx : x.isLock = false) : Within e s (u.emit x) :=
  { h with
    events := fun hn => absurd hr hn
    lockOutput := (lockLevel_cons hx u.events).trans h.lockOutput }

/-- Work under LOCK: LOCK is back as it was afterwards (`20_memory.md` R78). -/
theorem Within.underLock (hr : e.reports) {locks : Bool} {work : State → State} (hw : ∀ u, Within e u (work u)) :
    Within e s (s.underLock locks work) := by
  unfold State.underLock
  split
  · exact
      { hw (s.setLock true) with
        events := fun hn => absurd hr hn
        lockOutput := State.lockOutput_setLock _ _ }
  · exact hw s

/-- A string instruction: the element where there is one, and CX where a repeat counts it down (`43_string.md` R339). -/
theorem Within.stringStep {i : Instr} {tests : Bool} {element : State → State} (hr : e.repeats)
    (hcx : s.hasElement = true → s.repeatWith.isSome = true → .cx ∈ e.regs)
    (he : s.hasElement = true → Within e s (element s)) : Within e s (s.stringStep i tests element) := by
  cases hz : s.repeatWith with
  | none =>
    rw [State.stringStep_plain hz]
    exact he (by simp [State.hasElement, hz])
  | some z =>
    by_cases hc : s.gpr.cx = 0
    · rw [State.stringStep_done hz hc]
      exact (Within.refl e s).setRepeating hr none
    · have hel : s.hasElement = true := by rw [State.hasElement, Bool.or_eq_true, bne_iff_ne]; exact .inr hc
      rw [State.stringStep_iteration hz hc]
      exact ((he hel).setReg16 (hcx hel (by simp [hz])) _).setRepeating hr _

/-! One element of each string instruction -/

theorem Within.stepSi (h : Within e s u) (hsi : .si ∈ e.regs) (w : Width) : Within e s (u.stepSi w) := h.setReg16 hsi _

theorem Within.stepDi (h : Within e s u) (hdi : .di ∈ e.regs) (w : Width) : Within e s (u.stepDi w) := h.setReg16 hdi _

theorem Within.cmpsElement (h : Within e s u) (hsi : .si ∈ e.regs) (hdi : .di ∈ e.regs) (hf : arithmeticFlags ⊆ e.flags)
    (w : Width) : Within e s (u.cmpsElement w) := by
  cases w with
  | byte => exact ((h.withFlags ((subFlags_agree _ _ _ _).mono hf)).stepSi hsi .byte).stepDi hdi .byte
  | word => exact ((h.withFlags ((subFlags_agree _ _ _ _).mono hf)).stepSi hsi .word).stepDi hdi .word

theorem Within.lodsElement (h : Within e s u) (hax : .ax ∈ e.regs) (hsi : .si ∈ e.regs) (w : Width) :
    Within e s (u.lodsElement w) := by
  cases w with
  | byte => exact (h.setReg8 (r := .al) hax _).stepSi hsi .byte
  | word => exact (h.setReg16 hax _).stepSi hsi .word

theorem Within.movsElement (h : Within e s u) (hsi : .si ∈ e.regs) (hdi : .di ∈ e.regs) (w : Width) :
    Within e s (u.movsElement w) := by
  cases w with
  | byte => exact ((h.store8 _ _ _).stepSi hsi .byte).stepDi hdi .byte
  | word => exact ((h.store16 _ _ _).stepSi hsi .word).stepDi hdi .word

theorem Within.scasElement (h : Within e s u) (hdi : .di ∈ e.regs) (hf : arithmeticFlags ⊆ e.flags) (w : Width) :
    Within e s (u.scasElement w) := by
  cases w with
  | byte => exact (h.withFlags ((subFlags_agree _ _ _ _).mono hf)).stepDi hdi .byte
  | word => exact (h.withFlags ((subFlags_agree _ _ _ _).mono hf)).stepDi hdi .word

theorem Within.stosElement (h : Within e s u) (hdi : .di ∈ e.regs) (w : Width) : Within e s (u.stosElement w) := by
  cases w with
  | byte => exact (h.store8 _ _ _).stepDi hdi .byte
  | word => exact (h.store16 _ _ _).stepDi hdi .word

/-! The decimal adjustments -/

theorem Within.asciiAdjust (h : Within e s u) (hax : .ax ∈ e.regs) (hf : arithmeticFlags ⊆ e.flags) (units tens : Byte) :
    Within e s (u.asciiAdjust units tens) := by
  unfold State.asciiAdjust
  split
  · exact ((h.setReg16 hax _).withFlags ((Flags.undefined_agree _ _).mono hf)).nextDraw
  · exact ((h.setReg16 hax _).withFlags ((Flags.asciiAdjusted_agree _ _ _).mono hf)).nextDraw

theorem Within.decimalAdjust (h : Within e s u) (hax : .ax ∈ e.regs) (hf : arithmeticFlags ⊆ e.flags) (units tens : Byte) :
    Within e s (u.decimalAdjust units tens) := by
  unfold State.decimalAdjust
  split
  · exact ((h.setReg8 (r := .al) hax _).withFlags ((Flags.undefined_agree _ _).mono hf)).nextDraw
  · exact ((h.setReg8 (r := .al) hax _).withFlags ((Flags.decimalAdjusted_agree _ _ _ _ _).mono hf)).nextDraw

end Rules
end Sys2Proof.Machine

namespace Sys2Proof

open Machine

/-! ## Every instruction stays within its own effect -/

/-- The effect the tables of `Safety.lean` and the spec's lists give an instruction that starts in `s`. -/
def Instr.effect (s : State) (i : Instr) : Effect where
  regs := i.regsWritten s
  segs := i.segsWritten s
  flags := i.flagsWritten s
  jumps := i.isTransfer s = true
  halts := i = .hlt
  waits := i = .wait
  opens := i = .sti ∨ (∃ q r, i = .movToSeg q r) ∨ ∃ q, i = .pop (.seg q)
  latches := i.isPrefix = true
  repeats := i.isString = true
  reports := (∃ w p, i = .input w p) ∨ (∃ w p, i = .output w p) ∨ (∃ o r, i = .esc o r) ∨ ∃ f, i = .xchg f


theorem mem_ite_of_pos {α : Type} {c : Prop} [Decidable c] (hc : c) {a : α} {l m : List α} (ha : a ∈ l) :
    a ∈ if c then l else m := by rwa [if_pos hc]

theorem subset_ite_of_pos {α : Type} {c : Prop} [Decidable c] (hc : c) {l m : List α} : l ⊆ if c then l else m := by
  rw [if_pos hc]
  exact List.Subset.refl l

theorem subset_ite_of_neg {α : Type} {c : Prop} [Decidable c] (hc : ¬ c) {l m : List α} : l ⊆ if c then m else l := by
  rw [if_neg hc]
  exact List.Subset.refl l

theorem cx_mem_repeatCount {s : State} (h : s.repeatWith.isSome = true) : .cx ∈ s.repeatCount :=
  mem_ite_of_pos h (.head _)

theorem cx_sub_one_ne_zero (x : Word) : (x - 1 != 0) = (x != 1) := by
  rw [Bool.eq_iff_iff, bne_iff_ne, bne_iff_ne, Ne, Ne, sub_eq_zero]

/-- The two readings of JG's condition (`44_control_transfer.md` R366). -/
theorem greater_condition (z s o : Bool) : (!(z || s != o)) = (!z && s == o) := by rw [Bool.not_or, bne, Bool.not_not]

/-! ## Divisions (`41_arithmetic.md` R253, R254) -/

/-- The effect of DIV and of IDIV: the accumulator and the six flags, and with a divide error the interrupt sequence. -/
structure DivideEffect (e : Effect) (faults : Bool) (f : UnaryForm) : Prop where
  regs : e.regs = if faults then .sp :: f.accumulator else f.accumulator
  segs : e.segs = if faults then [.cs] else []
  flags : e.flags = if faults then arithmeticFlags ++ [.IF, .TF] else arithmeticFlags
  jumps : e.jumps ↔ faults = true

section Divisions
variable {e : Effect} {d8 : RM Reg8} {d16 : RM Reg16}

theorem DivideEffect.quotient8 (h : DivideEffect e false (.rm8 d8)) (s : State) (v : Word) :
    Within e s (((s.setReg16 .ax v).withFlags (s.flags.undefined s.draws)).nextDraw) :=
  (((Within.refl e s).setReg16 (h.regs ▸ .head _) v).withFlags (h.flags ▸ s.flags.undefined_agree _)).nextDraw

theorem DivideEffect.quotient16 (h : DivideEffect e false (.rm16 d16)) (s : State) (v w : Word) :
    Within e s ((((s.setReg16 .ax v).setReg16 .dx w).withFlags (s.flags.undefined s.draws)).nextDraw) :=
  ((((Within.refl e s).setReg16 (h.regs ▸ .head _) v).setReg16 (h.regs ▸ .tail _ (.head _)) w).withFlags
    (h.flags ▸ s.flags.undefined_agree _)).nextDraw

theorem DivideEffect.error8 (h : DivideEffect e true (.rm8 d8)) (s : State) : Within e s s.divideError8 :=
  (Within.refl e s).divideError8 (h.regs ▸ .tail _ (.head _)) (h.regs ▸ .head _) (h.segs ▸ .head _)
    (h.flags ▸ List.subset_append_left _ _) (h.flags ▸ List.subset_append_right _ _) (h.jumps.mpr rfl)

theorem DivideEffect.error16 (h : DivideEffect e true (.rm16 d16)) (s : State) : Within e s s.divideError16 :=
  (Within.refl e s).divideError16 (h.regs ▸ .tail _ (.head _)) (h.regs ▸ .tail _ (.tail _ (.head _))) (h.regs ▸ .head _)
    (h.segs ▸ .head _) (h.flags ▸ List.subset_append_left _ _) (h.flags ▸ List.subset_append_right _ _) (h.jumps.mpr rfl)

end Divisions

theorem execDiv_within {f : UnaryForm} {s t : State} (h : exec (.div f) s = .next t) :
    Within ((Instr.div f).effect s) s t := by
  have hd : DivideEffect ((Instr.div f).effect s) (s.divFaults f) f := ⟨rfl, rfl, rfl, .rfl⟩
  cases f with
  | rm8 d =>
    simp only [exec, execDiv, State.unaryDest] at h
    simp only [State.divFaults, State.unaryDest] at hd
    split at h
    · next fits => rw [fits] at hd; cases h; exact hd.quotient8 s _
    · next faults => rw [faults] at hd; cases h; exact hd.error8 s
  | rm16 d =>
    simp only [exec, execDiv, State.unaryDest] at h
    simp only [State.divFaults, State.unaryDest] at hd
    split at h
    · next fits => rw [fits] at hd; cases h; exact hd.quotient16 s _ _
    · next faults => rw [faults] at hd; cases h; exact hd.error16 s

theorem execIdiv_within {f : UnaryForm} {s t : State} (h : exec (.idiv f) s = .next t) :
    Within ((Instr.idiv f).effect s) s t := by
  have hd : DivideEffect ((Instr.idiv f).effect s) (s.idivFaults f) f := ⟨rfl, rfl, rfl, .rfl⟩
  cases f with
  | rm8 d =>
    simp only [exec, execIdiv, State.unaryDest] at h
    simp only [State.idivFaults, State.unaryDest] at hd
    split at h
    · next fits => rw [fits] at hd; cases h; exact hd.quotient8 s _
    · next faults => rw [faults] at hd; cases h; exact hd.error8 s
  | rm16 d =>
    simp only [exec, execIdiv, State.unaryDest] at h
    simp only [State.idivFaults, State.unaryDest] at hd
    split at h
    · next fits => rw [fits] at hd; cases h; exact hd.quotient16 s _ _
    · next faults => rw [faults] at hd; cases h; exact hd.error16 s

/-! ## Shifts and rotates (`42_logic_shift.md` R290): by 0 nothing is written -/

section Shifts
variable {e : Effect} {s : State} {f : ShiftForm}

theorem rotate_within (hr : e.regs = if s.shiftCount f = 0 then [] else (s.shiftDest f).regs)
    (hf : e.flags = if s.shiftCount f = 0 then [] else [.OF, .CF]) (step : {n : Nat} → BitVec n × Bool → BitVec n × Bool) :
    Within e s (s.shift step (fun n c x0 x cf fl => fl.rotated n c x0 x cf) (s.shiftCount f) (s.shiftDest f)) :=
  (Within.refl e s).shift step (fun hc => hr ▸ subset_ite_of_neg hc) fun hc _ _ _ _ _ fl =>
    (fl.rotated_agree _ _ _ _ _).mono (hf ▸ subset_ite_of_neg hc)

theorem shift_within (hr : e.regs = if s.shiftCount f = 0 then [] else (s.shiftDest f).regs)
    (hf : e.flags = if s.shiftCount f = 0 then [] else arithmeticFlags)
    (step : {n : Nat} → BitVec n × Bool → BitVec n × Bool) :
    Within e s (s.shift step (fun n c x0 x cf fl => fl.shifted n c x0 x cf) (s.shiftCount f) (s.shiftDest f)) :=
  (Within.refl e s).shift step (fun hc => hr ▸ subset_ite_of_neg hc) fun hc _ _ _ _ _ fl =>
    (fl.shifted_agree _ _ _ _ _).mono (hf ▸ subset_ite_of_neg hc)

theorem rotateThroughCarry_within (hr : e.regs = if s.shiftCount f = 0 then [] else (s.shiftDest f).regs)
    (hf : e.flags = if s.shiftCount f = 0 then [] else [.OF, .CF]) (step : {n : Nat} → BitVec n × Bool → BitVec n × Bool) :
    Within e s (s.shiftThroughCarry step (s.shiftCount f) (s.shiftDest f)) :=
  (Within.refl e s).shiftThroughCarry step (fun hc => hr ▸ subset_ite_of_neg hc) fun hc => hf ▸ subset_ite_of_neg hc

end Shifts

/-! ## All instructions -/

/-- No instruction changes what its effect does not list. -/
theorem exec_within {i : Instr} {s t : State} (h : exec i s = .next t) : Within (i.effect s) s t := by
  have start := Within.refl (i.effect s) s
  cases i with
  -- 40_data_transfer.md
  | input w p =>
    cases w with
    | byte => cases h; exact ((start.setReg8 (.head _) _).emit (.inl ⟨_, _, rfl⟩) rfl).nextDraw
    | word => cases h; exact ((start.setReg16 (.head _) _).emit (.inl ⟨_, _, rfl⟩) rfl).nextDraw
  | lahf => cases h; exact (start.setReg8 (.head _) _).nextDraw
  | lds dst src | les dst src => cases h; exact (start.setReg16 (.head _) _).setSreg (.head _) _
  | lea dst src => cases h; exact start.setReg16 (.head _) _
  | movReg f | movImm f => cases h; exact start.assign (List.Subset.refl _)
  | movFromSeg dst q => cases h; exact start.put16 (List.Subset.refl _) _
  | movToSeg q src => cases h; exact (start.setSreg (.head _) _).openWindow (.inr (.inl ⟨_, _, rfl⟩)) _
  | movLoad w addr =>
    cases w with
    | byte => cases h; exact start.setReg8 (.head _) _
    | word => cases h; exact start.setReg16 (.head _) _
  | movStore w addr =>
    cases w with
    | byte => cases h; exact start.store8 _ _ _
    | word => cases h; exact start.store16 _ _ _
  | output w p =>
    cases w with
    | byte => cases h; exact start.emit (.inr (.inl ⟨_, _, rfl⟩)) rfl
    | word => cases h; exact start.emit (.inr (.inl ⟨_, _, rfl⟩)) rfl
  | pop dst =>
    have popped := start.drop16 (.head _)
    cases dst with
    | seg q => cases h; exact (popped.setSreg (.head _) _).openWindow (.inr (.inr ⟨_, rfl⟩)) _
    | r16 r => cases h; exact popped.setReg16 (.tail _ (.head _)) _
    | rm16 d => cases h; exact popped.put16 (List.subset_cons_self _ _) _
  | popf => cases h; exact (start.drop16 (.head _)).withFlags (agreeBut_all _ _)
  | push src => cases h; exact start.push16 (.head _) _
  | pushf => cases h; exact start.nextDraw.push16 (.head _) _
  | sahf => cases h; exact start.withFlags (s.flags.loadLow_agree _)
  | xchg f =>
    cases f with
    | r8Rm8 r rm =>
      cases h
      exact Within.underLock (e := Instr.effect s _) (.inr (.inr (.inr ⟨_, rfl⟩))) fun u =>
        ((Within.refl _ u).put8 (List.subset_cons_self _ _) _).setReg8 (.head _) _
    | r16Rm16 r rm =>
      cases h
      exact Within.underLock (e := Instr.effect s _) (.inr (.inr (.inr ⟨_, rfl⟩))) fun u =>
        ((Within.refl _ u).put16 (List.subset_cons_self _ _) _).setReg16 (.head _) _
    | axR16 r => cases h; exact (start.setReg16 (.tail _ (.head _)) _).setReg16 (.head _) _
  | xlat => cases h; exact start.setReg8 (.head _) _
  -- 41_arithmetic.md
  | aaa | aas => cases h; exact start.asciiAdjust (.head _) (List.Subset.refl _) _ _
  | aad | aam => cases h; exact ((start.setReg16 (.head _) _).withFlags (Flags.asciiScaled_agree _ _ _)).nextDraw
  | adc f =>
    cases h
    exact start.combineWithCarry (List.Subset.refl _) (fun a b fl => addFlags_agree a b fl.CF fl) (List.Subset.refl _)
  | add f => cases h; exact start.combine (List.Subset.refl _) fun a b fl => addFlags_agree a b false fl
  | cbw => cases h; exact start.setReg16 (.head _) _
  | cmp f => cases h; exact start.compare fun a b fl => subFlags_agree a b false fl
  | cwd => cases h; exact start.setReg16 (.head _) _
  | daa | das => cases h; exact start.decimalAdjust (.head _) (List.Subset.refl _) _ _
  | dec f => cases h; exact start.modify (List.Subset.refl _) fun a fl => Flags.keepCF_agree (subFlags_agree a 1 false fl)
  | div f => exact execDiv_within h
  | idiv f => exact execIdiv_within h
  | imul f | mul f =>
    cases f with
    | rm8 d => cases h; exact ((start.setReg16 (.head _) _).withFlags (Flags.multiplied_agree _ _ _)).nextDraw
    | rm16 d =>
      cases h
      exact ((start.setDxAx (.tail _ (.head _)) (.head _) _).withFlags (Flags.multiplied_agree _ _ _)).nextDraw
  | inc f => cases h; exact start.modify (List.Subset.refl _) fun a fl => Flags.keepCF_agree (addFlags_agree a 1 false fl)
  | neg f => cases h; exact start.modify (List.Subset.refl _) fun a fl => subFlags_agree 0 a false fl
  | sbb f =>
    cases h
    exact start.combineWithCarry (List.Subset.refl _) (fun a b fl => subFlags_agree a b fl.CF fl) (List.Subset.refl _)
  | sub f => cases h; exact start.combine (List.Subset.refl _) fun a b fl => subFlags_agree a b false fl
  -- 42_logic_shift.md
  | and f => cases h; exact start.nextDraw.combine (List.Subset.refl _) fun a b fl => fl.logic_agree _ (a &&& b)
  | not f => cases h; exact start.modify (List.Subset.refl _) fun _ fl => .refl _ fl
  | or f => cases h; exact start.nextDraw.combine (List.Subset.refl _) fun a b fl => fl.logic_agree _ (a ||| b)
  | rcl f | rcr f => cases h; exact rotateThroughCarry_within rfl rfl _
  | rol f | ror f => cases h; exact rotate_within rfl rfl _
  | sal f | sar f | shr f => cases h; exact shift_within rfl rfl _
  | test f => cases h; exact start.nextDraw.compare fun a b fl => fl.logic_agree _ (a &&& b)
  | xor f => cases h; exact start.nextDraw.combine (List.Subset.refl _) fun a b fl => fl.logic_agree _ (a ^^^ b)
  -- 43_string.md
  | cmps w =>
    cases h
    exact Within.stringStep rfl (fun hel hz => mem_ite_of_pos hel (List.mem_append_right _ (cx_mem_repeatCount hz)))
      fun hel => start.cmpsElement (mem_ite_of_pos hel (.head _)) (mem_ite_of_pos hel (.tail _ (.head _)))
        (subset_ite_of_pos hel) w
  | lods w =>
    cases h
    exact Within.stringStep rfl (fun hel hz => mem_ite_of_pos hel (List.mem_append_right _ (cx_mem_repeatCount hz)))
      fun hel => start.lodsElement (mem_ite_of_pos hel (.head _)) (mem_ite_of_pos hel (.tail _ (.head _))) w
  | movs w =>
    cases h
    exact Within.stringStep rfl (fun hel hz => mem_ite_of_pos hel (List.mem_append_right _ (cx_mem_repeatCount hz)))
      fun hel => start.movsElement (mem_ite_of_pos hel (.head _)) (mem_ite_of_pos hel (.tail _ (.head _))) w
  | scas w =>
    cases h
    exact Within.stringStep rfl (fun hel hz => mem_ite_of_pos hel (List.mem_append_right _ (cx_mem_repeatCount hz)))
      fun hel => start.scasElement (mem_ite_of_pos hel (.head _)) (subset_ite_of_pos hel) w
  | stos w =>
    cases h
    exact Within.stringStep rfl (fun hel hz => mem_ite_of_pos hel (List.mem_append_right _ (cx_mem_repeatCount hz)))
      fun hel => start.stosElement (mem_ite_of_pos hel (.head _)) w
  | rep | repe | repne => cases h; exact start.setRepeatWith rfl _
  -- 44_control_transfer.md
  | callNear inc => cases h; exact (start.push16 (.head _) _).branch rfl _
  | callNearIndirect target => cases h; exact (start.push16 (.head _) _).withIp rfl _
  | callFar | callFarIndirect => cases h; exact ((start.push16 (.head _) _).push16 (.head _) _).jumpFar rfl (.head _) _ _
  | int3 | int => cases h; exact start.interrupt (.head _) (.head _) (List.Subset.refl _) rfl _
  | into =>
    cases h
    split
    · next hc =>
      exact (start.chosen _).interrupt (mem_ite_of_pos hc (.head _)) (mem_ite_of_pos hc (.head _)) (subset_ite_of_pos hc) hc _
    · exact start.chosen _
  | iret =>
    cases h
    exact ((((start.drop16 (.head _)).drop16 (.head _)).drop16 (.head _)).jumpFar rfl (.head _) _ _).withFlags
      (agreeBut_all _ _)
  | jo inc | jno inc | jb inc | jae inc | je inc | jne inc | jbe inc | js inc | jns inc | jp inc | jnp inc | jl inc
  | jge inc | jle inc | jc inc | jnc inc => cases h; exact start.jumpIf id inc
  | ja inc => cases h; exact start.jumpIf (fun hc => (congrArg (s.choose _) (Bool.not_or _ _)).trans hc) inc
  | jg inc => cases h; exact start.jumpIf (fun hc => (congrArg (s.choose _) (greater_condition _ _ _)).trans hc) inc
  | jcxz inc => cases h; exact start.branchIf id inc
  | jmpNear | jmpShort => cases h; exact start.branch rfl _
  | jmpFar | jmpFarIndirect => cases h; exact start.jumpFar rfl (.head _) _ _
  | jmpNearIndirect target => cases h; exact start.withIp rfl _
  | loop inc => cases h; exact (start.setReg16 (.head _) _).branchIf (fun hc => by rwa [cx_sub_one_ne_zero] at hc) inc
  | loope inc | loopne inc =>
    cases h; exact ((start.chosen _).setReg16 (.head _) _).branchIf (fun hc => by rwa [cx_sub_one_ne_zero] at hc) inc
  | retNear => cases h; exact (start.drop16 (.head _)).withIp rfl _
  | retNearPop n => cases h; exact ((start.drop16 (.head _)).withIp rfl _).setReg16 (.head _) _
  | retFar => cases h; exact ((start.drop16 (.head _)).drop16 (.head _)).jumpFar rfl (.head _) _ _
  | retFarPop n =>
    cases h; exact (((start.drop16 (.head _)).drop16 (.head _)).jumpFar rfl (.head _) _ _).setReg16 (.head _) _
  -- 45_processor_control.md
  | clc | stc | cmc => cases h; exact start.withFlags (s.flags.withCF_agree _ _)
  | cld | std => cases h; exact start.withFlags (s.flags.withDF_agree _)
  | cli => cases h; exact start.withFlags (s.flags.withIF_agree _)
  | esc opcode source =>
    cases source with
    | reg r => cases h; exact start.emit (.inr (.inr (.inl ⟨_, _, rfl⟩))) rfl
    | mem m => cases h; exact start.emit (.inr (.inr (.inl ⟨_, _, rfl⟩))) rfl
  | hlt => cases h; exact start.setHalted rfl _
  | lock => cases h; exact start.setLockPrefix rfl _
  | nop => cases h; exact start
  | sti =>
    cases h
    split
    · exact start
    · exact (start.withFlags (s.flags.withIF_agree _)).openWindow (.inl rfl) _
  | wait => cases h; exact start.setWaiting rfl _
  | esOverride | csOverride | ssOverride | dsOverride => cases h; exact start.setSegOverride rfl _

/-- Settles O42: the register and segment lists of the instruction's effect. -/
theorem onlyListedRegistersChange : Obligations.OnlyListedRegistersChange := fun _ _ _ h =>
  ⟨(exec_within h).reg, (exec_within h).seg⟩

/-- Settles O43: the flag list of the instruction's effect. -/
theorem onlyListedFlagsChange : Obligations.OnlyListedFlagsChange := fun _ _ _ h => (exec_within h).flag

/-- Settles O44: the control state of the instruction's effect. -/
theorem otherStateFrame : Obligations.OtherStateFrame := by
  intro i s t h
  have w := exec_within h
  refine ⟨fun hj => w.ip (ne_true_of_eq_false hj), w.halted, w.waiting, fun hsti hseg hpop => w.window ?_,
    fun hp => ⟨w.segOverride ?_, w.repeatWith ?_, w.lockPrefix ?_⟩, fun hs => w.repeating (ne_true_of_eq_false hs),
    fun hin hout hesc hxchg => w.events ?_, w.lockOutput, w.nmiPending, w.inputs, w.ipStart⟩
  · rintro (rfl | ⟨q, r, rfl⟩ | ⟨q, rfl⟩)
    exacts [hsti rfl, hseg q r rfl, hpop q rfl]
  iterate 3 exact ne_true_of_eq_false hp
  · rintro (⟨_, _, rfl⟩ | ⟨_, _, rfl⟩ | ⟨_, _, rfl⟩ | ⟨_, rfl⟩)
    exacts [hin _ _ rfl, hout _ _ rfl, hesc _ _ rfl, hxchg _ rfl]

end Sys2Proof
end

section
/-! PROOFS. What the decoder answers is a well-formed instruction, and the bytes it used up are that instruction's encoding
(`30_encoding.md` R100 to R126). -/

namespace Sys2Proof

/-! ## Entries of the opcode map that answer what was written -/

/-- `bytes` are the encoding of the well-formed instruction `i`. -/
structure WrittenAs (i : Instr) (bytes : List Byte) : Prop where
  wellFormed : i.wellFormed = true
  bytes_eq : encode i = bytes

/-- After the bytes `start`, whatever the tail reads completes an encoding. -/
def Tail.Sound (start : List Byte) : Tail → Prop
  | .done i => WrittenAs i start
  | .imm8 f => ∀ b, WrittenAs (f b) (start ++ [b])
  | .imm16 f => ∀ v, WrittenAs (f v) (start ++ wordBytes v)
  | .far f => ∀ ip cs, WrittenAs (f ip cs) (start ++ wordBytes ip ++ wordBytes cs)
  | .base10 _ i => WrittenAs i (start ++ [0x0A])
  | .refuse _ => True

/-- The entry of the first byte `b1` reads encodings that begin with `b1`. -/
def Layout.Sound (b1 : Byte) : Layout → Prop
  | .plain t => t.Sound [b1]
  | .modrm f => ∀ reg rm, rm.wellFormed = true → (f reg rm).Sound (b1 :: encodeModRM reg rm)

/-- A tail that is sound reads an encoding. -/
theorem Tail.Sound.parse {start : List Byte} {t : Tail} (h : t.Sound start) {bytes rest : List Byte} {i : Instr}
    (hp : t.parse bytes = .ok (i, rest)) : i.wellFormed = true ∧ start ++ bytes = encode i ++ rest := by
  unfold Tail.parse at hp
  split at hp
  · cases hp; exact ⟨h.wellFormed, by rw [h.bytes_eq]⟩
  · next f b tail => cases hp; exact ⟨(h b).wellFormed, by simp [(h b).bytes_eq]⟩
  · next f lo hi tail =>
    cases hp
    exact ⟨(h _).wellFormed, by simp [(h (wordOf hi lo)).bytes_eq]⟩
  · next f ipLo ipHi csLo csHi tail =>
    cases hp
    exact ⟨(h _ _).wellFormed, by simp [(h (wordOf ipHi ipLo) (wordOf csHi csLo)).bytes_eq]⟩
  · split at hp
    · next hb => cases hp; subst hb; exact ⟨h.wellFormed, by simp [WrittenAs.bytes_eq h]⟩
    · cases hp
  · cases hp
  · cases hp

/-! ## The parts of the map -/

theorem sub_code_cases (n : BitVec 3) : n = 0 ∨ n = 1 ∨ n = 2 ∨ n = 3 ∨ n = 4 ∨ n = 5 ∨ n = 6 ∨ n = 7 := by
  revert n
  decide

theorem encode_aluInstr (n : BitVec 3) (f : AluForm) : encode (aluInstr n f) = f.encode n := by
  rcases sub_code_cases n with rfl | rfl | rfl | rfl | rfl | rfl | rfl | rfl <;> rfl

/-- AND, OR and XOR list the forms of opcodes 80 and 81, the other five also those of 82 and 83 (`30_encoding.md` R122). -/
theorem wellFormed_aluInstr {n : BitVec 3} {f : AluForm} (hf : f.wellFormed = true)
    (hl : f.listedForLogic = true ∨ listedUnder82 n = true) : (aluInstr n f).wellFormed = true := by
  have logic : listedUnder82 n = false → (f.listedForLogic && f.wellFormed) = true := fun h => by simp_all
  rcases sub_code_cases n with rfl | rfl | rfl | rfl | rfl | rfl | rfl | rfl
  exacts [hf, logic rfl, hf, hf, logic rfl, hf, logic rfl, hf]

@[simp] theorem RM.wellFormed_r8 (rm : RM (BitVec 3)) : rm.r8.wellFormed = rm.wellFormed := RM.wellFormed_map _ rm
@[simp] theorem RM.wellFormed_r16 (rm : RM (BitVec 3)) : rm.r16.wellFormed = rm.wellFormed := RM.wellFormed_map _ rm

section Groups
variable {start : List Byte} {b1 : Byte} {reg : BitVec 3} {rm : RM (BitVec 3)}

theorem shiftInstr_sound {f : ShiftForm} (hf : f.wellFormed = true) (he : f.encode reg = start) :
    (shiftInstr b1 reg f).Sound start := by
  rcases sub_code_cases reg with rfl | rfl | rfl | rfl | rfl | rfl | rfl | rfl
  case inr.inr.inr.inr.inr.inr.inl => trivial
  all_goals exact ⟨hf, he⟩

theorem group3_sound {f : UnaryForm} (hf : f.wellFormed = true) (he : f.encode reg = start) :
    (group3 b1 reg f).Sound start := by
  rcases sub_code_cases reg with rfl | rfl | rfl | rfl | rfl | rfl | rfl | rfl
  case inl | inr.inl => trivial
  all_goals exact ⟨hf, he⟩

theorem memoryOperand_sound {f : Mem → Instr} (h : ∀ m, rm = .mem m → WrittenAs (f m) start) :
    (memoryOperand b1 rm f).Sound start := by
  cases rm with
  | reg r => trivial
  | mem m => exact h m rfl

theorem onlySubcode0_sound {t : Tail} (h : reg = 0 → t.Sound start) : (onlySubcode0 b1 reg t).Sound start := by
  unfold onlySubcode0
  split
  · next h0 => exact h h0
  · trivial

/-- REG of a segment MOV is `0 ++ SR` (`40_data_transfer.md` R207). -/
theorem setWidth_segment_code (n : BitVec 3) : n.getLsbD 2 = false → (n.extractLsb' 0 2).setWidth 3 = n := by
  revert n
  decide

theorem movSegment_sound {t : SegReg → Tail} (h : ∀ q : SegReg, q.bits.setWidth 3 = reg → (t q).Sound start) :
    (movSegment b1 reg t).Sound start := by
  unfold movSegment
  split
  · trivial
  · next h2 =>
    refine h _ ?_
    rw [SegReg.bits_ofBits]
    exact setWidth_segment_code reg (Bool.eq_false_of_not_eq_true h2)

theorem group5_sound (h : rm.wellFormed = true) : (group5 reg rm).Sound (0xFF :: encodeModRM reg rm) := by
  have hw : rm.r16.wellFormed = true := by rwa [RM.wellFormed_r16]
  have he : ∀ n, 0xFF :: encodeModRM n (rm.r16.map Reg16.bits) = 0xFF :: encodeModRM n rm := fun n => by
    rw [RM.map_bits_r16]
  rcases sub_code_cases reg with rfl | rfl | rfl | rfl | rfl | rfl | rfl | rfl
  · exact ⟨hw, he 0⟩
  · exact ⟨hw, he 1⟩
  · exact ⟨hw, he 2⟩
  · exact memoryOperand_sound fun m hm => by subst hm; exact ⟨h, rfl⟩
  · exact ⟨hw, he 4⟩
  · exact memoryOperand_sound fun m hm => by subst hm; exact ⟨h, rfl⟩
  · exact ⟨hw, he 6⟩
  · trivial

end Groups

/-! ## The rows of the map (`30_encoding.md` R121) -/

/-- The entries of `row` read encodings that begin with `k`, `k + 1` and so on. -/
def RowSound : Nat → List Layout → Prop
  | _, [] => True
  | k, l :: ls => l.Sound (BitVec.ofNat 8 k) ∧ RowSound (k + 1) ls

theorem RowSound.append {k : Nat} {row more : List Layout} (h : RowSound k row) (hm : RowSound (k + row.length) more) :
    RowSound k (row ++ more) := by
  induction row generalizing k with
  | nil => exact hm
  | cons l ls ih =>
    refine ⟨h.1, ih h.2 ?_⟩
    rwa [List.length_cons, Nat.add_comm ls.length, ← Nat.add_assoc] at hm

theorem RowSound.getElem {k : Nat} {row : List Layout} (h : RowSound k row) {j : Nat} (hj : j < row.length) :
    row[j].Sound (BitVec.ofNat 8 (k + j)) := by
  induction row generalizing k j with
  | nil => cases hj
  | cons l ls ih =>
    cases j with
    | zero => exact h.1
    | succ j =>
      rw [← Nat.add_assoc, Nat.add_right_comm]
      exact ih h.2 (Nat.lt_of_succ_lt_succ hj)

/-- The first six opcodes of an ALU instruction (`41_arithmetic.md` R240). -/
theorem aluRow_sound {mk : AluForm → Instr} {n : BitVec 3} {k : Nat} (hk : n.setWidth 8 <<< 3 = BitVec.ofNat 8 k)
    (he : ∀ f, encode (mk f) = f.encode n) (hw : ∀ f, f.listedForLogic = true → f.wellFormed = true → (mk f).wellFormed = true) :
    RowSound k (aluRow mk) := by
  refine ⟨?_, ?_, ?_, ?_, fun b => ⟨hw _ rfl rfl, ?_⟩, fun v => ⟨hw _ rfl rfl, ?_⟩, trivial⟩
  iterate 4
    exact fun reg rm h => ⟨hw _ rfl (by simpa [AluForm.wellFormed] using h), by
      simp [he, AluForm.encode, hk, BitVec.ofNat_add, BitVec.add_assoc]⟩
  all_goals simp [he, AluForm.encode, hk, BitVec.ofNat_add, BitVec.add_assoc]

theorem map0_sound : RowSound 0x00 map0 := by
  have add : RowSound 0x00 (aluRow .add) := aluRow_sound (n := 0) rfl (fun _ => rfl) fun _ _ h => h
  have or : RowSound 0x08 (aluRow .or) :=
    aluRow_sound (n := 1) rfl (fun _ => rfl) fun _ hl h => by simp [Instr.wellFormed, hl, h]
  have es : RowSound 0x06 [one (.push (.seg .es)), one (.pop (.seg .es))] := ⟨⟨rfl, rfl⟩, ⟨rfl, rfl⟩, trivial⟩
  have cs : RowSound 0x0E [one (.push (.seg .cs)), unlisted 0x0F] := ⟨⟨rfl, rfl⟩, trivial, trivial⟩
  exact ((add.append es).append or).append cs

theorem map1_sound : RowSound 0x10 map1 := by
  have adc : RowSound 0x10 (aluRow .adc) := aluRow_sound (n := 2) rfl (fun _ => rfl) fun _ _ h => h
  have sbb : RowSound 0x18 (aluRow .sbb) := aluRow_sound (n := 3) rfl (fun _ => rfl) fun _ _ h => h
  have ss : RowSound 0x16 [one (.push (.seg .ss)), one (.pop (.seg .ss))] := ⟨⟨rfl, rfl⟩, ⟨rfl, rfl⟩, trivial⟩
  have ds : RowSound 0x1E [one (.push (.seg .ds)), one (.pop (.seg .ds))] := ⟨⟨rfl, rfl⟩, ⟨rfl, rfl⟩, trivial⟩
  exact ((adc.append ss).append sbb).append ds

theorem map2_sound : RowSound 0x20 map2 := by
  have and : RowSound 0x20 (aluRow .and) :=
    aluRow_sound (n := 4) rfl (fun _ => rfl) fun _ hl h => by simp [Instr.wellFormed, hl, h]
  have sub : RowSound 0x28 (aluRow .sub) := aluRow_sound (n := 5) rfl (fun _ => rfl) fun _ _ h => h
  have daa : RowSound 0x26 [one .esOverride, one .daa] := ⟨⟨rfl, rfl⟩, ⟨rfl, rfl⟩, trivial⟩
  have das : RowSound 0x2E [one .csOverride, one .das] := ⟨⟨rfl, rfl⟩, ⟨rfl, rfl⟩, trivial⟩
  exact ((and.append daa).append sub).append das

theorem map3_sound : RowSound 0x30 map3 := by
  have xor : RowSound 0x30 (aluRow .xor) :=
    aluRow_sound (n := 6) rfl (fun _ => rfl) fun _ hl h => by simp [Instr.wellFormed, hl, h]
  have cmp : RowSound 0x38 (aluRow .cmp) := aluRow_sound (n := 7) rfl (fun _ => rfl) fun _ _ h => h
  have aaa : RowSound 0x36 [one .ssOverride, one .aaa] := ⟨⟨rfl, rfl⟩, ⟨rfl, rfl⟩, trivial⟩
  have aas : RowSound 0x3E [one .dsOverride, one .aas] := ⟨⟨rfl, rfl⟩, ⟨rfl, rfl⟩, trivial⟩
  exact ((xor.append aaa).append cmp).append aas

theorem map4_sound : RowSound 0x40 map4 := by
  simp only [map4, allReg16, List.map_cons, List.map_nil, List.cons_append, List.nil_append, RowSound, one, Layout.Sound,
    Tail.Sound, and_true]
  and_intros
  all_goals exact ⟨rfl, rfl⟩

theorem map5_sound : RowSound 0x50 map5 := by
  simp only [map5, allReg16, List.map_cons, List.map_nil, List.cons_append, List.nil_append, RowSound, one, Layout.Sound,
    Tail.Sound, and_true]
  and_intros
  all_goals exact ⟨rfl, rfl⟩

theorem map6_sound : RowSound 0x60 map6 := by
  simp only [map6, RowSound, unlisted, Layout.Sound, Tail.Sound, and_true]

theorem map7_sound : RowSound 0x70 map7 := by
  simp only [map7, RowSound, rel8, Layout.Sound, Tail.Sound, and_true]
  and_intros
  all_goals exact fun _ => ⟨rfl, rfl⟩

theorem map9_sound : RowSound 0x90 map9 := by
  simp only [map9, allReg16, List.tail_cons, List.map_cons, List.map_nil, List.cons_append, List.nil_append, RowSound, one,
    Layout.Sound, Tail.Sound, and_true]
  and_intros
  all_goals intros; exact ⟨rfl, rfl⟩

theorem mapA_sound : RowSound 0xA0 mapA := by
  simp only [mapA, RowSound, one, Layout.Sound, Tail.Sound, and_true]
  and_intros
  all_goals intros; exact ⟨rfl, rfl⟩

theorem mapB_sound : RowSound 0xB0 mapB := by
  simp only [mapB, allReg8, allReg16, List.map_cons, List.map_nil, List.cons_append, List.nil_append, RowSound,
    Layout.Sound, Tail.Sound, and_true]
  and_intros
  all_goals intros; exact ⟨rfl, rfl⟩

theorem mapE_sound : RowSound 0xE0 mapE := by
  simp only [mapE, RowSound, one, rel8, Layout.Sound, Tail.Sound, and_true]
  and_intros
  all_goals intros; exact ⟨rfl, rfl⟩

theorem map8_sound : RowSound 0x80 map8 := by
  refine ⟨?alu8, ?alu16, ?alt8, ?sext16, ?test8, ?test16, ?xchg8, ?xchg16, ?mov8, ?mov16, ?mov8r, ?mov16r, ?fromSeg, ?lea,
    ?toSeg, ?pop, trivial⟩ <;> intro reg rm h
  case alu8 | alu16 =>
    exact fun v => ⟨wellFormed_aluInstr (by simpa [AluForm.wellFormed] using h) (.inl rfl), by
      simp [encode_aluInstr, AluForm.encode]⟩
  case alt8 | sext16 =>
    show Tail.Sound _ (if _ then _ else _)
    split
    · next hl =>
      exact fun v => ⟨wellFormed_aluInstr (by simpa [AluForm.wellFormed] using h) (.inr hl), by
        simp [encode_aluInstr, AluForm.encode]⟩
    · trivial
  case test8 | test16 =>
    exact ⟨by simpa [Instr.wellFormed, TestForm.wellFormed] using h, by simp [encode, TestForm.encode]⟩
  case xchg8 | xchg16 =>
    exact ⟨by simpa [Instr.wellFormed, XchgForm.wellFormed] using h, by simp [encode, XchgForm.encode]⟩
  case mov8 | mov16 | mov8r | mov16r =>
    exact ⟨by simpa [Instr.wellFormed, MovForm.wellFormed] using h, by simp [encode, MovForm.encode]⟩
  case fromSeg => exact movSegment_sound fun q hq => ⟨by simpa [Instr.wellFormed] using h, by simp [encode, hq]⟩
  case lea => exact memoryOperand_sound fun m hm => by subst hm; exact ⟨h, by simp [encode]⟩
  case toSeg =>
    refine movSegment_sound fun q hq => ?_
    show Tail.Sound _ (if _ then _ else _)
    split
    · trivial
    · next hcs => exact ⟨by simpa [Instr.wellFormed, hcs] using h, by simp [encode, hq]⟩
  case pop =>
    exact onlySubcode0_sound fun h0 =>
      ⟨by simpa [Instr.wellFormed, StackForm.poppable, StackForm.wellFormed] using h, by simp [encode, h0]⟩

theorem mapC_sound : RowSound 0xC0 mapC := by
  refine ⟨trivial, trivial, fun _ => ⟨rfl, rfl⟩, ⟨rfl, rfl⟩, ?les, ?lds, ?mov8, ?mov16, trivial, trivial, fun _ => ⟨rfl, rfl⟩,
    ⟨rfl, rfl⟩, ⟨rfl, rfl⟩, fun _ => ⟨rfl, rfl⟩, ⟨rfl, rfl⟩, ⟨rfl, rfl⟩, trivial⟩ <;> intro reg rm h
  case les | lds => exact memoryOperand_sound fun m hm => by subst hm; exact ⟨h, by simp [encode]⟩
  case mov8 | mov16 =>
    exact onlySubcode0_sound fun h0 _ =>
      ⟨by simpa [Instr.wellFormed, MovImmForm.wellFormed] using h, by simp [encode, MovImmForm.encode, h0]⟩

/-- The six bits of an ESC opcode are the two halves it is written in (`45_processor_control.md` R424). -/
theorem esc_opcode_high (x y : BitVec 3) : (x ++ y).extractLsb' 3 3 = x := by
  revert x y
  decide

theorem esc_opcode_low (x y : BitVec 3) : (x ++ y).extractLsb' 0 3 = y := by
  revert x y
  decide

theorem esc_sound (x : BitVec 3) {b1 : Byte} (hb : opcodeWith 0xD8 x = b1) :
    (Layout.modrm fun reg rm => .done (.esc (x ++ reg) rm.r16)).Sound b1 := by
  subst hb
  exact fun reg rm h => ⟨by simpa [Instr.wellFormed] using h, by simp [encode, esc_opcode_high, esc_opcode_low]⟩

theorem mapD_sound : RowSound 0xD0 mapD := by
  refine ⟨?rm8, ?rm16, ?rm8cl, ?rm16cl, ⟨rfl, rfl⟩, ⟨rfl, rfl⟩, trivial, ⟨rfl, rfl⟩, esc_sound 0 rfl, esc_sound 1 rfl,
    esc_sound 2 rfl, esc_sound 3 rfl, esc_sound 4 rfl, esc_sound 5 rfl, esc_sound 6 rfl, esc_sound 7 rfl, trivial⟩
  all_goals
    intro reg rm h
    exact shiftInstr_sound (by simpa [ShiftForm.wellFormed] using h) (by simp [ShiftForm.encode])

theorem mapF_sound : RowSound 0xF0 mapF := by
  refine ⟨⟨rfl, rfl⟩, trivial, ⟨rfl, rfl⟩, ⟨rfl, rfl⟩, ⟨rfl, rfl⟩, ⟨rfl, rfl⟩, ?f6, ?f7, ⟨rfl, rfl⟩, ⟨rfl, rfl⟩, ⟨rfl, rfl⟩,
    ⟨rfl, rfl⟩, ⟨rfl, rfl⟩, ⟨rfl, rfl⟩, ?fe, fun _ _ => group5_sound, trivial⟩ <;> intro reg rm h
  case f6 | f7 =>
    show Tail.Sound _ (if _ then _ else _)
    split
    · next h0 => exact fun _ => ⟨by simpa [Instr.wellFormed, TestForm.wellFormed] using h, by simp [encode, TestForm.encode, h0]⟩
    · exact group3_sound (by simpa [UnaryForm.wellFormed] using h) (by simp [UnaryForm.encode])
  case fe =>
    show Tail.Sound _ (if _ then _ else if _ then _ else _)
    split
    · next h0 => exact ⟨by simpa [Instr.wellFormed, IncForm.wellFormed] using h, by simp [encode, IncForm.encode, h0]⟩
    · split
      · next h1 => exact ⟨by simpa [Instr.wellFormed, IncForm.wellFormed] using h, by simp [encode, IncForm.encode, h1]⟩
      · trivial

/-! ## The whole map -/

theorem RowSound.append_row {k n : Nat} {rows row : List Layout} (h : RowSound k rows ∧ rows.length = n)
    (hr : RowSound (k + n) row) (hlen : row.length = 16) : RowSound k (rows ++ row) ∧ (rows ++ row).length = n + 16 := by
  obtain ⟨hs, rfl⟩ := h
  exact ⟨hs.append hr, by rw [List.length_append, hlen]⟩

theorem opcodeMap_sound : RowSound 0 opcodeMap ∧ opcodeMap.length = 256 := by
  have r0 : RowSound 0 map0 ∧ map0.length = 16 := ⟨map0_sound, rfl⟩
  have r3 := RowSound.append_row (RowSound.append_row (RowSound.append_row r0 map1_sound rfl) map2_sound rfl) map3_sound rfl
  have r7 := RowSound.append_row (RowSound.append_row (RowSound.append_row (RowSound.append_row r3 map4_sound rfl)
    map5_sound rfl) map6_sound rfl) map7_sound rfl
  have rB := RowSound.append_row (RowSound.append_row (RowSound.append_row (RowSound.append_row r7 map8_sound rfl)
    map9_sound rfl) mapA_sound rfl) mapB_sound rfl
  exact RowSound.append_row (RowSound.append_row (RowSound.append_row (RowSound.append_row rB mapC_sound rfl)
    mapD_sound rfl) mapE_sound rfl) mapF_sound rfl

theorem layout_sound (b1 : Byte) : (layout b1).Sound b1 := by
  obtain ⟨hs, hlen⟩ := opcodeMap_sound
  have hb : b1.toNat < opcodeMap.length := hlen ▸ b1.isLt
  have h := hs.getElem hb
  rw [Nat.zero_add, BitVec.ofNat_toNat, BitVec.setWidth_eq] at h
  unfold layout
  rwa [List.getD_eq_getElem _ _ hb]

/-- Whatever the decoder reads is a well-formed instruction, and the bytes it used up are the instruction's encoding. -/
theorem decode_sound {bytes rest : List Byte} {i : Instr} (h : decode bytes = .ok (i, rest)) :
    i.wellFormed = true ∧ bytes = encode i ++ rest := by
  unfold decode at h
  split at h
  · cases h
  · next b1 tail =>
    have hs := layout_sound b1
    split at h
    · next t ht =>
      rw [ht] at hs
      exact Tail.Sound.parse hs h
    · next f hf =>
      rw [hf] at hs
      split at h
      · cases h
      · next reg rm more hm =>
        obtain ⟨htail, hw⟩ := encodeModRM_of_decodeModRM hm
        obtain ⟨hi, hb⟩ := (hs reg rm hw).parse h
        exact ⟨hi, by rw [htail, ← hb, List.cons_append]⟩

end Sys2Proof
end

section
/-! PROOFS. What a step fetches and runs (`10_state.md` R25, `20_memory.md` R61, R62, `60_exceptions.md` R510, R511). -/

namespace Sys2Proof.Machine

open Sys2Proof

/-! ## The bytes fetched -/

theorem State.fetch_length (s : State) : s.fetch.length = 6 := by
  rw [State.fetch, List.length_map, List.length_range, maxInstrBytes]

/-- The byte `k` places into the instruction: offsets wrap mod 2^16 (`20_memory.md` R61, R62). -/
theorem State.fetch_getElem? (s : State) {k : Nat} (hk : k < 6) :
    s.fetch[k]? = some (s.byteAt (BitVec.ofNat 20 (s.segs.cs.toNat * 16 + (s.ip.toNat + k) % 65536))) := by
  rw [State.fetch, List.getElem?_map, List.getElem?_range (by exact hk)]
  simp only [Option.map_some, phys, BitVec.toNat_add, BitVec.toNat_ofNat, Nat.add_mod_mod]

/-- What is decoded from the bytes fetched is well-formed and as long as the bytes used up. -/
theorem State.decode_fetch {s : State} {i : Instr} {rest : List Byte} (h : decode s.fetch = .ok (i, rest)) :
    i.wellFormed = true ∧ maxInstrBytes - rest.length = (encode i).length := by
  obtain ⟨hw, hb⟩ := decode_sound h
  have hlen := s.fetch_length
  rw [hb, List.length_append] at hlen
  exact ⟨hw, by rw [maxInstrBytes]; omega⟩

theorem State.staleBytes_eq_false {s : State} {len : Nat}
    (h : ∀ k, k < len → phys s.segs.cs (s.ip + BitVec.ofNat 16 k) ∉ s.staleCode) : s.staleBytes len = false := by
  simpa [State.staleBytes] using h

/-! ## The instruction that is due -/

theorem State.due_next {s : State} {i : Instr} {rest : List Byte} (hw : s.waiting = false) (hr : s.repeating = none)
    (hd : decode s.fetch = .ok (i, rest))
    (hs : ∀ k, k < (encode i).length → phys s.segs.cs (s.ip + BitVec.ofNat 16 k) ∉ s.staleCode)
    (hm : s.repeatMeaningless i = false) : s.due = .ok (i, s.begin (encode i).length) := by
  obtain ⟨-, hlen⟩ := State.decode_fetch hd
  simp [State.due, hw, hr, hd, hlen, hm, State.staleBytes_eq_false hs]

theorem State.due_repeating {s : State} {i : Instr} (hw : s.waiting = false) (hr : s.repeating = some i) :
    s.due = .ok (i, s.openWindow .closed) := by simp [State.due, hw, hr]

theorem State.due_waiting {s : State} (hw : s.waiting = true) : s.due = .ok (.wait, s.openWindow .closed) := by
  simp [State.due, hw]

/-! ## LOCK while an instruction runs (`45_processor_control.md` R426) -/

/-- What the environment has seen once LOCK is active for an instruction that LOCK belongs to. -/
def State.lockedEvents (s : State) : List BusEvent :=
  if s.lockPrefix = true ∧ s.lockOutput = false then .lock true :: s.events else s.events

theorem State.assertLock_of_isPrefix {i : Instr} (h : i.isPrefix = true) (s : State) : s.assertLock i = s := by
  simp [State.assertLock, h]

theorem State.assertLock_eq {i : Instr} (h : i.isPrefix = false) (s : State) :
    s.assertLock i = { s with events := s.lockedEvents } := by
  by_cases hp : s.lockPrefix = true
  · have locked : s.assertLock i = s.setLock true := by simp [State.assertLock, hp, h]
    have events : s.lockedEvents = (s.setLock true).events := by
      cases ho : s.lockOutput <;> simp [State.lockedEvents, hp, ho]
    rw [locked, events]
    rfl
  · have idle : s.assertLock i = s := by simp [State.assertLock, hp]
    have events : s.lockedEvents = s.events := by simp [State.lockedEvents, hp]
    rw [idle, events]

/-! ## The step -/

theorem State.enter_inputs (t : Byte) (s : State) : (s.enter t).inputs = s.inputs := by
  show s.resumePoint.inputs = s.inputs
  unfold State.resumePoint
  split <;> [rfl; split <;> rfl]

/-- The boundary after an instruction leaves the samples of the input lines alone. -/
theorem State.complete_inputs (i : Instr) (w : Window) (tf : Bool) (s : State) : (s.complete i w tf).inputs = s.inputs := by
  have kept : ∀ (u : State) (b : Bool), u.inputs = s.inputs → (u.recognise b).inputs = s.inputs := fun u b hu =>
    State.recognise_keeps (P := fun v => v.inputs = s.inputs) (fun _ _ hv => hv)
      (fun v t hv => (State.enter_inputs t v).trans hv) hu b
  unfold State.complete
  split
  · rfl
  · split
    · exact kept _ _ rfl
    · split
      · exact kept _ _ rfl
      · exact kept _ _ rfl

theorem andThen_assoc (r : Result) (f g : State → Result) :
    andThen (andThen r f) g = andThen r fun t => andThen (f t) g := by cases r <;> rfl

/-- A step while RESET is not active and no halt holds: the instruction that is due, the boundary after it, the next sample. -/
theorem step_of_due {s : State} (hl : s.lines.reset = none) (hh : s.halted = false) {i : Instr} {b : State}
    (hd : s.latchNmi.due = .ok (i, b)) :
    step s = andThen (exec i (b.assertLock i)) fun t =>
      .next { t.complete i s.window s.flags.TF with inputs := t.inputs.tail } := by
  have hh' : s.latchNmi.halted = false := hh
  have ends : ∀ t : State, (t.complete i s.window s.flags.TF).nextSample =
      { t.complete i s.window s.flags.TF with inputs := t.inputs.tail } := fun t => by
    rw [State.nextSample, State.complete_inputs]
  simp only [step, hl, State.advance, State.runDue, hh', hd, Bool.false_eq_true, if_false, andThen_assoc, andThen_next, ← ends]
  rfl

/-- Settles O50: the three things that can be due, each run by `step_of_due`. -/
theorem stepRunsDecoded : Obligations.StepRunsDecoded := by
  intro s
  refine ⟨⟨s.fetch_length, fun k hk => s.fetch_getElem? hk⟩, fun hl hh => ⟨fun i rest hw hr hd hs hm => ?_,
    fun i hw hr hp => ?_, fun hw => ?_⟩⟩
  · refine ⟨(State.decode_fetch hd).1, ?_⟩
    rw [step_of_due hl hh (State.due_next (s := s.latchNmi) hw hr hd hs hm)]
    cases hp : i.isPrefix with
    | true => rw [State.assertLock_of_isPrefix hp]; rfl
    | false => rw [State.assertLock_eq hp]; rfl
  · rw [step_of_due hl hh (State.due_repeating (s := s.latchNmi) hw hr), State.assertLock_eq hp]
    rfl
  · rw [step_of_due hl hh (State.due_waiting (s := s.latchNmi) hw), State.assertLock_eq rfl]
    rfl

end Sys2Proof.Machine
end

section
/-! PROOFS. Read after write, and the canonical form of memory as a normal form (`20_memory.md` R60 to R69, R106). -/

namespace Sys2Proof.Machine

open Sys2Proof

/-! ## Stores (`20_memory.md` R65, R66, R69) -/

/-- Settles O4: read after write, and the two addresses of a word. -/
theorem storesAreReadBack : Obligations.StoresAreReadBack := by
  intro s seg off v b
  have low : (s.write16 seg off v).read8 seg off = lowByte v := by
    rw [State.read8, State.byteAt_write16, if_neg (phys_ne_next seg off), if_pos rfl]
  have high : (s.write16 seg off v).read8 seg (off + 1) = highByte v := by
    rw [State.read8, State.byteAt_write16, if_pos rfl]
  exact ⟨s.byteAt_write8 seg off b, s.read16_write16_same seg off v, low, high,
    fun _ ha => s.byteAt_put16 v (.mem seg off) ha, rfl⟩

/-! ## The canonical form (`20_memory.md` R60, log 6) -/

/-- The cells of a canonical memory are the addresses that do not read as an unlisted byte, with what they read as. -/
theorem Memory.mem_iff_read {m : Memory} (h : m.wf) (k : Nat) (v : Byte) :
    (k, v) ∈ m ↔ v ≠ Memory.unlisted ∧ m.read k = v := by
  induction m with
  | nil => simpa using fun hv hr => hv hr.symm
  | cons c m ih =>
    obtain ⟨a, w⟩ := c
    obtain ⟨hrise, hcells⟩ := h
    obtain ⟨habove, hrise⟩ := List.pairwise_cons.mp hrise
    have ih := ih ⟨hrise, fun c hc => hcells c (.tail _ hc)⟩
    rw [Memory.read_cons, List.mem_cons, Prod.mk.injEq]
    by_cases hk : a = k
    · subst hk
      have absent : (a, v) ∉ m := fun hm => Nat.lt_irrefl a (habove _ hm)
      have listed : w ≠ Memory.unlisted := (hcells (a, w) (.head _)).1
      rw [if_pos rfl]
      exact ⟨fun hc => hc.elim (fun hv => ⟨hv.2 ▸ listed, hv.2.symm⟩) (absurd · absent), fun hv => .inl ⟨rfl, hv.2.symm⟩⟩
    · rw [if_neg hk, ← ih]
      exact or_iff_right fun hc => hk hc.1.symm

/-- Settles O5: two lists of strictly rising addresses with the same cells are one list. -/
theorem canonicalMemoryIsUnique : Obligations.CanonicalMemoryIsUnique := by
  intro m m' h h' hread
  have : Std.Irrefl fun c d : Host.Cell => c.1 < d.1 := ⟨fun c => Nat.lt_irrefl c.1⟩
  refine h.1.eq_of_mem_iff h'.1 fun ⟨k, v⟩ => ?_
  rw [Memory.mem_iff_read h, Memory.mem_iff_read h', hread]

/-! ## Effective addresses (`30_encoding.md` R106, R107, `20_memory.md` R61 to R63) -/

/-- Adding a sign-extended byte mod 2^16 is adding the signed byte (decision D3). -/
theorem add_sextByte_toNat (x : Word) (d : Byte) : ((x + sextByte d).toNat : Int) = (x.toNat + d.toInt) % 65536 := by
  have hd : (sextByte d).toInt = d.toInt := BitVec.toInt_signExtend_of_le (by decide)
  have hs : ((sextByte d).toNat : Int) % 65536 = d.toInt % 65536 := by
    rw [← hd, BitVec.toInt_eq_toNat_bmod]
    exact Int.bmod_emod.symm
  rw [BitVec.toNat_add]
  omega

theorem State.memSeg_of_override {s : State} {q : SegReg} (h : s.segOverride = some q) (m : Mem) :
    s.memSeg m = s.sreg q := by
  rw [State.memSeg, State.dataSeg, h, Option.getD_some]

theorem State.memSeg_of_no_override {s : State} (h : s.segOverride = none) (m : Mem) :
    s.memSeg m = s.sreg (defaultSeg m) := by
  rw [State.memSeg, State.dataSeg, h, Option.getD_none]

/-- SS is the default of the forms that use BP, and of no other (`20_memory.md` R62). -/
theorem State.sreg_defaultSeg_based (s : State) (b : EaBase) (x : Disp) :
    s.sreg (defaultSeg (.based b x)) = if b = .bpSi ∨ b = .bpDi ∨ b = .bp then s.segs.ss else s.segs.ds := by
  cases b <;> rfl

/-- Settles O6: the table of base forms, the displacements, the segments, and the physical address. -/
theorem memoryOperandAddresses : Obligations.MemoryOperandAddresses := fun s b d w a _ =>
  ⟨rfl, ⟨rfl, BitVec.add_zero _, rfl, add_sextByte_toNat _ d⟩, State.memSeg_of_override,
    fun hn => ⟨State.memSeg_of_no_override hn _, fun x =>
      (State.memSeg_of_no_override hn _).trans (s.sreg_defaultSeg_based b x)⟩,
    phys_toNat w a⟩

end Sys2Proof.Machine
end

section
/-! PROOFS. Which bytes of memory each instruction stores to, and what that leaves of the prefetch queue (`20_memory.md` R65,
R70, R79, `70_reset_and_hazards.md` R563). -/

namespace Sys2Proof.Machine

open Sys2Proof

/-! ## Memory that changed in listed bytes only -/

/-- From `s` to `t` no byte outside `bytes` changed, and memory kept its canonical form. -/
structure Confined (bytes : List Addr) (s t : State) : Prop where
  frame : SameMemoryBut bytes s t
  canonical : s.mem.wf → t.mem.wf

theorem Confined.of_mem {bytes : List Addr} {s t : State} (h : t.mem = s.mem) : Confined bytes s t where
  frame _ _ := State.byteAt_congr h _
  canonical hs := h ▸ hs

theorem Confined.trans {bytes : List Addr} {s u t : State} (h : Confined bytes s u) (h' : Confined bytes u t) :
    Confined bytes s t where
  frame a ha := (h'.frame a ha).trans (h.frame a ha)
  canonical hs := h'.canonical (h.canonical hs)

theorem Confined.mono {small large : List Addr} {s t : State} (h : Confined small s t) (hs : small ⊆ large) :
    Confined large s t where
  frame a ha := h.frame a fun hm => ha (hs hm)
  canonical := h.canonical

theorem Confined.put8 (s : State) (v : Byte) (l : Loc Reg8) : Confined l.bytes8 s (s.put8 v l) where
  frame _ := s.byteAt_put8 v l
  canonical hs := State.wf_put8 hs v l

theorem Confined.put16 (s : State) (v : Word) (l : Loc Reg16) : Confined l.bytes16 s (s.put16 v l) where
  frame _ := s.byteAt_put16 v l
  canonical hs := State.wf_put16 hs v l

theorem Confined.push16 (s : State) (v : Word) : Confined s.pushBytes s (s.push16 v) where
  frame _ := s.byteAt_push16_ne v
  canonical hs := State.wf_push16 hs v

theorem Confined.interrupt (s : State) (t : Byte) : Confined s.interruptFrame s (s.interrupt t) where
  frame _ := s.byteAt_interrupt_ne t
  canonical hs := State.wf_interrupt hs t

theorem State.pushBytes_push16 (s : State) (v : Word) : (s.push16 v).pushBytes = wordAt s.segs.ss (s.gpr.sp - 4) := by
  simp [State.pushBytes, BitVec.sub_sub]

/-- A far call pushes two words. -/
theorem Confined.farFrame (s : State) (v w : Word) : Confined s.farFrame s ((s.push16 v).push16 w) :=
  ((Confined.push16 s v).mono (List.subset_append_left _ _)).trans
    ((Confined.push16 (s.push16 v) w).mono (s.pushBytes_push16 v ▸ List.subset_append_right _ _))

/-! ## Stores with what the prefetch queue keeps of them -/

/-- From `s` to `t` memory changed in `bytes` only. With a taken control transfer no stale byte is remembered any more; without
one the stores to bytes that may already be fetched are (log 15). -/
structure StoresTo (transfer : Bool) (bytes : List Addr) (s t : State) : Prop extends Confined bytes s t where
  emptied : transfer = true → t.staleCode = []
  noted : transfer = false → ∀ a, a ∈ t.staleCode ↔ a ∈ s.staleCode ∨ (a ∈ bytes ∧ s.prefetched a = true)

/-- From `s` to `u` nothing happened that a store depends on: memory, the remembered bytes, and CS:IP are the same. -/
structure Untouched (s u : State) : Prop where
  mem : u.mem = s.mem
  staleCode : u.staleCode = s.staleCode
  cs : u.segs.cs = s.segs.cs
  ip : u.ip = s.ip

section Rules
variable {transfer : Bool} {bytes : List Addr} {s u t : State}

/-- Nothing was stored and no control transfer taken. -/
theorem StoresTo.nothing (hm : t.mem = s.mem) (hs : t.staleCode = s.staleCode) : StoresTo false [] s t where
  toConfined := .of_mem hm
  emptied := nofun
  noted _ a := by simp [hs]

/-- What was done ends in a taken control transfer. -/
theorem Confined.transferred (h : Confined bytes s u) (hm : t.mem = u.mem) (he : t.staleCode = []) :
    StoresTo true bytes s t where
  toConfined := h.trans (.of_mem hm)
  emptied _ := he
  noted := nofun

/-- A control transfer that stores nothing. -/
theorem StoresTo.jump (hm : t.mem = s.mem) (he : t.staleCode = []) : StoresTo true [] s t :=
  (Confined.of_mem (t := s) rfl).transferred hm he

/-- What is done after a store without touching memory does not matter. -/
theorem StoresTo.keep (h : StoresTo transfer bytes s u) (hm : t.mem = u.mem) (hs : t.staleCode = u.staleCode) :
    StoresTo transfer bytes s t where
  toConfined := h.toConfined.trans (.of_mem hm)
  emptied hj := hs.trans (h.emptied hj)
  noted hj a := by rw [hs, h.noted hj a]

/-- Where what is done depends on a choice that was not made. -/
theorem StoresTo.of_not {c : Bool} (hc : c = false) (h : StoresTo false [] s t) :
    StoresTo c (if c then bytes else []) s t := by
  subst hc
  exact h

/-- Where what is done depends on a choice that was made. -/
theorem StoresTo.of_taken {c : Bool} (hc : c = true) (h : StoresTo true bytes s t) :
    StoresTo c (if c then bytes else []) s t := by
  subst hc
  exact h

/-! What may come before a store -/

theorem Untouched.refl (s : State) : Untouched s s := ⟨rfl, rfl, rfl, rfl⟩

theorem Untouched.withFlags (h : Untouched s u) (f : Flags) : Untouched s (u.withFlags f) := { h with }

theorem Untouched.nextDraw (h : Untouched s u) : Untouched s u.nextDraw := { h with }

theorem Untouched.setReg16 (h : Untouched s u) (r : Reg16) (v : Word) : Untouched s (u.setReg16 r v) := { h with }

theorem Untouched.chosen (h : Untouched s u) (reads : List FlagName) : Untouched s (u.chosen reads) := by
  unfold State.chosen
  split
  · exact h.nextDraw
  · exact h

theorem Untouched.setLock (h : Untouched s u) (b : Bool) : Untouched s (u.setLock b) := { h with }

/-! Places -/

/-- A store is noted as it is in the state where nothing was stored yet. -/
theorem Untouched.mem_noted (h : Untouched s u) (bytes : List Addr) (a : Addr) :
    a ∈ u.noted bytes ↔ a ∈ s.staleCode ∨ (a ∈ bytes ∧ s.prefetched a = true) := by
  rw [State.mem_noted, Or.comm, h.staleCode, State.prefetched_congr h.cs h.ip]

theorem Untouched.put8 (h : Untouched s u) (v : Byte) (l : Loc Reg8) : StoresTo false l.bytes8 s (u.put8 v l) where
  toConfined := (Confined.of_mem h.mem).trans (.put8 u v l)
  emptied := nofun
  noted _ a := by rw [State.put8_rest]; exact h.mem_noted _ a

theorem Untouched.put16 (h : Untouched s u) (v : Word) (l : Loc Reg16) : StoresTo false l.bytes16 s (u.put16 v l) where
  toConfined := (Confined.of_mem h.mem).trans (.put16 u v l)
  emptied := nofun
  noted _ a := by rw [State.put16_rest]; exact h.mem_noted _ a

theorem Untouched.store8 (h : Untouched s u) (seg off : Word) (v : Byte) :
    StoresTo false (bytesAt .byte seg off) s (u.store8 seg off v) := h.put8 v (.mem seg off)

theorem Untouched.store16 (h : Untouched s u) (seg off v : Word) :
    StoresTo false (bytesAt .word seg off) s (u.store16 seg off v) := h.put16 v (.mem seg off)

theorem Untouched.push16 (h : Untouched s u) (v : Word) : StoresTo false u.pushBytes s (u.push16 v) :=
  (h.setReg16 .sp (u.gpr.sp - 2)).store16 _ _ v

/-! Reading, computing and writing back -/

theorem Untouched.assign (h : Untouched s u) (o : Operands) : StoresTo false o.bytes s (u.assign o) := by
  cases o with
  | byte d v => exact h.put8 v d
  | word d v => exact h.put16 v d

theorem Untouched.combine (h : Untouched s u) (op : {n : Nat} → BitVec n → BitVec n → Flags → BitVec n × Flags)
    (o : Operands) : StoresTo false o.bytes s (u.combine op o) := by
  cases o with
  | byte d b => exact (h.withFlags _).put8 _ d
  | word d b => exact (h.withFlags _).put16 _ d

theorem Untouched.combineWithCarry (h : Untouched s u)
    (op : {n : Nat} → BitVec n → BitVec n → Flags → BitVec n × Flags) (o : Operands) :
    StoresTo false o.bytes s (u.combineWithCarry op o) := by
  unfold State.combineWithCarry
  split
  · exact h.nextDraw.combine _ o
  · exact h.combine op o

theorem Untouched.compare (h : Untouched s u) (op : {n : Nat} → BitVec n → BitVec n → Flags → BitVec n × Flags)
    (o : Operands) : StoresTo false [] s (u.compare op o) := by
  cases o with
  | byte d b => exact .nothing h.mem h.staleCode
  | word d b => exact .nothing h.mem h.staleCode

theorem Untouched.modify (h : Untouched s u) (op : {n : Nat} → BitVec n → Flags → BitVec n × Flags) (d : Dest) :
    StoresTo false d.bytes s (u.modify op d) := by
  cases d with
  | byte d => exact (h.withFlags _).put8 _ d
  | word d => exact (h.withFlags _).put16 _ d

/-- A shift by 0 stores nothing (`42_logic_shift.md` R290). -/
theorem Untouched.shift (h : Untouched s u) (step : {n : Nat} → BitVec n × Bool → BitVec n × Bool)
    (flags : {n : Nat} → Nat → Nat → BitVec n → BitVec n → Bool → Flags → Flags) (count : Nat) (d : Dest) :
    StoresTo false (if count = 0 then [] else d.bytes) s (u.shift step flags count d) := by
  by_cases hc : count = 0
  · rw [hc, if_pos rfl, State.shift_zero]
    exact .nothing h.mem h.staleCode
  · rw [if_neg hc, State.shift_count step flags hc]
    exact h.nextDraw.modify _ d

theorem Untouched.shiftThroughCarry (h : Untouched s u) (step : {n : Nat} → BitVec n × Bool → BitVec n × Bool)
    (count : Nat) (d : Dest) :
    StoresTo false (if count = 0 then [] else d.bytes) s (u.shiftThroughCarry step count d) := by
  cases hcf : u.flags.undef.CF with
  | false =>
    rw [State.shiftThroughCarry_defined hcf]
    exact h.shift step _ count d
  | true =>
    by_cases hc : count = 0
    · rw [hc, if_pos rfl, State.shiftThroughCarry_zero]
      exact .nothing h.mem h.staleCode
    · rw [if_neg hc, State.shiftThroughCarry_undef hcf step hc]
      exact h.nextDraw.modify _ d

theorem StoresTo.asciiAdjust (s : State) (units tens : Byte) : StoresTo false [] s (s.asciiAdjust units tens) := by
  unfold State.asciiAdjust
  split <;> exact .nothing rfl rfl

theorem StoresTo.decimalAdjust (s : State) (units tens : Byte) : StoresTo false [] s (s.decimalAdjust units tens) := by
  unfold State.decimalAdjust
  split <;> exact .nothing rfl rfl

/-- Work under LOCK stores what it stores without (`20_memory.md` R78). -/
theorem StoresTo.underLock {work : State → State} (locks : Bool)
    (hw : ∀ u, Untouched s u → StoresTo transfer bytes s (work u)) :
    StoresTo transfer bytes s (s.underLock locks work) := by
  unfold State.underLock
  split
  · exact (hw (s.setLock true) ((Untouched.refl s).setLock true)).keep rfl rfl
  · exact hw s (.refl s)

/-! String instructions (`43_string.md` R339) -/

theorem StoresTo.stringStep {i : Instr} {tests : Bool} {element : State → State}
    (hn : s.hasElement = false → bytes = []) (he : s.hasElement = true → StoresTo false bytes s (element s)) :
    StoresTo false bytes s (s.stringStep i tests element) := by
  cases hz : s.repeatWith with
  | none =>
    rw [State.stringStep_plain hz]
    exact he (by simp [State.hasElement, hz])
  | some z =>
    by_cases hc : s.gpr.cx = 0
    · rw [State.stringStep_done hz hc, hn (by simp [State.hasElement, hz, hc])]
      exact .nothing rfl rfl
    · rw [State.stringStep_iteration hz hc]
      have hel : s.hasElement = true := by rw [State.hasElement, Bool.or_eq_true, bne_iff_ne]; exact .inr hc
      exact (he hel).keep rfl rfl

/-- A string instruction whose element stores to ES:DI. -/
theorem StoresTo.stringStore {i : Instr} {tests : Bool} {element : State → State} (w : Width)
    (he : StoresTo false (s.elementBytes w) s (element s)) :
    StoresTo false (if s.hasElement then s.elementBytes w else []) s (s.stringStep i tests element) := by
  refine .stringStep (fun hn => ?_) fun hel => ?_
  · rw [hn]; rfl
  · rw [hel]; exact he

theorem StoresTo.cmpsElement (s : State) (w : Width) : StoresTo false [] s (s.cmpsElement w) := by
  cases w <;> exact .nothing rfl rfl

theorem StoresTo.lodsElement (s : State) (w : Width) : StoresTo false [] s (s.lodsElement w) := by
  cases w <;> exact .nothing rfl rfl

theorem StoresTo.scasElement (s : State) (w : Width) : StoresTo false [] s (s.scasElement w) := by
  cases w <;> exact .nothing rfl rfl

theorem StoresTo.movsElement (s : State) (w : Width) : StoresTo false (s.elementBytes w) s (s.movsElement w) := by
  cases w with
  | byte => exact ((Untouched.refl s).store8 _ _ _).keep rfl rfl
  | word => exact ((Untouched.refl s).store16 _ _ _).keep rfl rfl

theorem StoresTo.stosElement (s : State) (w : Width) : StoresTo false (s.elementBytes w) s (s.stosElement w) := by
  cases w with
  | byte => exact ((Untouched.refl s).store8 _ _ _).keep rfl rfl
  | word => exact ((Untouched.refl s).store16 _ _ _).keep rfl rfl

/-! Control transfers -/

theorem Untouched.branchIf (h : Untouched s u) {c : Bool} (hc : transfer = c) (inc : Byte) :
    StoresTo transfer [] s (u.branchIf c inc) := by
  subst hc
  cases transfer with
  | false => exact .nothing h.mem h.staleCode
  | true => exact .jump h.mem rfl

theorem Untouched.jumpIf (h : Untouched s u) {reads : List FlagName} {c : Bool} (hc : transfer = u.choose reads c)
    (inc : Byte) : StoresTo transfer [] s (u.jumpIf reads c inc) := (h.chosen reads).branchIf hc inc

/-- The interrupt sequence from a state with the stack of `s`. -/
theorem Untouched.interrupt (h : Untouched s u) (hf : u.interruptFrame = s.interruptFrame) (t : Byte) :
    StoresTo true s.interruptFrame s (u.interrupt t) :=
  ((Confined.of_mem h.mem).trans (hf ▸ Confined.interrupt u t)).transferred rfl rfl

theorem StoresTo.divideError8 (s : State) : StoresTo true s.interruptFrame s s.divideError8 :=
  have undefs := ((Untouched.refl s).setReg16 .ax (Config.undefReg s.draws 0)).withFlags (s.flags.undefined s.draws)
  undefs.nextDraw.interrupt rfl 0

theorem StoresTo.divideError16 (s : State) : StoresTo true s.interruptFrame s s.divideError16 :=
  have registers := ((Untouched.refl s).setReg16 .ax (Config.undefReg s.draws 0)).setReg16 .dx (Config.undefReg s.draws 2)
  (registers.withFlags (s.flags.undefined s.draws)).nextDraw.interrupt rfl 0

theorem State.interruptFrame_chosen (s : State) (reads : List FlagName) :
    (s.chosen reads).interruptFrame = s.interruptFrame := by
  unfold State.chosen
  split <;> rfl

end Rules
end Sys2Proof.Machine

namespace Sys2Proof

open Machine

/-! ## Every instruction stores to its own bytes and no others -/

/-- DIV stores nothing, or the frame of a type 0 (`41_arithmetic.md` R253). -/
theorem execDiv_stores (f : UnaryForm) (s : State) :
    ∃ t, exec (.div f) s = .next t ∧ StoresTo ((Instr.div f).isTransfer s) ((Instr.div f).storesAt s) s t := by
  cases f with
  | rm8 d =>
    simp only [exec, execDiv, State.unaryDest]
    split
    · next fits => exact ⟨_, rfl, .of_not (congrArg Option.isNone fits) (.nothing rfl rfl)⟩
    · next faults => exact ⟨_, rfl, .of_taken (congrArg Option.isNone faults) (.divideError8 s)⟩
  | rm16 d =>
    simp only [exec, execDiv, State.unaryDest]
    split
    · next fits => exact ⟨_, rfl, .of_not (congrArg Option.isNone fits) (.nothing rfl rfl)⟩
    · next faults => exact ⟨_, rfl, .of_taken (congrArg Option.isNone faults) (.divideError16 s)⟩

/-- IDIV likewise (`41_arithmetic.md` R254). -/
theorem execIdiv_stores (f : UnaryForm) (s : State) :
    ∃ t, exec (.idiv f) s = .next t ∧ StoresTo ((Instr.idiv f).isTransfer s) ((Instr.idiv f).storesAt s) s t := by
  cases f with
  | rm8 d =>
    simp only [exec, execIdiv, State.unaryDest]
    split
    · next fits => exact ⟨_, rfl, .of_not (congrArg Option.isNone fits) (.nothing rfl rfl)⟩
    · next faults => exact ⟨_, rfl, .of_taken (congrArg Option.isNone faults) (.divideError8 s)⟩
  | rm16 d =>
    simp only [exec, execIdiv, State.unaryDest]
    split
    · next fits => exact ⟨_, rfl, .of_not (congrArg Option.isNone fits) (.nothing rfl rfl)⟩
    · next faults => exact ⟨_, rfl, .of_taken (congrArg Option.isNone faults) (.divideError16 s)⟩

/-- Every instruction answers a next state, and stores to the bytes `Instr.storesAt` lists and to no other. -/
theorem exec_stores (i : Instr) (s : State) :
    ∃ t, exec i s = .next t ∧ StoresTo (i.isTransfer s) (i.storesAt s) s t := by
  have start := Untouched.refl s
  cases i with
  -- 40_data_transfer.md
  | lahf | lds | lea | les | movToSeg | popf | sahf | xlat | aad | aam | cbw | cwd | rep | repe | repne | clc | cld
  | cli | cmc | hlt | lock | nop | stc | std | wait | esOverride | csOverride | ssOverride | dsOverride =>
    exact ⟨_, rfl, .nothing rfl rfl⟩
  | input w p | output w p | movLoad w addr => cases w <;> exact ⟨_, rfl, .nothing rfl rfl⟩
  | movReg f | movImm f => exact ⟨_, rfl, start.assign _⟩
  | movFromSeg dst q => exact ⟨_, rfl, start.put16 _ _⟩
  | movStore w addr =>
    cases w with
    | byte => exact ⟨_, rfl, start.store8 _ _ _⟩
    | word => exact ⟨_, rfl, start.store16 _ _ _⟩
  | pop dst =>
    cases dst with
    | seg q => exact ⟨_, rfl, .nothing rfl rfl⟩
    | r16 r => exact ⟨_, rfl, .nothing rfl rfl⟩
    | rm16 d => exact ⟨_, rfl, (start.setReg16 .sp _).put16 _ _⟩
  | push src => exact ⟨_, rfl, start.push16 _⟩
  | pushf => exact ⟨_, rfl, start.nextDraw.push16 _⟩
  | xchg f =>
    cases f with
    | r8Rm8 r rm => exact ⟨_, rfl, .underLock _ fun u hu => (hu.put8 _ _).keep rfl rfl⟩
    | r16Rm16 r rm => exact ⟨_, rfl, .underLock _ fun u hu => (hu.put16 _ _).keep rfl rfl⟩
    | axR16 r => exact ⟨_, rfl, .nothing rfl rfl⟩
  -- 41_arithmetic.md
  | aaa | aas => exact ⟨_, rfl, .asciiAdjust s _ _⟩
  | adc f | sbb f => exact ⟨_, rfl, start.combineWithCarry _ _⟩
  | add f | sub f => exact ⟨_, rfl, start.combine _ _⟩
  | cmp f => exact ⟨_, rfl, start.compare _ _⟩
  | daa | das => exact ⟨_, rfl, .decimalAdjust s _ _⟩
  | dec f | inc f | neg f | not f => exact ⟨_, rfl, start.modify _ _⟩
  | div f => exact execDiv_stores f s
  | idiv f => exact execIdiv_stores f s
  | imul f | mul f => cases f <;> exact ⟨_, rfl, .nothing rfl rfl⟩
  -- 42_logic_shift.md
  | and f | or f | xor f => exact ⟨_, rfl, start.nextDraw.combine _ _⟩
  | test f => exact ⟨_, rfl, start.nextDraw.compare _ _⟩
  | rcl f | rcr f => exact ⟨_, rfl, start.shiftThroughCarry _ _ _⟩
  | rol f | ror f | sal f | sar f | shr f => exact ⟨_, rfl, start.shift _ _ _ _⟩
  -- 43_string.md
  | cmps w => exact ⟨_, rfl, .stringStep (fun _ => rfl) fun _ => .cmpsElement s w⟩
  | lods w => exact ⟨_, rfl, .stringStep (fun _ => rfl) fun _ => .lodsElement s w⟩
  | scas w => exact ⟨_, rfl, .stringStep (fun _ => rfl) fun _ => .scasElement s w⟩
  | movs w => exact ⟨_, rfl, .stringStore w (.movsElement s w)⟩
  | stos w => exact ⟨_, rfl, .stringStore w (.stosElement s w)⟩
  -- 44_control_transfer.md
  | callNear | callNearIndirect => exact ⟨_, rfl, (Confined.push16 s _).transferred rfl rfl⟩
  | callFar | callFarIndirect => exact ⟨_, rfl, (Confined.farFrame s _ _).transferred rfl rfl⟩
  | int3 | int => exact ⟨_, rfl, start.interrupt rfl _⟩
  | into =>
    refine ⟨_, rfl, ?_⟩
    split
    · next hc => exact .of_taken hc ((start.chosen _).interrupt (s.interruptFrame_chosen _) 4)
    · next hc => exact .of_not (eq_false_of_ne_true hc) (.nothing (s.chosen_mem _) (s.chosen_staleCode _))
  | iret | jmpNear | jmpFar | jmpShort | jmpNearIndirect | jmpFarIndirect | retNear | retNearPop | retFar | retFarPop =>
    exact ⟨_, rfl, .jump rfl rfl⟩
  | jo inc | jno inc | jb inc | jae inc | je inc | jne inc | jbe inc | js inc | jns inc | jp inc | jnp inc | jl inc
  | jge inc | jle inc | jc inc | jnc inc => exact ⟨_, rfl, start.jumpIf rfl inc⟩
  | ja inc => exact ⟨_, rfl, start.jumpIf (congrArg (s.choose _) (Bool.not_or _ _)) inc⟩
  | jg inc => exact ⟨_, rfl, start.jumpIf (congrArg (s.choose _) (greater_condition _ _ _)) inc⟩
  | jcxz inc => exact ⟨_, rfl, start.branchIf rfl inc⟩
  | loop inc => exact ⟨_, rfl, (start.setReg16 .cx _).branchIf (cx_sub_one_ne_zero _).symm inc⟩
  | loope inc | loopne inc =>
    exact ⟨_, rfl, ((start.chosen _).setReg16 .cx _).branchIf (congrArg₂ and (cx_sub_one_ne_zero _).symm rfl) inc⟩
  -- 45_processor_control.md
  | esc opcode source => cases source <;> exact ⟨_, rfl, .nothing rfl rfl⟩
  | sti =>
    refine ⟨_, rfl, ?_⟩
    split <;> exact .nothing rfl rfl

/-- The same of the state an instruction answers. -/
theorem exec_storesTo {i : Instr} {s t : State} (h : exec i s = .next t) :
    StoresTo (i.isTransfer s) (i.storesAt s) s t := by
  obtain ⟨u, hu, hs⟩ := exec_stores i s
  rw [hu] at h
  cases h
  exact hs

/-- Settles O40: every instruction answers a next state, and what it leaves of the prefetch queue follows from its stores. -/
theorem everyInstructionCompletes : Obligations.EveryInstructionCompletes := fun i s => by
  obtain ⟨t, ht, hs⟩ := exec_stores i s
  exact ⟨t, ht, hs.emptied, hs.noted⟩

/-- Settles O41: the frame of an instruction's stores. -/
theorem onlyStoredBytesChange : Obligations.OnlyStoredBytesChange := fun _ _ _ h => (exec_storesTo h).frame

end Sys2Proof
end

section
/-! PROOFS. Every step keeps the invariant (`20_memory.md` R60, `43_string.md` R339, `45_processor_control.md` R425, R426, R431). -/

namespace Sys2Proof.Machine

open Sys2Proof

/-! ## Interrupts and RESET (`60_exceptions.md` R508 to R511, `70_reset_and_hazards.md` R560) -/

/-- Leaving a repetition or a WAIT for an interrupt ends it, and with it the LOCK it held. -/
theorem State.Inv.resumePoint_idle {s : State} (h : s.Inv) :
    s.resumePoint.repeating = none ∧ s.resumePoint.waiting = false ∧ s.resumePoint.lockOutput = false := by
  cases hr : s.repeating with
  | some i =>
    have hw : s.waiting = false := by
      by_contra hw
      exact nomatch hr.symm.trans (h.oneHold (eq_true_of_ne_false hw))
    rw [State.resumePoint_repeating hr]
    exact ⟨rfl, hw, State.lockOutput_setLock s false⟩
  | none =>
    cases hw : s.waiting with
    | true =>
      rw [State.resumePoint_waiting hr hw]
      exact ⟨hr, rfl, State.lockOutput_setLock s false⟩
    | false =>
      rw [State.resumePoint_idle hr hw]
      exact ⟨hr, hw, eq_false_of_ne_true fun hl => ne_true_of_eq_false hw (h.lockHeld hl).1⟩

/-- Taking an interrupt keeps the invariant: afterwards nothing is held. -/
theorem State.Inv.enter {s : State} (h : s.Inv) (t : Byte) : (s.enter t).Inv := by
  obtain ⟨hr, hw, hl⟩ := h.resumePoint_idle
  exact
    { memory := State.wf_enter h.memory t
      repeatingString := fun i hi => nomatch hr.symm.trans hi
      oneHold := fun _ => hr
      haltedIdle := nofun
      lockHeld := fun hlock => absurd hlock (ne_true_of_eq_false hl) }

theorem State.Inv.setNmiPending {s : State} (h : s.Inv) (b : Bool) : ({ s with nmiPending := b } : State).Inv := { h with }

theorem State.Inv.nextSample {s : State} (h : s.Inv) : s.nextSample.Inv := { h with }

theorem State.Inv.recognise {s : State} (h : s.Inv) (tf : Bool) : (s.recognise tf).Inv :=
  State.recognise_keeps (P := State.Inv) (fun _ b hu => hu.setNmiPending b) (fun _ t hu => hu.enter t) h tf

/-- RESET leaves the invariant whatever was going on, if memory is canonical. -/
theorem State.resetLine_inv {s : State} (h : s.mem.wf) : s.resetLine.Inv := by
  have idle : s.resetLine.repeating = none := rfl
  have events : s.resetLine.events = (s.setLock false).events := rfl
  have unlocked : s.resetLine.lockOutput = false := (State.lockOutput_congr events).trans (s.lockOutput_setLock false)
  exact
    { memory := h
      repeatingString := fun _ hi => nomatch idle.symm.trans hi
      oneHold := fun _ => idle
      haltedIdle := fun _ => ⟨rfl, idle, rfl⟩
      lockHeld := fun hl => absurd hl (ne_true_of_eq_false unlocked) }

/-! ## While an instruction runs -/

/-- What holds when instruction `i` is about to run and when it has run, before the boundary after it: only `i` itself can
halt, hold as WAIT or be between iterations, and LOCK is active only for a LOCK byte before `i`. -/
structure Running (i : Instr) (s : State) : Prop where
  memory : s.mem.wf
  halted : s.halted = true → i = .hlt
  waiting : s.waiting = true → i = .wait
  repeating : ∀ j, s.repeating = some j → j = i ∧ i.isString = true ∧ s.repeatWith.isSome = true
  lock : s.lockOutput = true → i.isPrefix = false ∧ s.lockPrefix = true

theorem isPrefix_of_isString {i : Instr} (h : i.isString = true) : i.isPrefix = false := by
  cases i with
  | cmps | lods | movs | scas | stos => rfl
  | _ => cases h

/-- The instruction that is due is about to run. -/
theorem State.Inv.running {s b : State} {i : Instr} (h : s.Inv) (hh : s.halted = false) (hd : s.due = .ok (i, b)) :
    Running i b := by
  have awake : ∀ {p : Prop}, s.halted = true → p := fun ht => absurd ht (ne_true_of_eq_false hh)
  rcases State.due_ok hd with ⟨hw, rfl, rfl⟩ | ⟨hw, hr, rfl⟩ | ⟨rest, hw, hr, -, -, -, rfl⟩
  · have hr := h.oneHold hw
    exact
      { memory := h.memory
        halted := awake
        waiting := fun _ => rfl
        repeating := fun j hj => nomatch hr.symm.trans hj
        lock := fun hl => ⟨rfl, (h.lockHeld hl).2⟩ }
  · obtain ⟨hs, hz⟩ := h.repeatingString i hr
    exact
      { memory := h.memory
        halted := awake
        waiting := fun ht => absurd ht (ne_true_of_eq_false hw)
        repeating := fun j hj => ⟨Option.some.inj (hj.symm.trans hr), hs, hz⟩
        lock := fun hl => ⟨isPrefix_of_isString hs, (h.lockHeld hl).2⟩ }
  · exact
      { memory := h.memory
        halted := awake
        waiting := fun ht => absurd ht (ne_true_of_eq_false hw)
        repeating := fun j hj => nomatch hr.symm.trans hj
        lock := fun hl => absurd (h.lockHeld hl).1 (ne_true_of_eq_false hw) }

theorem Running.assertLock {i : Instr} {s : State} (h : Running i s) : Running i (s.assertLock i) := by
  unfold State.assertLock
  split
  · next hc =>
    rw [Bool.and_eq_true, Bool.not_eq_true'] at hc
    exact { h with lock := fun _ => hc.symm }
  · exact h

/-- A string instruction leaves no repetition but its own, and that only under a repeat byte (`43_string.md` R339). -/
theorem State.stringStep_repeating {s : State} {i j : Instr} {tests : Bool} {element : State → State}
    (he : (element s).repeating = s.repeating) (h : (s.stringStep i tests element).repeating = some j) :
    s.repeating = some j ∨ (j = i ∧ s.repeatWith.isSome = true) := by
  cases hz : s.repeatWith with
  | none =>
    rw [State.stringStep_plain hz, he] at h
    exact .inl h
  | some z =>
    by_cases hc : s.gpr.cx = 0
    · rw [State.stringStep_done hz hc] at h
      cases h
    · rw [State.stringStep_iteration hz hc] at h
      replace h := (Option.ite_none_left_eq_some.mp h).2
      exact .inr ⟨(Option.some.inj h).symm, rfl⟩

/-- The repetition that is due after an instruction is the one of before, or its own. -/
theorem exec_repeating {i j : Instr} {s t : State} (h : exec i s = .next t) (hj : t.repeating = some j) :
    s.repeating = some j ∨ (j = i ∧ i.isString = true ∧ s.repeatWith.isSome = true) := by
  have own : i.isString = true → (s.repeating = some j ∨ (j = i ∧ s.repeatWith.isSome = true)) →
      s.repeating = some j ∨ (j = i ∧ i.isString = true ∧ s.repeatWith.isSome = true) := fun hs =>
    Or.imp_right fun ⟨hi, hz⟩ => ⟨hi, hs, hz⟩
  cases hs : i.isString with
  | false => exact .inl (((exec_within h).repeating (ne_true_of_eq_false hs)).symm.trans hj)
  | true =>
    cases i with
    | cmps w | lods w | movs w | scas w | stos w =>
      cases h
      exact own hs (State.stringStep_repeating (by cases w <;> rfl) hj)
    | _ => cases hs

/-- What holds while an instruction runs holds when it has run. -/
theorem Running.exec {i : Instr} {s t : State} (h : Running i s) (he : exec i s = .next t) : Running i t where
  memory := (exec_storesTo he).canonical h.memory
  halted ht := by
    by_contra hi
    exact hi (h.halted (((exec_within he).halted hi).symm.trans ht))
  waiting ht := by
    by_contra hi
    exact hi (h.waiting (((exec_within he).waiting hi).symm.trans ht))
  repeating j hj := by
    have due : j = i ∧ i.isString = true ∧ s.repeatWith.isSome = true := (exec_repeating he hj).elim (h.repeating j) id
    obtain ⟨hi, hs, hz⟩ := due
    have kept := (exec_within he).repeatWith (ne_true_of_eq_false (isPrefix_of_isString hs))
    exact ⟨hi, hs, kept ▸ hz⟩
  lock hl := by
    obtain ⟨hp, hlock⟩ := h.lock ((exec_within he).lockOutput.symm.trans hl)
    exact ⟨hp, ((exec_within he).lockPrefix (ne_true_of_eq_false hp)).trans hlock⟩

/-! ## The boundary -/

/-- After a latch byte, which is no instruction of its own, nothing is held (`30_encoding.md` R119). -/
theorem Running.inv_of_isPrefix {i : Instr} {s : State} (h : Running i s) (hp : i.isPrefix = true) (w : Window) (b : Bool) :
    ({ s with window := w, nmiPending := b } : State).Inv where
  memory := h.memory
  repeatingString j hj := absurd (isPrefix_of_isString (h.repeating j hj).2.1) (ne_false_of_eq_true hp)
  oneHold hw := by cases h.waiting hw; cases hp
  haltedIdle hh := by cases h.halted hh; cases hp
  lockHeld hl := absurd (h.lock hl).1 (ne_false_of_eq_true hp)

/-- Between iterations LOCK is inactive (`45_processor_control.md` R426). -/
theorem Running.inv_of_repeating {i j : Instr} {s : State} (h : Running i s) (hj : s.repeating = some j) (w : Window) :
    ({ s.setLock false with window := w } : State).Inv := by
  obtain ⟨rfl, hs, hz⟩ := h.repeating j hj
  exact
    { memory := h.memory
      repeatingString := fun k hk => (h.repeating k hk).1 ▸ ⟨hs, hz⟩
      oneHold := fun hw => by cases h.waiting hw; cases hs
      haltedIdle := fun hh => by cases h.halted hh; cases hs
      lockHeld := fun hl => absurd hl (ne_true_of_eq_false (s.lockOutput_setLock false)) }

/-- While WAIT holds, LOCK is active only for its LOCK byte (`45_processor_control.md` R426, R431). -/
theorem Running.inv_of_waiting {i : Instr} {s : State} (h : Running i s) (hr : s.repeating = none) (hw : s.waiting = true)
    (w : Window) : ({ s with window := w } : State).Inv where
  memory := h.memory
  repeatingString _ hj := nomatch hr.symm.trans hj
  oneHold _ := hr
  haltedIdle hh := nomatch (h.halted hh).symm.trans (h.waiting hw)
  lockHeld hl := ⟨hw, (h.lock hl).2⟩

/-- After an instruction that is over nothing is held and no latch is set. -/
theorem Running.inv_of_over {i : Instr} {s : State} (h : Running i s) (hr : s.repeating = none) (hw : s.waiting = false) :
    s.clearPrefixes.Inv where
  memory := h.memory
  repeatingString _ hj := nomatch hr.symm.trans hj
  oneHold _ := hr
  haltedIdle _ := ⟨hw, hr, rfl⟩
  lockHeld hl := absurd hl (ne_true_of_eq_false (s.lockOutput_setLock false))

/-- The boundary after an instruction establishes the invariant. -/
theorem Running.complete {i : Instr} {s : State} (h : Running i s) (w : Window) (tf : Bool) : (s.complete i w tf).Inv := by
  cases hp : i.isPrefix with
  | true =>
    rw [State.complete_prefix hp]
    exact h.inv_of_isPrefix hp w _
  | false =>
    cases hr : s.repeating with
    | some j =>
      rw [State.complete_iteration hp hr]
      exact (h.inv_of_repeating hr w).recognise tf
    | none =>
      cases hw : s.waiting with
      | true =>
        rw [State.complete_waiting hp hr hw]
        exact (h.inv_of_waiting hr hw w).recognise false
      | false =>
        rw [State.complete_over hp hr hw]
        exact (h.inv_of_over hr hw).recognise tf

/-! ## The step -/

/-- Where RESET cuts a step short, memory is canonical. -/
theorem State.Inv.wf_cutShort {s t : State} (h : s.Inv) {m : ResetMoment} (hc : s.cutShort m = .next t) : t.mem.wf := by
  cases m with
  | before => cases hc; exact h.memory
  | inInstruction c =>
    have hc : (s.runDue fun _ t => s.cut t c) = .next t := hc
    rcases State.runDue_next hc with ⟨-, rfl⟩ | ⟨i, b, u, -, -, -, rfl⟩
    · exact State.wf_cut h.memory _ c
    · exact State.wf_cut h.memory u c
  | inBoundary c =>
    have hc : (s.runDue fun i t => t.cut (s.boundary i t) c) = .next t := hc
    rcases State.runDue_next hc with ⟨-, rfl⟩ | ⟨i, b, u, hh, hd, he, rfl⟩
    · exact State.wf_cut h.memory _ c
    · exact State.wf_cut ((h.running hh hd).assertLock.exec he).memory _ c

/-- Settles O60: a reset, a look at the requests while halted, or the instruction that is due with its boundary. -/
theorem stepKeepsInvariant : Obligations.StepKeepsInvariant := by
  intro s t h hstep
  have latched : s.latchNmi.Inv := h.setNmiPending _
  rcases step_next hstep with ⟨m, u, -, hc, rfl⟩ | ⟨-, -, rfl⟩ | ⟨i, b, u, -, hh, hd, he, rfl⟩
  · exact (State.resetLine_inv (latched.wf_cutShort hc)).nextSample
  · exact (latched.recognise false).nextSample
  · exact (((latched.running hh hd).assertLock.exec he).complete _ _).nextSample

end Sys2Proof.Machine
end

section
/-! PROOFS. Every well-formed instruction is read back from its own bytes, and what is read is the first name of the bytes read
(`30_encoding.md` R100 to R126). -/

namespace Sys2Proof

/-! ## What one entry of the opcode map reads (`30_encoding.md` R118, R120) -/

section Entries
variable {b1 : Byte} {rest : List Byte}

theorem decode_word {f : Word → Instr} (hl : layout b1 = .plain (.imm16 f)) {v : Word} {i : Instr} (hi : f v = i) :
    decode (b1 :: wordBytes v ++ rest) = .ok (i, rest) := by
  rw [List.cons_append, decode_plain hl, Tail.parse_imm16, hi]

theorem decode_far {f : Word → Word → Instr} (hl : layout b1 = .plain (.far f)) (ip cs : Word) :
    decode (b1 :: wordBytes ip ++ wordBytes cs ++ rest) = .ok (f ip cs, rest) := by
  rw [List.append_assoc, List.cons_append, decode_plain hl, Tail.parse_far]

variable {f : BitVec 3 → RM (BitVec 3) → Tail} {reg : BitVec 3} {o : RM (BitVec 3)} (hl : layout b1 = .modrm f)
  (h : o.wellFormed = true)
include hl h

theorem decode_rm {i : Instr} (ht : f reg o = .done i) : decode (b1 :: encodeModRM reg o ++ rest) = .ok (i, rest) := by
  rw [List.cons_append, decode_modrm hl reg o rest h, ht, Tail.parse_done]

theorem decode_rm_byte {v : Byte} {g : Byte → Instr} {i : Instr} (ht : f reg o = .imm8 g) (hi : g v = i) :
    decode (b1 :: encodeModRM reg o ++ [v] ++ rest) = .ok (i, rest) := by
  rw [List.append_assoc, List.cons_append, decode_modrm hl reg o _ h, ht, ← hi]
  rfl

theorem decode_rm_word {v : Word} {g : Word → Instr} {i : Instr} (ht : f reg o = .imm16 g) (hi : g v = i) :
    decode (b1 :: encodeModRM reg o ++ wordBytes v ++ rest) = .ok (i, rest) := by
  rw [List.append_assoc, List.cons_append, decode_modrm hl reg o _ h, ht, Tail.parse_imm16, hi]

end Entries

/-! ## The operand forms -/

section Forms
variable {rest : List Byte}

/-- An operand of a register type is encodable if its register number is. -/
theorem RM.wellFormed_bits {ρ : Type} {bits : ρ → BitVec 3} {o : RM ρ} (h : o.wellFormed = true) :
    (o.map bits).wellFormed = true := (RM.wellFormed_map bits o).trans h

theorem decode_movForm {f : MovForm} (h : f.wellFormed = true) : decode (f.encode ++ rest) = .ok (.movReg f, rest) := by
  cases f <;> exact decode_rm rfl (RM.wellFormed_bits h) (by simp)

/-- The first six opcodes of the ALU instruction of number `n` (`41_arithmetic.md` R240). -/
theorem layout_aluRow (n : BitVec 3) (k : Fin 6) :
    layout (n.setWidth 8 <<< 3 + BitVec.ofNat 8 k) = (aluRow (aluInstr n)).get k := by
  rcases sub_code_cases n with rfl | rfl | rfl | rfl | rfl | rfl | rfl | rfl
  all_goals fin_cases k <;> rfl

theorem decode_aluForm {n : BitVec 3} {f : AluForm} (h : f.wellFormed = true)
    (hl : f.listedForLogic = true ∨ listedUnder82 n = true) : decode (f.encode n ++ rest) = .ok (aluInstr n f, rest) := by
  have row := layout_aluRow n
  have row0 : layout (n.setWidth 8 <<< 3) = _ := (congrArg layout (BitVec.add_zero _)).symm.trans (row 0)
  cases f with
  | rm8R8 d s => exact decode_rm row0 (RM.wellFormed_bits h) (by simp)
  | rm16R16 d s => exact decode_rm (row 1) (RM.wellFormed_bits h) (by simp)
  | r8Rm8 d s => exact decode_rm (row 2) (RM.wellFormed_bits h) (by simp)
  | r16Rm16 d s => exact decode_rm (row 3) (RM.wellFormed_bits h) (by simp)
  | alImm8 v => exact decode_plain (row 4) (v :: rest)
  | axImm16 v => exact decode_word (row 5) rfl
  | rm8Imm8 d v => exact decode_rm_byte rfl (RM.wellFormed_bits h) rfl (by simp)
  | rm16Imm16 d v => exact decode_rm_word rfl (RM.wellFormed_bits h) rfl (by simp)
  | rm8Imm8Alt d v => exact decode_rm_byte rfl (RM.wellFormed_bits h) (if_pos (hl.resolve_left nofun)) (by simp)
  | rm16Imm8 d v => exact decode_rm_byte rfl (RM.wellFormed_bits h) (if_pos (hl.resolve_left nofun)) (by simp)

theorem decode_incForm {f : IncForm} (h : f.wellFormed = true) :
    decode (f.encode 0 ++ rest) = .ok (.inc f, rest) ∧ decode (f.encode 1 ++ rest) = .ok (.dec f, rest) := by
  cases f with
  | r16 r => cases r <;> exact ⟨rfl, rfl⟩
  | rm8 d | rm16 d =>
    exact ⟨decode_rm rfl (RM.wellFormed_bits h) (by simp [group5]), decode_rm rfl (RM.wellFormed_bits h) (by simp [group5])⟩

/-- Group 3, whose sub-code 000 is TEST (`30_encoding.md` R122). -/
theorem decode_unaryForm {n : BitVec 3} {f : UnaryForm} {i : Instr} (hn : n ≠ 0) (hi : ∀ b1, group3 b1 n f = .done i)
    (h : f.wellFormed = true) : decode (f.encode n ++ rest) = .ok (i, rest) := by
  cases f <;> exact decode_rm rfl (RM.wellFormed_bits h) (by simp only [if_neg hn, RM.r8_map_bits, RM.r16_map_bits, hi])

theorem decode_shiftForm {n : BitVec 3} {f : ShiftForm} {i : Instr} (hi : ∀ b1, shiftInstr b1 n f = .done i)
    (h : f.wellFormed = true) : decode (f.encode n ++ rest) = .ok (i, rest) := by
  cases f with
  | rm8 d c | rm16 d c => cases c <;> exact decode_rm rfl (RM.wellFormed_bits h) (by simp [hi])

theorem decode_testForm {f : TestForm} (h : f.wellFormed = true) : decode (f.encode ++ rest) = .ok (.test f, rest) := by
  cases f with
  | rm8R8 a b | rm16R16 a b => exact decode_rm rfl (RM.wellFormed_bits h) (by simp)
  | alImm8 v => rfl
  | axImm16 v => exact decode_word rfl rfl
  | rm8Imm8 a v => exact decode_rm_byte rfl (RM.wellFormed_bits h) (if_pos rfl) (by simp)
  | rm16Imm16 a v => exact decode_rm_word rfl (RM.wellFormed_bits h) (if_pos rfl) (by simp)

theorem decode_movImmForm {f : MovImmForm} (h : f.wellFormed = true) :
    decode (f.encode ++ rest) = .ok (.movImm f, rest) := by
  cases f with
  | r8 d v => cases d <;> rfl
  | r16 d v => cases d <;> exact decode_word rfl rfl
  | rm8 d v => exact decode_rm_byte rfl (RM.wellFormed_bits h) (if_pos rfl) (by simp)
  | rm16 d v => exact decode_rm_word rfl (RM.wellFormed_bits h) (if_pos rfl) (by simp)

/-- XCHG AX, AX is a second name of NOP (`30_encoding.md` R128). -/
theorem decode_xchgForm {f : XchgForm} (h : f.wellFormed = true) :
    decode (f.encode ++ rest) = .ok ((Instr.xchg f).canonical, rest) := by
  cases f with
  | r8Rm8 a b | r16Rm16 a b => exact decode_rm rfl (RM.wellFormed_bits h) (by simp [Instr.canonical])
  | axR16 r => cases r <;> rfl

theorem decode_pushForm {f : StackForm} (h : f.wellFormed = true) :
    decode (encode (.push f) ++ rest) = .ok (.push f, rest) := by
  cases f with
  | seg q => cases q <;> rfl
  | r16 r => cases r <;> rfl
  | rm16 d => exact decode_rm rfl (RM.wellFormed_bits h) (by simp [group5])

theorem decode_popForm {f : StackForm} (hp : f.poppable = true) (h : f.wellFormed = true) :
    decode (encode (.pop f) ++ rest) = .ok (.pop f, rest) := by
  cases f with
  | seg q =>
    cases q with
    | cs => cases hp
    | es | ss | ds => rfl
  | r16 r => cases r <;> rfl
  | rm16 d => exact decode_rm rfl (RM.wellFormed_bits h) (by simp [onlySubcode0])

/-- REG of a segment MOV is `0 ++ SR` (`40_data_transfer.md` R207). -/
theorem movSegment_code (b1 : Byte) (q : SegReg) (t : SegReg → Tail) : movSegment b1 (q.bits.setWidth 3) t = t q := by
  cases q <;> rfl

/-- The first byte and REG of ESC are the two halves of the external opcode (`45_processor_control.md` R424). -/
theorem layout_esc (x : BitVec 3) :
    layout (opcodeWith 0xD8 x) = .modrm fun y rm => .done (.esc (x ++ y) rm.r16) := by
  rcases sub_code_cases x with rfl | rfl | rfl | rfl | rfl | rfl | rfl | rfl <;> rfl

theorem esc_opcode_halves (op : BitVec 6) : op.extractLsb' 3 3 ++ op.extractLsb' 0 3 = op := by
  revert op
  decide

end Forms

/-! ## Every instruction -/

/-- Settles O46: the opcode of each instruction leads to the entry that reads its form. -/
theorem decodeEncode : Obligations.DecodeEncode := by
  intro i rest h
  cases i with
  -- 40_data_transfer.md
  | input w p | output w p => cases w <;> cases p <;> rfl
  | lds d m | lea d m | les d m => exact decode_rm (o := .mem m) rfl h (by simp [memoryOperand, Instr.canonical])
  | movReg f => exact decode_movForm h
  | movFromSeg d q => exact decode_rm rfl (RM.wellFormed_bits h) (by simp [movSegment_code, Instr.canonical])
  | movToSeg q s =>
    obtain ⟨hq, hs⟩ : q ≠ .cs ∧ s.wellFormed = true := by simpa [Instr.wellFormed] using h
    exact decode_rm rfl (RM.wellFormed_bits hs) (by simp [movSegment_code, hq, Instr.canonical])
  | movLoad w a | movStore w a => cases w <;> exact decode_word rfl rfl
  | movImm f => exact decode_movImmForm h
  | pop f =>
    obtain ⟨hp, hf⟩ : f.poppable = true ∧ f.wellFormed = true := by simpa [Instr.wellFormed] using h
    exact decode_popForm hp hf
  | push f => exact decode_pushForm h
  | xchg f => exact decode_xchgForm h
  -- 41_arithmetic.md and 42_logic_shift.md
  | add f => exact decode_aluForm (n := 0) h (.inr rfl)
  | adc f => exact decode_aluForm (n := 2) h (.inr rfl)
  | sbb f => exact decode_aluForm (n := 3) h (.inr rfl)
  | sub f => exact decode_aluForm (n := 5) h (.inr rfl)
  | cmp f => exact decode_aluForm (n := 7) h (.inr rfl)
  | or f | and f | xor f =>
    obtain ⟨hl, hf⟩ : f.listedForLogic = true ∧ f.wellFormed = true := by simpa [Instr.wellFormed] using h
    exact decode_aluForm hf (.inl hl)
  | inc f => exact (decode_incForm h).1
  | dec f => exact (decode_incForm h).2
  | not f | neg f | mul f | imul f | div f | idiv f => exact decode_unaryForm (by decide) (fun _ => rfl) h
  | rol f | ror f | rcl f | rcr f | sal f | shr f | sar f => exact decode_shiftForm (fun _ => rfl) h
  | test f => exact decode_testForm h
  -- 43_string.md
  | cmps w | lods w | movs w | scas w | stos w => cases w <;> rfl
  -- 44_control_transfer.md
  | callNear v | jmpNear v | retNearPop v | retFarPop v => exact decode_word rfl rfl
  | callFar ip cs | jmpFar ip cs => exact decode_far rfl ip cs
  | callNearIndirect t | jmpNearIndirect t =>
    exact decode_rm rfl (RM.wellFormed_bits h) (by simp [group5, Instr.canonical])
  | callFarIndirect m | jmpFarIndirect m => exact decode_rm (o := .mem m) rfl h (by simp [group5, memoryOperand, Instr.canonical])
  -- 45_processor_control.md
  | esc op s =>
    exact decode_rm (layout_esc _) (RM.wellFormed_bits h) (by simp [esc_opcode_halves, Instr.canonical])
  -- an opcode alone or with one immediate byte
  | _ => rfl

/-! ## The bytes read -/

theorem length_encodeModRM (reg : BitVec 3) (o : RM (BitVec 3)) : (encodeModRM reg o).length ≤ 3 := by
  cases o with
  | reg r => exact Nat.le_of_ble_eq_true rfl
  | mem m =>
    cases m with
    | direct a => exact Nat.le_refl 3
    | based b d => cases d <;> exact Nat.le_of_ble_eq_true rfl

/-- An opcode, its ModRM byte with a displacement, and an immediate of at most a word (`30_encoding.md` R100, R118). -/
theorem length_rm_immediate (b1 : Byte) (reg : BitVec 3) (o : RM (BitVec 3)) {imm : List Byte} (h : imm.length ≤ 2) :
    (b1 :: encodeModRM reg o ++ imm).length ≤ 6 := by
  have := length_encodeModRM reg o
  rw [List.length_append, List.length_cons]
  omega

theorem length_rm (b1 : Byte) (reg : BitVec 3) (o : RM (BitVec 3)) : (b1 :: encodeModRM reg o).length ≤ 6 := by
  simpa using length_rm_immediate b1 reg o (imm := []) (Nat.zero_le 2)

theorem AluForm.length_encode (n : BitVec 3) (f : AluForm) : (f.encode n).length ≤ 6 := by
  cases f with
  | rm8R8 | rm16R16 | r8Rm8 | r16Rm16 => exact length_rm _ _ _
  | alImm8 | axImm16 => exact Nat.le_of_ble_eq_true rfl
  | rm8Imm8 | rm16Imm16 | rm8Imm8Alt | rm16Imm8 => exact length_rm_immediate _ _ _ (Nat.le_of_ble_eq_true rfl)

theorem IncForm.length_encode (n : BitVec 3) (f : IncForm) : (f.encode n).length ≤ 6 := by
  cases f with
  | r16 r => exact Nat.le_of_ble_eq_true rfl
  | rm8 | rm16 => exact length_rm _ _ _

theorem UnaryForm.length_encode (n : BitVec 3) (f : UnaryForm) : (f.encode n).length ≤ 6 := by
  cases f <;> exact length_rm _ _ _

theorem ShiftForm.length_encode (n : BitVec 3) (f : ShiftForm) : (f.encode n).length ≤ 6 := by
  cases f with
  | rm8 d c | rm16 d c => cases c <;> exact length_rm _ _ _

theorem length_encode (i : Instr) : (encode i).length ≤ 6 := by
  cases i with
  | adc f | add f | and f | cmp f | or f | sbb f | sub f | xor f => exact f.length_encode _
  | inc f | dec f => exact f.length_encode _
  | div f | idiv f | imul f | mul f | neg f | not f => exact f.length_encode _
  | rcl f | rcr f | rol f | ror f | sal f | sar f | shr f => exact f.length_encode _
  | test f =>
    cases f with
    | rm8R8 | rm16R16 => exact length_rm _ _ _
    | alImm8 | axImm16 => exact Nat.le_of_ble_eq_true rfl
    | rm8Imm8 | rm16Imm16 => exact length_rm_immediate _ _ _ (Nat.le_of_ble_eq_true rfl)
  | movImm f =>
    cases f with
    | r8 | r16 => exact Nat.le_of_ble_eq_true rfl
    | rm8 | rm16 => exact length_rm_immediate _ _ _ (Nat.le_of_ble_eq_true rfl)
  | movReg f => cases f <;> exact length_rm _ _ _
  | xchg f =>
    cases f with
    | axR16 r => exact Nat.le_of_ble_eq_true rfl
    | r8Rm8 | r16Rm16 => exact length_rm _ _ _
  | pop f | push f =>
    cases f with
    | seg | r16 => exact Nat.le_of_ble_eq_true rfl
    | rm16 => exact length_rm _ _ _
  | input w p | output w p => cases p <;> exact Nat.le_of_ble_eq_true rfl
  | lds | lea | les | movFromSeg | movToSeg | callNearIndirect | callFarIndirect | jmpNearIndirect | jmpFarIndirect | esc =>
    exact length_rm _ _ _
  -- an opcode alone or with at most four immediate bytes
  | _ => exact Nat.le_of_ble_eq_true rfl

/-- No instruction is read from no bytes. -/
theorem length_encode_pos {i : Instr} (h : i.wellFormed = true) : 1 ≤ (encode i).length := by
  refine List.length_pos_of_ne_nil fun he => ?_
  have hd := decodeEncode i [] h
  rw [he] at hd
  cases hd

/-- Settles O47: `decode_sound` gives the bytes, and reading them again by O46 gives the first name. -/
theorem encodeDecode : Obligations.EncodeDecode := by
  intro bytes i rest h
  obtain ⟨hw, hb⟩ := decode_sound h
  have again := decodeEncode i rest hw
  rw [← hb, h] at again
  have hc : i = i.canonical := congrArg Prod.fst (Except.ok.inj again)
  exact ⟨hw, hc.symm, hb, length_encode_pos hw, length_encode i⟩

end Sys2Proof
end

section
/-! PROOFS. What the decoder refuses, and words written out from the spec's encodings (`30_encoding.md` R121 to R125). -/

namespace Sys2Proof

/-- Whatever MOD and R/M say, an operand with room for its displacement is read, with REG as written. -/
theorem decodeModRM_modrmByte (mod : BitVec 2) (reg rm : BitVec 3) (d1 d2 : Byte) (rest : List Byte) :
    ∃ o more, decodeModRM (modrmByte mod reg rm :: d1 :: d2 :: rest) = some (reg, o, more) := by
  simp only [decodeModRM, modrmByte_mod, modrmByte_reg, modrmByte_rm]
  repeat' split
  all_goals exact ⟨_, _, rfl⟩

section Refusals
variable {b1 : Byte} {e : DecodeError}

theorem decode_refuse (hl : layout b1 = .plain (.refuse e)) (rest : List Byte) : decode (b1 :: rest) = .error e := by
  rw [decode_plain hl, Tail.parse_refuse]

variable {f : BitVec 3 → RM (BitVec 3) → Tail} {reg : BitVec 3} (hl : layout b1 = .modrm f)
include hl

/-- A sub-code that is refused with every operand. -/
theorem decode_refuse_subcode (h : ∀ o, f reg o = .refuse e) (mod : BitVec 2) (rm : BitVec 3) (d1 d2 : Byte) (rest : List Byte) :
    decode (b1 :: modrmByte mod reg rm :: d1 :: d2 :: rest) = .error e := by
  obtain ⟨o, more, hm⟩ := decodeModRM_modrmByte mod reg rm d1 d2 rest
  simp only [decode, hl, hm, h, Tail.parse_refuse]

/-- A register operand where only memory is listed. -/
theorem decode_refuse_register {r : BitVec 3} (h : f reg (.reg r) = .refuse e) (rest : List Byte) :
    decode (b1 :: modrmByte 3 reg r :: rest) = .error e := by
  have hd := decode_modrm hl reg (.reg r) rest rfl
  rwa [h, Tail.parse_refuse] at hd

end Refusals

theorem decode_adjust_base {b1 b2 : Byte} {i : Instr} (hl : layout b1 = .plain (.base10 b1 i)) (h : b2 ≠ 0x0A)
    (rest : List Byte) : decode (b1 :: b2 :: rest) = .error (.adjustBase b1 b2) := by
  rw [decode_plain hl]
  exact if_neg h

/-- `b2[5]` is the top bit of REG (`40_data_transfer.md` R207). -/
theorem movSegment_refuse (b1 : Byte) {reg : BitVec 3} (h : 4 ≤ reg.toNat) (t : SegReg → Tail) :
    movSegment b1 reg t = .refuse (.segmentCode b1 reg) := by
  have top : ∀ n : BitVec 3, 4 ≤ n.toNat → n.getLsbD 2 = true := by decide
  exact if_pos (top reg h)

/-- Settles O48: each refused encoding leads to a refusal of its entry in the opcode map. -/
theorem unlistedEncodingsRefused : Obligations.UnlistedEncodingsRefused := by
  simp only [Obligations.UnlistedEncodingsRefused, List.mem_cons, List.not_mem_nil, or_false, Prod.mk.injEq, or_imp,
    forall_and, forall_eq]
  refine ⟨?opcodes, ?subcodes, ?onlySubcode0, ?segmentCodes, ?movToCs, ?memoryOnly, ?farIndirect, ?adjustBase⟩
  case opcodes => and_intros <;> exact decode_refuse rfl
  case subcodes => and_intros <;> (rintro _ _ ⟨rfl, rfl⟩; exact decode_refuse_subcode rfl fun _ => rfl)
  case onlySubcode0 =>
    and_intros <;> exact fun mod _ rm d1 d2 rest h => decode_refuse_subcode rfl (fun _ => if_neg h) mod rm d1 d2 rest
  case segmentCodes =>
    and_intros <;> exact fun mod _ rm d1 d2 rest h =>
      decode_refuse_subcode rfl (fun _ => movSegment_refuse _ h _) mod rm d1 d2 rest
  case movToCs => exact decode_refuse_subcode rfl fun _ => rfl
  case memoryOnly => and_intros <;> exact fun _ _ => decode_refuse_register rfl rfl
  case farIndirect => and_intros <;> exact fun _ => decode_refuse_register rfl rfl
  case adjustBase => and_intros <;> exact fun _ rest h => decode_adjust_base rfl h rest

/-- Settles O49: the decoder runs on each of the seven byte sequences. -/
theorem writtenOutWords : Obligations.WrittenOutWords := by
  and_intros <;> rfl

end Sys2Proof
end

section
/-! PROOFS. Prefix bytes, second names, the boundaries inside an instruction, and where the bytes at CS:IP are refused
(`30_encoding.md` R119 to R129, `60_exceptions.md` R509 to R511, `70_reset_and_hazards.md` R563). -/

namespace Sys2Proof.Machine

open Sys2Proof

/-! ## Prefix bytes and second names -/

/-- Settles O30: their meanings are the updates of the latches. -/
theorem prefixesSetTheirLatch : Obligations.PrefixesSetTheirLatch := fun _ => ⟨rfl, rfl, rfl, rfl, rfl, rfl, rfl, rfl⟩

/-- Settles O45: JC, JNC, REP and XCHG AX, AX are the terms that `canonical` renames. -/
theorem secondNamesMeanTheSame : Obligations.SecondNamesMeanTheSame := by
  intro i s
  unfold Instr.canonical
  split <;> rfl

/-! ## Recognition points without a late NMI edge (`60_exceptions.md` R510, R511, log 25) -/

theorem State.setLock_false (s : State) :
    s.setLock false = { s with events := if s.lockOutput then .lock false :: s.events else s.events } := by
  cases h : s.lockOutput <;> simp [State.setLock, h]

theorem State.recogniseExternal_nmi {s : State} (h : s.nmiPending = true) :
    s.recogniseExternal = State.enter 2 { s with nmiPending := false } := if_pos h

theorem State.recogniseExternal_intr {s : State} {n : Byte} (hn : s.nmiPending = false) (hi : s.flags.IF = true)
    (hw : s.window = .closed) (hl : s.lines.intr = some n) : s.recogniseExternal = s.enter n := by
  have request : s.maskableRequest = some n := by simp [State.maskableRequest, hi, hw, hl]
  simp [State.recogniseExternal, hn, request]

theorem State.recogniseExternal_none {s : State} (hn : s.nmiPending = false)
    (h : s.flags.IF = false ∨ s.window = .intr ∨ s.lines.intr = none) : s.recogniseExternal = s := by
  have request : s.maskableRequest = none := by
    rcases h with h | h | h <;> simp [State.maskableRequest, h]
  simp [State.recogniseExternal, hn, request]

theorem State.recogniseExternal_inputs (s : State) : s.recogniseExternal.inputs = s.inputs := by
  unfold State.recogniseExternal
  split
  · exact State.enter_inputs 2 _
  · split
    · exact State.enter_inputs _ s
    · rfl

theorem State.recogniseSingleStep_inputs (s : State) (tf : Bool) : (s.recogniseSingleStep tf).inputs = s.inputs := by
  cases tf with
  | false => rfl
  | true => exact State.enter_inputs 1 s

theorem State.recognise_held {s : State} (hw : s.window = .all) (hl : s.lines.nmiLate = false) (tf : Bool) :
    s.recognise tf = s := by
  rw [State.recognise_all hw, hl, Bool.or_false]

/-- Where nothing is held off by a segment load: the external requests, then single-step. -/
theorem State.recognise_steps {s : State} (hw : s.window ≠ .all) (hl : s.lines.nmiLate = false) (tf : Bool) :
    s.recognise tf = s.recogniseExternal.recogniseSingleStep tf := by
  have inputs : (s.recogniseExternal.recogniseSingleStep tf).inputs = s.inputs := by
    rw [State.recogniseSingleStep_inputs, State.recogniseExternal_inputs]
  have late : (s.recogniseExternal.recogniseSingleStep tf).lines.nmiLate = false := by rwa [State.lines, inputs]
  rw [State.recognise_open hw, State.recogniseLateNmi, late]
  rfl

/-- What a recognition point does, by the window and the requests. -/
theorem State.recognise_by_request {s : State} (hl : s.lines.nmiLate = false) (tf : Bool) :
    (s.window = .all → s.recognise tf = s) ∧
    (s.window ≠ .all → s.nmiPending = true →
      s.recognise tf = (State.enter 2 { s with nmiPending := false }).recogniseSingleStep tf) ∧
    (∀ n, s.window = .closed → s.nmiPending = false → s.flags.IF = true → s.lines.intr = some n →
      s.recognise tf = (s.enter n).recogniseSingleStep tf) ∧
    (s.window ≠ .all → s.nmiPending = false → s.flags.IF = false ∨ s.window = .intr ∨ s.lines.intr = none →
      s.recognise tf = s.recogniseSingleStep tf) := by
  refine ⟨fun hw => State.recognise_held hw hl tf, fun hw hn => ?nmi, fun n hw hn hi hr => ?intr, fun hw hn h => ?none⟩
  case nmi => rw [State.recognise_steps hw hl, State.recogniseExternal_nmi hn]
  case intr => rw [State.recognise_steps (by simp [hw]) hl, State.recogniseExternal_intr hn hi hw hr]
  case none => rw [State.recognise_steps hw hl, State.recogniseExternal_none hn h]

/-- Settles O51: nothing is requested, so only the prefixes end. -/
theorem quietBoundary : Obligations.QuietBoundary := by
  intro i w t hi hr hw hn hq hl
  have quiet : t.clearPrefixes.recognise false = t.clearPrefixes := by
    obtain ⟨held, -, -, idle⟩ := State.recognise_by_request (s := t.clearPrefixes) hl false
    by_cases hall : t.clearPrefixes.window = .all
    · exact held hall
    · exact idle hall hn (.inr (.inr hq))
  rw [State.complete_over hi hr hw, quiet, State.clearPrefixes, State.setLock_false]

/-- Settles O52: between two iterations and while WAIT holds, the boundary is a recognition point in the window of before. -/
theorem boundaryInsideAnInstruction : Obligations.BoundaryInsideAnInstruction := by
  intro i w tf t
  refine ⟨fun hi => State.complete_prefix hi w tf t, fun hi hl => ⟨fun j hj => ?iteration, fun hr hw => ?waiting⟩⟩
  case iteration =>
    rw [State.complete_iteration hi hj, State.setLock_false]
    exact State.recognise_by_request (s := { t with window := w, events := _ }) hl tf
  case waiting =>
    rw [State.complete_waiting hi hr hw]
    exact State.recognise_by_request (s := { t with window := w }) hl false

/-! ## Refused bytes (`30_encoding.md` R119, R123, R124, `70_reset_and_hazards.md` R563) -/

theorem State.due_undecoded {s : State} {e : DecodeError} (hw : s.waiting = false) (hr : s.repeating = none)
    (hd : decode s.fetch = .error e) : s.due = .error (.undecoded e) := by
  simp [State.due, hw, hr, hd]

theorem State.due_stale {s : State} {i : Instr} {rest : List Byte} (hw : s.waiting = false) (hr : s.repeating = none)
    (hd : decode s.fetch = .ok (i, rest))
    (hs : ∃ k, k < (encode i).length ∧ phys s.segs.cs (s.ip + BitVec.ofNat 16 k) ∈ s.staleCode) :
    s.due = .error .storeIntoPrefetch := by
  obtain ⟨-, hlen⟩ := State.decode_fetch hd
  have stale : s.staleBytes (encode i).length = true := by simpa [State.staleBytes] using hs
  simp [State.due, hw, hr, hd, hlen, stale]

theorem State.due_meaningless {s : State} {i : Instr} {rest : List Byte} (hw : s.waiting = false) (hr : s.repeating = none)
    (hd : decode s.fetch = .ok (i, rest))
    (hs : ∀ k, k < (encode i).length → phys s.segs.cs (s.ip + BitVec.ofNat 16 k) ∉ s.staleCode)
    (hm : s.repeatMeaningless i = true) : s.due = .error .meaninglessRepeat := by
  obtain ⟨-, hlen⟩ := State.decode_fetch hd
  simp [State.due, hw, hr, hd, hlen, hm, State.staleBytes_eq_false hs]

/-- Where what is due is refused, so is the step. -/
theorem step_of_due_error {s : State} (hl : s.lines.reset = none) (hh : s.halted = false) {e : Refusal}
    (hd : s.latchNmi.due = .error e) : step s = .refused e := by
  simp [step, hl, State.advance, State.runDue, hh, hd, andThen]

theorem repeatAllowed_f3 {i : Instr} (hp : i.isPrefix = false) (hs : i.isString = false) : repeatAllowed .f3 i = false := by
  unfold repeatAllowed
  split
  iterate 5 cases hs
  exact hp

theorem repeatAllowed_f2 {i : Instr} (hp : i.isPrefix = false) (hs : ∀ w, i ≠ .cmps w ∧ i ≠ .scas w) :
    repeatAllowed .f2 i = false := by
  unfold repeatAllowed
  split
  · next w => exact absurd rfl (hs w).1
  · next w => exact absurd rfl (hs w).2
  iterate 3 rfl
  exact hp

/-- Settles O53: each refusal is what is due at the bytes of CS:IP. -/
theorem stepRefusesWhatIsUnlisted : Obligations.StepRefusesWhatIsUnlisted := by
  intro s hl hh hw hr
  have meaningless : ∀ {z i rest}, decode s.fetch = .ok (i, rest) →
      (∀ k, k < (encode i).length → phys s.segs.cs (s.ip + BitVec.ofNat 16 k) ∉ s.staleCode) →
      s.repeatWith = some z → repeatAllowed z i = false → step s = .refused .meaninglessRepeat := fun hd hs hz ha =>
    step_of_due_error hl hh (State.due_meaningless (s := s.latchNmi) hw hr hd hs (by simp [State.repeatMeaningless, hz, ha]))
  refine ⟨fun e hd => step_of_due_error hl hh (State.due_undecoded (s := s.latchNmi) hw hr hd),
    fun i rest hd hs => step_of_due_error hl hh (State.due_stale (s := s.latchNmi) hw hr hd hs), fun i rest hd hp hs =>
    ⟨fun hz hi => meaningless hd hs hz (repeatAllowed_f3 hp hi), fun hz hi => meaningless hd hs hz (repeatAllowed_f2 hp hi)⟩⟩

end Sys2Proof.Machine
end

section
/-! PROOFS. The data transfer instructions: what each moves, and what it leaves (`40_data_transfer.md` R201 to R217). -/

namespace Sys2Proof.Machine

open Sys2Proof

/-! ## Frames -/

/-- Flags that agree in every name are the same. -/
theorem AgreeBut.eq {f g : Flags} (h : AgreeBut [] f g) : g = f := by
  have value : ∀ n, g.get n = f.get n := fun n => (h n List.not_mem_nil).1
  have mark : ∀ n, g.isUndef n = f.isUndef n := fun n => (h n List.not_mem_nil).2
  obtain ⟨_, _, _, _, _, _, _, _, _, _, _, _, _, _, _⟩ := f
  obtain ⟨_, _, _, _, _, _, _, _, _, _, _, _, _, _, _⟩ := g
  simp only [Flags.mk.injEq, UndefFlags.mk.injEq]
  exact ⟨value .CF, value .PF, value .AF, value .ZF, value .SF, value .TF, value .IF, value .DF, value .OF,
    mark .CF, mark .PF, mark .AF, mark .ZF, mark .SF, mark .OF⟩

section Frames
variable {i : Instr} {s t : State}

/-- An instruction whose flag list is empty keeps the flags and their marks (`10_state.md` R28). -/
theorem exec_flags (h : exec i s = .next t) (hi : i.flagsWritten s = []) : t.flags = s.flags :=
  AgreeBut.eq (hi ▸ (exec_within h).flag)

theorem exec_sameRegsBut (h : exec i s = .next t) : SameRegsBut (i.regsWritten s) s t := (exec_within h).reg

theorem exec_sameMemoryBut (h : exec i s = .next t) : SameMemoryBut (i.storesAt s) s t := (exec_storesTo h).frame

end Frames

/-! ## A register after it, or another one, was written (`10_state.md` R20 to R23) -/

theorem State.reg16_setReg16_same (s : State) (r : Reg16) (v : Word) : (s.setReg16 r v).reg16 r = v :=
  s.gpr.get_set_same r v

theorem State.reg16_setReg16_ne (s : State) {r q : Reg16} (h : q ≠ r) (v : Word) : (s.setReg16 r v).reg16 q = s.reg16 q :=
  s.gpr.get_set_ne v h

theorem State.reg8_setReg8_same (s : State) (r : Reg8) (v : Byte) : (s.setReg8 r v).reg8 r = v :=
  (s.reg8_setReg8 r r v).trans (if_pos rfl)

theorem State.reg8_setReg8_ne (s : State) {r q : Reg8} (h : q ≠ r) (v : Byte) : (s.setReg8 r v).reg8 q = s.reg8 q :=
  (s.reg8_setReg8 r q v).trans (if_neg h)

theorem State.sreg_setSreg_same (s : State) (q : SegReg) (v : Word) : (s.setSreg q v).sreg q = v :=
  (s.segs.get_set q q v).trans (if_pos rfl)

theorem State.sreg_setSreg_ne (s : State) {q p : SegReg} (h : p ≠ q) (v : Word) : (s.setSreg q v).sreg p = s.sreg p :=
  (s.segs.get_set q p v).trans (if_neg h)

theorem State.put8_events (s : State) (v : Byte) (l : Loc Reg8) : (s.put8 v l).events = s.events := by rw [s.put8_rest]

theorem State.put16_events (s : State) (v : Word) (l : Loc Reg16) : (s.put16 v l).events = s.events := by rw [s.put16_rest]

theorem State.put16_window (s : State) (v : Word) (l : Loc Reg16) : (s.put16 v l).window = s.window := by rw [s.put16_rest]

/-! ## MOV (R206 to R209) -/

/-- Settles O11: every form writes its source to the place of its destination. -/
theorem movMovesTheSource : Obligations.MovMovesTheSource := fun s =>
  have stored := SameData.refl s
  ⟨fun f => ⟨_, rfl, s.assign_moved _, exec_flags (i := .movReg f) rfl rfl⟩,
    fun f => ⟨_, rfl, s.assign_moved _, exec_flags (i := .movImm f) rfl rfl⟩,
    fun _ => ⟨_, rfl, stored.stored8 _ (.reg .al), rfl⟩, fun _ => ⟨_, rfl, stored.stored16 _ (.reg .ax), rfl⟩,
    fun _ => ⟨_, rfl, stored.stored8 _ (.mem _ _), rfl⟩, fun _ => ⟨_, rfl, stored.stored16 _ (.mem _ _), rfl⟩⟩

/-- Settles O12: a store to the place of the operand, and a load of one segment register that opens the window. -/
theorem movSegmentRegister : Obligations.MovSegmentRegister := by
  intro s rm q
  refine ⟨⟨_, rfl, ?stored, s.put16_flags _ _, s.put16_window _ _⟩, fun _ => ⟨_, rfl, ?loaded, ?others, rfl, rfl, rfl, rfl⟩⟩
  case stored => exact (SameData.refl s).stored16 _ _
  case loaded => exact s.sreg_setSreg_same q _
  case others => exact fun p hp => s.sreg_setSreg_ne hp _

/-! ## LDS, LES and LEA (R203 to R205) -/

/-- Settles O13: both words are read from the state before. -/
theorem pointerLoadsAndLea : Obligations.PointerLoadsAndLea := by
  intro s d m
  have loaded := s.reg16_setReg16_same d
  exact ⟨⟨_, rfl, loaded _, rfl, rfl, rfl, rfl, exec_sameRegsBut (i := .lds d m) rfl, rfl, rfl⟩,
    ⟨_, rfl, loaded _, rfl, rfl, rfl, rfl, exec_sameRegsBut (i := .les d m) rfl, rfl, rfl⟩,
    ⟨_, rfl, loaded _, rfl, exec_sameRegsBut (i := .lea d m) rfl, rfl, rfl⟩⟩

/-! ## LAHF, SAHF, PUSHF and POPF (R202, R212, R214, R215) -/

theorem lowByte_getLsbD (v : Word) {i : Nat} (h : i < 8) : (lowByte v).getLsbD i = v.getLsbD i := by
  simp [lowByte, h]

/-- The places of the five flags in the low byte of the stored word, which LAHF puts in AH. -/
theorem Flags.lowByte_word_places (f : Flags) (u : Word) :
    [7, 6, 4, 2, 0].map (lowByte (f.word u)).getLsbD = [f.SF, f.ZF, f.AF, f.PF, f.CF] := by
  have places := f.word_places u
  simp only [List.map_cons, List.map_nil, List.cons.injEq, and_true] at places ⊢
  obtain ⟨hc, hp, ha, hz, hs, -⟩ := places
  simp only [lowByte_getLsbD, hc, hp, ha, hz, hs, Nat.reduceLT, and_self]

/-- Loaded flags, stored again, are the defined positions of the word they came from. -/
theorem Flags.word_ofWord (v u : Word) : (Flags.ofWord v).word u &&& 0x0FD5 = v &&& 0x0FD5 := by
  apply BitVec.eq_of_getLsbD_eq
  intro i hi
  simp only [BitVec.getLsbD_and, Flags.word_getLsbD]
  interval_cases i <;> simp [Flags.ofWord]

/-- The word pushed, at its address (`20_memory.md` R81). -/
theorem State.read16_push16 (s : State) (v : Word) : (s.push16 v).read16 s.segs.ss (s.gpr.sp - 2) = v :=
  s.top16_push16 v

/-- Settles O14: the places of the flags in the stored word, in AH and on the stack. -/
theorem flagTransfers : Obligations.FlagTransfers := by
  intro s
  refine ⟨⟨_, rfl, ?ahPlaces, ?alKept, exec_sameRegsBut (i := .lahf) rfl, rfl, rfl⟩,
    ⟨_, rfl, rfl, rfl, rfl, ⟨rfl, rfl, rfl⟩, rfl, rfl⟩,
    ⟨_, rfl, rfl, ?pushed, exec_sameMemoryBut (i := .pushf) rfl, exec_sameRegsBut (i := .pushf) rfl, rfl⟩,
    ⟨_, rfl, rfl, Flags.word_ofWord s.top16, rfl, rfl, exec_sameRegsBut (i := .popf) rfl⟩⟩
  case ahPlaces =>
    have ah : ∀ v, (s.setReg8 .ah v).nextDraw.reg8 .ah = v := s.reg8_setReg8_same .ah
    rw [ah]
    exact s.flags.lowByte_word_places _
  case alKept => exact s.reg8_setReg8_ne (by decide) _
  case pushed =>
    have stored := s.nextDraw.read16_push16 (s.flags.word (Config.undefFlagBits s.draws))
    exact (congrArg Flags.ofWord stored).trans (s.flags.ofWord_word _)

/-! ## PUSH and POP (R211, R213) -/

/-- No effective address depends on SP (`30_encoding.md` R106). -/
theorem State.ea_setReg16_sp (s : State) (v : Word) (m : Mem) : (s.setReg16 .sp v).ea m = s.ea m := by
  cases m with
  | direct a => rfl
  | based b d => cases b <;> rfl

/-- PUSH in every form: the operand is read with SP decremented already (decision D20). -/
theorem exec_push (f : StackForm) (s : State) {v : Word} (hv : (s.setReg16 .sp (s.gpr.sp - 2)).stackSource f = v) :
    ∃ t, exec (.push f) s = .next t ∧ t.gpr.sp = s.gpr.sp - 2 ∧ SameRegsBut [.sp] s t ∧
      t.read16 s.segs.ss (s.gpr.sp - 2) = v ∧ SameMemoryBut s.pushBytes s t :=
  ⟨_, rfl, rfl, exec_sameRegsBut (i := .push f) rfl, (s.read16_push16 _).trans hv, exec_sameMemoryBut (i := .push f) rfl⟩

/-- POP to a general register in both forms: the popped word is written after SP was raised (decision D20). -/
theorem exec_pop_register {i : Instr} {s : State} {r : Reg16} (h : exec i s = .next (s.drop16.setReg16 r s.top16))
    (hi : i.regsWritten s = [.sp, r]) :
    ∃ t, exec i s = .next t ∧ t.reg16 r = s.top16 ∧ (r ≠ .sp → t.gpr.sp = s.gpr.sp + 2) ∧
      SameRegsBut [.sp, r] s t ∧ t.mem = s.mem :=
  ⟨_, h, s.drop16.reg16_setReg16_same r _, fun hr => s.drop16.reg16_setReg16_ne hr.symm _, hi ▸ exec_sameRegsBut h, rfl⟩

/-- Settles O15: each form of PUSH by its source, each form of POP by its destination. -/
theorem pushAndPop : Obligations.PushAndPop := by
  intro s r q m
  refine ⟨exec_push (.seg q) s rfl, ?pushRegister, exec_push (.rm16 (.mem m)) s ?pushMemory,
    fun _ => ⟨_, rfl, rfl, exec_sameRegsBut (i := .pop (.seg q)) rfl, ?loaded, ?others, rfl, rfl⟩, ?popRegister,
    ⟨_, rfl, rfl, exec_sameRegsBut (i := .pop (.rm16 (.mem m))) rfl, s.drop16.get16_put16 s.top16 (s.locate (.mem m)),
      exec_sameMemoryBut (i := .pop (.rm16 (.mem m))) rfl⟩⟩
  case pushRegister =>
    have source := s.reg16_setReg16 .sp r (s.gpr.sp - 2)
    exact List.forall_mem_cons.mpr
      ⟨exec_push (.r16 r) s source, List.forall_mem_singleton.mpr (exec_push (.rm16 (.reg r)) s source)⟩
  case pushMemory => exact congrArg (s.read16 (s.memSeg m)) (s.ea_setReg16_sp _ m)
  case loaded => exact s.drop16.sreg_setSreg_same q _
  case others => exact fun p hp => s.drop16.sreg_setSreg_ne hp _
  case popRegister =>
    exact List.forall_mem_cons.mpr ⟨exec_pop_register rfl rfl, List.forall_mem_singleton.mpr (exec_pop_register rfl rfl)⟩

/-! ## XCHG (R216, `20_memory.md` R78) -/

section Lock
variable {s u : State}

/-- The LOCK output is no data. -/
theorem SameData.setLock (h : SameData s u) (b : Bool) : SameData s (u.setLock b) := ⟨h.gpr, h.segs, h.mem⟩

/-- The same write in two states with the same data. -/
theorem SameData.setReg16 (h : SameData s u) (r : Reg16) (v : Word) : SameData (s.setReg16 r v) (u.setReg16 r v) :=
  ⟨congrArg (Gprs.set · v r) h.gpr, h.segs, h.mem⟩

theorem SameData.setReg8 (h : SameData s u) (r : Reg8) (v : Byte) : SameData (s.setReg8 r v) (u.setReg8 r v) := by
  unfold State.setReg8
  rw [h.reg16]
  exact h.setReg16 _ _

theorem SameData.write8 (h : SameData s u) (seg off : Word) (v : Byte) :
    SameData (s.write8 seg off v) (u.write8 seg off v) :=
  ⟨h.gpr, h.segs, congrArg (Memory.write · (phys seg off).toNat v) h.mem⟩

theorem SameData.put8 (h : SameData s u) (v : Byte) (l : Loc Reg8) : SameData (s.put8 v l) (u.put8 v l) := by
  cases l with
  | reg r => exact h.setReg8 r v
  | mem seg off =>
    obtain ⟨hgpr, hsegs, hmem⟩ := h.write8 seg off v
    exact ⟨hgpr, hsegs, hmem⟩

theorem SameData.put16 (h : SameData s u) (v : Word) (l : Loc Reg16) : SameData (s.put16 v l) (u.put16 v l) := by
  cases l with
  | reg r => exact h.setReg16 r v
  | mem seg off =>
    obtain ⟨hgpr, hsegs, hmem⟩ := (h.write8 seg off (lowByte v)).write8 seg (off + 1) (highByte v)
    exact ⟨hgpr, hsegs, hmem⟩

/-- What is done under LOCK leaves the data it would leave without. -/
theorem SameData.underLock {work : State → State} (h : ∀ u, SameData s u → SameData (work s) (work u)) (locks : Bool) :
    SameData (work s) (s.underLock locks work) := by
  unfold State.underLock
  split
  · exact (h _ ((SameData.refl s).setLock true)).setLock _
  · exact .refl _

/-- LOCK goes active and inactive around work on a memory operand, if it was inactive (`20_memory.md` R78). -/
theorem State.events_underLock {ρ : Type} (s : State) (rm : RM ρ) {work : State → State}
    (h : ∀ u, (work u).events = u.events) : (s.underLock (RmIsMem rm) work).events = xchgEvents s rm := by
  cases rm with
  | reg r => exact h s
  | mem m =>
    have active : (work (s.setLock true)).lockOutput = true :=
      (State.lockOutput_congr (h _)).trans (s.lockOutput_setLock true)
    show ((work (s.setLock true)).setLock s.lockOutput).events = _
    rw [State.setLock_events, active, h, State.setLock_events]
    cases hl : s.lockOutput <;> simp [xchgEvents, hl]

end Lock

/-- A place written before a byte register still reads as what was written; where it is that register, the two values have to be
the same. -/
theorem State.get8_put8_setReg8 (s : State) {l : Loc Reg8} {r : Reg8} {v w : Byte} (h : l = .reg r → w = v) :
    ((s.put8 v l).setReg8 r w).get8 l = v := by
  cases l with
  | mem seg off => exact s.get8_put8 v (.mem seg off)
  | reg q =>
    by_cases hq : q = r
    · subst hq
      exact (State.reg8_setReg8_same _ q w).trans (h rfl)
    · exact (State.reg8_setReg8_ne _ hq w).trans (s.get8_put8 v (.reg q))

/-- The same of a word register. -/
theorem State.get16_put16_setReg16 (s : State) {l : Loc Reg16} {r : Reg16} {v w : Word} (h : l = .reg r → w = v) :
    ((s.put16 v l).setReg16 r w).get16 l = v := by
  cases l with
  | mem seg off => exact s.get16_put16 v (.mem seg off)
  | reg q =>
    by_cases hq : q = r
    · subst hq
      exact (State.reg16_setReg16_same _ q w).trans (h rfl)
    · exact (State.reg16_setReg16_ne _ hq w).trans (s.get16_put16 v (.reg q))

/-- What XCHG of a byte register does under LOCK, in `u`: both values are those of `s`. -/
def State.exchange8 (s : State) (r : Reg8) (l : Loc Reg8) (u : State) : State :=
  (u.put8 (s.reg8 r) l).setReg8 r (s.get8 l)

/-- What XCHG of a word register does under LOCK, in `u`. -/
def State.exchange16 (s : State) (r : Reg16) (l : Loc Reg16) (u : State) : State :=
  (u.put16 (s.reg16 r) l).setReg16 r (s.get16 l)

/-- XCHG of a byte register (R216): `exchange8`, under LOCK where the operand is in memory. -/
theorem exec_xchg8 (s : State) (r : Reg8) (rm : RM Reg8) :
    ∃ t, exec (.xchg (.r8Rm8 r rm)) s = .next t ∧ t.reg8 r = s.get8 (s.locate rm) ∧
      t.get8 (s.locate rm) = s.reg8 r ∧ (∀ q, q ≠ r → s.locate rm ≠ .reg q → t.reg8 q = s.reg8 q) ∧
      t.events = xchgEvents s rm := by
  have data := SameData.underLock (s := s) (work := s.exchange8 r (s.locate rm)) (fun _ hu => (hu.put8 _ _).setReg8 _ _)
    (RmIsMem rm)
  refine ⟨_, rfl, (data.reg8 r).trans ?register, (data.get8 _).trans ?place,
    fun q hq hl => (data.reg8 q).trans ?other, s.events_underLock rm fun u => ?events⟩
  case register => exact State.reg8_setReg8_same _ r _
  case place => exact s.get8_put8_setReg8 fun hl => by rw [hl]; rfl
  case other => exact (State.reg8_setReg8_ne _ hq _).trans (((SameData.refl s).stored8 _ _).halves q hl)
  case events => exact u.put8_events _ _

/-- XCHG of a word register. -/
theorem exec_xchg16 (s : State) (r : Reg16) (rm : RM Reg16) :
    ∃ t, exec (.xchg (.r16Rm16 r rm)) s = .next t ∧ t.reg16 r = s.get16 (s.locate rm) ∧
      t.get16 (s.locate rm) = s.reg16 r ∧ t.events = xchgEvents s rm := by
  have data := SameData.underLock (s := s) (work := s.exchange16 r (s.locate rm)) (fun _ hu => (hu.put16 _ _).setReg16 _ _)
    (RmIsMem rm)
  refine ⟨_, rfl, (data.reg16 r).trans ?register, (data.get16 _).trans ?place, s.events_underLock rm fun u => ?events⟩
  case register => exact State.reg16_setReg16_same _ r _
  case place => exact s.get16_put16_setReg16 fun hl => by rw [hl]; rfl
  case events => exact u.put16_events _ _

/-! ## XLAT (R217) -/

/-- AL is unsigned, and the offset is mod 2^16. -/
theorem add_zextByte (x : Word) (b : Byte) : x + zextByte b = BitVec.ofNat 16 (x.toNat + b.toNat) := by
  apply BitVec.eq_of_toNat_eq
  simp [zextByte, BitVec.toNat_add]

/-- Settles O16: what each form exchanges, with the frames of its registers, bytes and flags. -/
theorem xchgAndXlat : Obligations.XchgAndXlat := by
  intro s
  refine ⟨fun r rm => ?byte, fun r rm => ?word, fun r => ?accumulator, ⟨_, rfl, ?translated, rfl⟩⟩
  case byte =>
    obtain ⟨t, ht, register, place, others, events⟩ := exec_xchg8 s r rm
    exact ⟨t, ht, register, place, others, exec_sameRegsBut ht, exec_sameMemoryBut ht, exec_flags ht rfl, events⟩
  case word =>
    obtain ⟨t, ht, register, place, events⟩ := exec_xchg16 s r rm
    exact ⟨t, ht, register, place, exec_sameRegsBut ht, exec_sameMemoryBut ht, exec_flags ht rfl, events⟩
  case accumulator =>
    exact ⟨_, rfl, rfl, s.get16_put16_setReg16 (l := .reg r) fun hl => by cases hl; rfl,
      exec_sameRegsBut (i := .xchg (.axR16 r)) rfl, rfl, rfl, rfl⟩
  case translated =>
    rw [← add_zextByte]
    exact (SameData.refl s).stored8 _ (.reg .al)

/-! ## IN and OUT (R201, R210) -/

/-- The port is DX, or the immediate zero-extended. -/
theorem State.portNumber_eq (s : State) {p : Port} {n : Word} (hdx : p = .dx → n = s.gpr.dx)
    (himm : ∀ b, p = .imm8 b → n.toNat = b.toNat) : s.portNumber p = n := by
  cases p with
  | dx => exact (hdx rfl).symm
  | imm8 b =>
    apply BitVec.eq_of_toNat_eq
    rw [himm b rfl]
    exact BitVec.toNat_setWidth_of_le (by decide)

/-- Settles O17: the answer of the port is what the event reports and what is loaded. -/
theorem portAccesses : Obligations.PortAccesses := by
  intro s p n hdx himm
  have seen : ∀ e, SameData s (s.emit e).nextDraw := fun _ => ⟨rfl, rfl, rfl⟩
  obtain rfl := s.portNumber_eq hdx himm
  exact ⟨⟨_, _, rfl, rfl, (seen _).stored8 _ (.reg .al), rfl⟩,
    ⟨_, _, rfl, rfl, (seen _).stored16 _ (.reg .ax), rfl⟩, rfl, rfl⟩

end Sys2Proof.Machine
end

section
/-! PROOFS. The additive instructions, CMP and the jumps after it (`41_arithmetic.md` R240, R245 to R260, `44_control_transfer.md`
R358). -/

namespace Sys2Proof.Machine

open Sys2Proof

/-! ## The difference and its flags, as relations of the operands (`10_state.md` R31) -/

/-- The difference is taken mod 2^n, and CF says whether the modulus had to be added. -/
theorem subFlags_borrow {n : Nat} (a b : BitVec n) (c : Bool) (f : Flags) :
    ((subFlags a b c f).1.toNat : Int) =
      (a.toNat : Int) - b.toNat - c.toNat + if (subFlags a b c f).2.CF then ((2 ^ n : Nat) : Int) else 0 := by
  have ha := a.isLt
  have hb := b.isLt
  have hc := Bool.toNat_le c
  have borrow : (subFlags a b c f).2.CF = true ↔ a.toNat < b.toNat + c.toNat := decide_eq_true_iff
  rw [subFlags_toNat, two_pow_eq_cast]
  split
  · next h =>
    have := borrow.mp h
    rw [← Int.add_emod_right, Int.emod_eq_of_lt (by omega) (by omega)]
  · next h =>
    have := mt borrow.mpr h
    rw [add_zero, Int.emod_eq_of_lt (by omega) (by omega)]

theorem subFlags_eq_sub {n : Nat} (a b : BitVec n) (f : Flags) : (subFlags a b false f).1 = a - b := by
  show BitVec.ofInt n ((a.toNat : Int) - b.toNat - (0 : Nat)) = a - b
  rw [Nat.cast_zero, sub_zero, sub_eq_add_neg, BitVec.ofInt_add, BitVec.ofInt_neg, BitVec.ofInt_natCast, BitVec.ofInt_natCast,
    BitVec.ofNat_toNat, BitVec.ofNat_toNat, BitVec.setWidth_eq, BitVec.setWidth_eq, BitVec.sub_eq_add_neg]

theorem subFlags_ZF_iff {n : Nat} (a b : BitVec n) (f : Flags) : (subFlags a b false f).2.ZF = true ↔ a = b := by
  have zero : (subFlags a b false f).2.ZF = true ↔ (subFlags a b false f).1 = 0 := beq_iff_eq
  rw [zero, subFlags_eq_sub, sub_eq_zero]

theorem subFlags_CF_iff {n : Nat} (a b : BitVec n) (f : Flags) :
    (subFlags a b false f).2.CF = true ↔ a.toNat < b.toNat := decide_eq_true_iff

theorem subFlags_below_or_equal_iff {n : Nat} (a b : BitVec n) (f : Flags) :
    ((subFlags a b false f).2.CF || (subFlags a b false f).2.ZF) = true ↔ a.toNat ≤ b.toNat := by
  rw [Bool.or_eq_true, subFlags_CF_iff, subFlags_ZF_iff, ← BitVec.toNat_inj, Nat.le_iff_lt_or_eq]

/-- The sign of the difference is wrong exactly when OF is set, so the two together order the operands as signed numbers. -/
theorem subFlags_less_iff {n : Nat} (h : 0 < n) (a b : BitVec n) (f : Flags) :
    ((subFlags a b false f).2.SF != (subFlags a b false f).2.OF) = true ↔ a.toInt < b.toInt := by
  have two_halves : 2 ^ n = 2 ^ (n - 1) * 2 := (Nat.two_pow_pred_mul_two h).symm
  have ha := a.isLt
  have hb := b.isLt
  have difference := subFlags_borrow a b false f
  have hr := (subFlags a b false f).1.isLt
  have sign : (subFlags a b false f).2.SF = true ↔ 2 ^ (n - 1) ≤ (subFlags a b false f).1.toNat := msb_iff_half_le _
  rw [bne_iff_ne, Ne, Bool.eq_iff_iff, sign, subFlags_OF_iff_signs, Ne, Ne, msb_eq_iff, msb_eq_iff, toInt_of_half,
    toInt_of_half]
  simp only [subFlags_CF_iff, Bool.toNat_false] at difference
  rw [two_halves] at *
  generalize 2 ^ (n - 1) = half at *
  split_ifs at * <;> omega

theorem subFlags_less_or_equal_iff {n : Nat} (h : 0 < n) (a b : BitVec n) (f : Flags) :
    ((subFlags a b false f).2.ZF || (subFlags a b false f).2.SF != (subFlags a b false f).2.OF) = true ↔
      a.toInt ≤ b.toInt := by
  rw [Bool.or_eq_true, subFlags_ZF_iff, subFlags_less_iff h, ← BitVec.toInt_inj, le_iff_eq_or_lt]

/-! ## Conditional jumps whose flags are defined (`44_control_transfer.md` R350, R358) -/

/-- `IP_next` plus the sign-extended increment, mod 2^16. -/
theorem State.branch_sextByte (s : State) (d : Byte) : s.branch (sextByte d) = s.jumped d := by
  have target : s.ip + sextByte d = BitVec.ofInt 16 (s.ip.toNat + d.toInt) := by
    rw [BitVec.ofInt_add, BitVec.ofInt_natCast, BitVec.ofNat_toNat, BitVec.setWidth_eq]
    rfl
  rw [State.branch, target]
  rfl

theorem State.jumpIf_iff {s : State} {reads : List FlagName} (h : s.flags.readsUndef reads = false) {cond : Bool} {p : Prop}
    [Decidable p] (hp : cond = true ↔ p) (d : Byte) : s.jumpIf reads cond d = if p then s.jumped d else s := by
  rw [State.jumpIf, State.chosen_defined h, State.choose_defined h, State.branchIf, State.branch_sextByte]
  exact if_congr hp rfl rfl

theorem State.jumpIf_iff_not {s : State} {reads : List FlagName} (h : s.flags.readsUndef reads = false) {cond : Bool} {p : Prop}
    [Decidable p] (hp : cond = true ↔ p) {opposite : Bool} (ho : opposite = !cond) (d : Byte) :
    s.jumpIf reads opposite d = if p then s else s.jumped d := by
  rw [State.jumpIf_iff h (p := ¬ p) (by rw [ho, Bool.not_eq_true', ← hp, Bool.not_eq_true]), ite_not]

theorem Flags.readsUndef_of_none {f : Flags} (h : f.undef = .none) (reads : List FlagName) : f.readsUndef reads = false := by
  refine List.any_eq_false.mpr fun name _ => ?_
  cases name <;> simp [Flags.isUndef, h, UndefFlags.none]

/-- Where each of the ten jumps goes when the flags are those of `a - b` (last column of R358). -/
theorem jumps_after_subFlags {n : Nat} (h : 0 < n) {a b : BitVec n} {f : Flags} {t : State}
    (ht : t.flags = (subFlags a b false f).2) (d : Byte) :
    exec (.je d) t = .next (if a = b then t.jumped d else t) ∧
    exec (.jne d) t = .next (if a = b then t else t.jumped d) ∧
    exec (.jb d) t = .next (if a.toNat < b.toNat then t.jumped d else t) ∧
    exec (.jae d) t = .next (if a.toNat < b.toNat then t else t.jumped d) ∧
    exec (.jbe d) t = .next (if a.toNat ≤ b.toNat then t.jumped d else t) ∧
    exec (.ja d) t = .next (if a.toNat ≤ b.toNat then t else t.jumped d) ∧
    exec (.jl d) t = .next (if a.toInt < b.toInt then t.jumped d else t) ∧
    exec (.jge d) t = .next (if a.toInt < b.toInt then t else t.jumped d) ∧
    exec (.jle d) t = .next (if a.toInt ≤ b.toInt then t.jumped d else t) ∧
    exec (.jg d) t = .next (if a.toInt ≤ b.toInt then t else t.jumped d) := by
  have defined := Flags.readsUndef_of_none (f := t.flags) (by rw [ht]; rfl)
  have equal := subFlags_ZF_iff a b f
  have below := subFlags_CF_iff a b f
  have belowOrEqual := subFlags_below_or_equal_iff a b f
  have less := subFlags_less_iff h a b f
  have lessOrEqual := subFlags_less_or_equal_iff h a b f
  rw [← ht] at equal below belowOrEqual less lessOrEqual
  refine ⟨?je, ?jne, ?jb, ?jae, ?jbe, ?ja, ?jl, ?jge, ?jle, ?jg⟩ <;> refine congrArg Host.Outcome.next ?_
  case je => exact State.jumpIf_iff (defined _) equal d
  case jne => exact State.jumpIf_iff_not (defined _) equal rfl d
  case jb => exact State.jumpIf_iff (defined _) below d
  case jae => exact State.jumpIf_iff_not (defined _) below rfl d
  case jbe => exact State.jumpIf_iff (defined _) belowOrEqual d
  case ja => exact State.jumpIf_iff_not (defined _) belowOrEqual (Bool.not_or _ _).symm d
  case jl => exact State.jumpIf_iff (defined _) less d
  case jge => exact State.jumpIf_iff_not (defined _) less (Bool.not_not _).symm d
  case jle => exact State.jumpIf_iff (defined _) lessOrEqual d
  case jg => exact State.jumpIf_iff_not (defined _) lessOrEqual (greater_condition _ _ _).symm d

/-! ## Operations with two operands (R240) -/

section Operations
variable (s : State) (op : {n : Nat} → BitVec n → BitVec n → Flags → BitVec n × Flags)

theorem State.combine_combined (o : Operands) :
    Combined s (s.combine op o) (fun a b r => (r, (s.combine op o).flags) = op a b s.flags) o :=
  (SameData.refl s).combined o fun _ _ flags => Prod.ext rfl flags

/-- With CF `undef`, the destination is still written, and nothing else but the flags (R245, log 1). -/
theorem State.combineWithCarry_combined (o : Operands) :
    Combined s (s.combineWithCarry op o)
        (fun a b r => s.flags.undef.CF = false → (r, (s.combineWithCarry op o).flags) = op a b s.flags) o ∧
      (s.flags.undef.CF = true →
        (s.combineWithCarry op o).flags.undef = .all ∧ SameControl (s.combineWithCarry op o).flags s.flags) := by
  cases h : s.flags.undef.CF with
  | false =>
    rw [State.combineWithCarry_defined h]
    exact ⟨(SameData.refl s).combined o fun _ _ flags _ => Prod.ext rfl flags, nofun⟩
  | true =>
    rw [State.combineWithCarry_undef h]
    refine ⟨(SameData.refl s).nextDraw.combined o fun _ _ _ => nofun, fun _ => ?_⟩
    cases o with
    | byte d b => rw [State.combine, State.put8_flags]; exact ⟨rfl, rfl, rfl, rfl⟩
    | word d b => rw [State.combine, State.put16_flags]; exact ⟨rfl, rfl, rfl, rfl⟩

theorem State.compare_eq_withFlags (o : Operands) : s.compare op o = s.withFlags (s.compare op o).flags := by
  cases o <;> rfl

/-- What compares has the flags of `op`, at a width above 0. -/
theorem State.compare_compared {P : {n : Nat} → (a b : BitVec n) → Prop} (o : Operands)
    (hP : ∀ {n : Nat} (a b : BitVec n), 0 < n → (s.compare op o).flags = (op a b s.flags).2 → P a b) :
    Compared s P o := by
  cases o with
  | byte d b => exact hP _ b (by decide) rfl
  | word d b => exact hP _ b (by decide) rfl

end Operations

/-- Settles O10: the flags of CMP are those of the difference, and each condition on them is a relation of the operands. -/
theorem compareThenJump : Obligations.CompareThenJump := fun f s =>
  ⟨_, rfl, s.compare_compared _ (s.aluOperands f) fun _ _ h flags => jumps_after_subFlags h flags⟩

/-! ## NEG (R258) -/

theorem toNat_zero_literal (n : Nat) : (0 : BitVec n).toNat = 0 := BitVec.toNat_zero

theorem subFlags_zero_left {n : Nat} (a : BitVec n) (f : Flags) : (subFlags 0 a false f).1 = -a := by
  rw [subFlags_eq_sub, zero_sub]

/-- CF of `0 - a`: every operand but 0 borrows. -/
theorem subFlags_zero_left_CF {n : Nat} (a : BitVec n) (f : Flags) : (subFlags 0 a false f).2.CF = true ↔ a ≠ 0 := by
  rw [subFlags_CF_iff, toNat_zero_literal, Nat.pos_iff_ne_zero, Ne, Ne, ← BitVec.toNat_inj, toNat_zero_literal]

/-- OF of `0 - a`: only the most negative value is its own negative, 0 apart. -/
theorem subFlags_zero_left_OF {n : Nat} (h : 0 < n) (a : BitVec n) (f : Flags) :
    (subFlags 0 a false f).2.OF = true ↔ a ≠ 0 ∧ -a = a := by
  have two_halves : 2 ^ n = 2 ^ (n - 1) * 2 := (Nat.two_pow_pred_mul_two h).symm
  have ha := a.isLt
  have negative := subFlags_borrow 0 a false f
  rw [subFlags_OF_iff_signs, Ne, Ne, msb_eq_iff, msb_eq_iff, subFlags_zero_left, ← BitVec.toNat_inj, Ne, ← BitVec.toNat_inj,
    toNat_zero_literal]
  simp only [subFlags_zero_left, subFlags_CF_iff, Bool.toNat_false, toNat_zero_literal] at negative
  rw [two_halves] at ha negative
  generalize 2 ^ (n - 1) = half at *
  split_ifs at negative <;> omega

theorem subFlags_zero_left_AF {n : Nat} (a : BitVec n) (f : Flags) :
    (subFlags 0 a false f).2.AF = true ↔ a.toNat % 16 ≠ 0 := by
  have low : (subFlags 0 a false f).2.AF = true ↔ (0 : BitVec n).toNat % 16 < a.toNat % 16 + 0 := decide_eq_true_iff
  rw [low, toNat_zero_literal, Nat.zero_mod, Nat.add_zero, Nat.pos_iff_ne_zero]

/-- Settles O18: each form is the shared operation on the flag function of its rule. -/
theorem additiveInstructions : Obligations.AdditiveInstructions := by
  intro s
  refine ⟨fun f => ?binary, fun f => ?cmp, fun f => ?unary, fun f => ?neg⟩
  case binary =>
    exact ⟨⟨_, rfl, s.combine_combined _ _⟩, ⟨_, rfl, s.combineWithCarry_combined _ _⟩, ⟨_, rfl, s.combine_combined _ _⟩,
      ⟨_, rfl, s.combineWithCarry_combined _ _⟩⟩
  case cmp => exact ⟨_, rfl, s.compare_eq_withFlags _ _, s.compare_compared _ _ fun _ _ _ flags => flags⟩
  case unary =>
    exact ⟨⟨_, rfl, (SameData.refl s).modified _ fun _ _ flags => ⟨rfl, flags⟩⟩,
      ⟨_, rfl, (SameData.refl s).modified _ fun _ _ flags => ⟨rfl, flags⟩⟩⟩
  case neg =>
    refine ⟨_, rfl, (SameData.refl s).modified _ fun a h flags => ?_⟩
    rw [flags]
    exact ⟨subFlags_zero_left a s.flags, subFlags_zero_left_CF a _, subFlags_zero_left_OF h a _, subFlags_zero_left_AF a _,
      Flags.szp_describes s.flags _, rfl, rfl, rfl, rfl⟩

end Sys2Proof.Machine
end

section
/-! PROOFS. Multiplication, sign extension and division (`41_arithmetic.md` R247, R249, R253 to R255, R257, `60_exceptions.md` R501). -/

namespace Sys2Proof.Machine

open Sys2Proof

/-! ## A value in two words: DX and AX -/

theorem State.dxAx_toNat (s : State) : s.dxAx.toNat = s.gpr.dx.toNat * 65536 + s.gpr.ax.toNat := by
  rw [State.dxAx, BitVec.toNat_append, Nat.shiftLeft_eq, Nat.mul_comm, ← Nat.two_pow_add_eq_or_of_lt s.gpr.ax.isLt]

theorem State.dxAx_toInt (s : State) : s.dxAx.toInt = 65536 * s.gpr.dx.toInt + s.gpr.ax.toNat := BitVec.toInt_append

@[simp] theorem State.dxAx_setDxAx (s : State) (v : BitVec 32) : (s.setDxAx v).dxAx = v :=
  (BitVec.extractLsb'_append_extractLsb'_eq_extractLsb' (start₁ := 0) (len₁ := 16) rfl).trans BitVec.extractLsb'_eq_self

/-! ## Products (R255, R257) -/

/-- Twice the width holds every unsigned product. -/
theorem toNat_ofNat_mul {n : Nat} (a b : BitVec n) :
    (BitVec.ofNat (n + n) (a.toNat * b.toNat)).toNat = a.toNat * b.toNat := by
  have small : a.toNat * b.toNat < 2 ^ (n + n) := by
    rw [pow_add]
    exact Nat.mul_lt_mul'' a.isLt b.isLt
  rw [BitVec.toNat_ofNat, Nat.mod_eq_of_lt small]

/-- Twice the width holds every signed product. -/
theorem toInt_ofInt_mul {n : Nat} (h : 0 < n) (a b : BitVec n) :
    (BitVec.ofInt (n + n) (a.toInt * b.toInt)).toInt = a.toInt * b.toInt := by
  have room : (2 : Int) ^ (n * 2 - 2) < 2 ^ (n + n - 1) := pow_lt_pow_right₀ (by decide) (by omega)
  have low := BitVec.le_toInt_mul_toInt (x := a) (y := b)
  have high := BitVec.toInt_mul_toInt_le (x := a) (y := b)
  exact BitVec.toInt_ofInt_eq_self (by omega) (by linarith) (by linarith)

theorem highByte_ne_zero_iff (v : Word) : (highByte v != 0) = true ↔ 256 ≤ v.toNat := by
  have zero : highByte v = 0 ↔ v.toNat / 256 = 0 := by
    rw [← BitVec.toNat_inj, highByte_toNat]
    rfl
  rw [bne_iff_ne, Ne, zero]
  omega

theorem highWord_ne_zero_iff (v : BitVec 32) : (v.extractLsb' 16 16 != 0) = true ↔ 65536 ≤ v.toNat := by
  have hv := v.isLt
  have zero : v.extractLsb' 16 16 = 0 ↔ v.toNat / 65536 % 65536 = 0 := by
    rw [← BitVec.toNat_inj, BitVec.extractLsb'_toNat, Nat.shiftRight_eq_div_pow]
    rfl
  rw [bne_iff_ne, Ne, zero]
  omega

/-- A word is the sign extension of its lower half iff both have the same signed value. -/
theorem ne_signExtend_eq_false_iff {k n : Nat} (h : k ≤ n) (v : BitVec n) (low : BitVec k) :
    (v != low.signExtend n) = false ↔ v.toInt = low.toInt := by
  rw [bne_eq_false_iff_eq, ← BitVec.toInt_inj, BitVec.toInt_signExtend_of_le h]

/-- Filling DX with the sign of AX keeps the signed value (R249). -/
theorem toInt_sign_fill (v : Word) : 65536 * (if v.msb then 0xFFFF else 0x0000 : Word).toInt + v.toNat = v.toInt := by
  have hv := v.isLt
  rw [BitVec.toInt_eq_msb_cond v]
  cases v.msb with
  | false => exact zero_add _
  | true => exact (add_comm _ _).trans rfl

/-- Settles O19: the product is exact at twice the width, and CF compares it with its lower half. -/
theorem multiplicationAndSignExtension : Obligations.MultiplicationAndSignExtension := by
  intro s x y
  have control : ∀ {n : Nat} {b : Bool}, SameControl (s.flags.multiplied n b) s.flags := ⟨rfl, rfl, rfl⟩
  refine ⟨⟨_, rfl, ?mul8, exec_sameRegsBut (i := .mul (.rm8 x)) rfl, rfl, ?mul8CF, rfl, rfl, control⟩,
    ⟨_, rfl, ?mul16, exec_sameRegsBut (i := .mul (.rm16 y)) rfl, rfl, ?mul16CF, rfl, rfl, control⟩,
    ⟨_, rfl, ?imul8, exec_sameRegsBut (i := .imul (.rm8 x)) rfl, rfl, ?imul8CF, rfl, rfl, control⟩,
    ⟨_, rfl, ?imul16, exec_sameRegsBut (i := .imul (.rm16 y)) rfl, rfl, ?imul16CF, rfl, rfl, control⟩,
    ⟨_, rfl, rfl, ?cbw, exec_sameRegsBut (i := .cbw) rfl⟩, ⟨_, rfl, rfl, ?cwd, exec_sameRegsBut (i := .cwd) rfl⟩⟩
  case mul8 => exact toNat_ofNat_mul (n := 8) _ _
  case mul8CF => exact (highByte_ne_zero_iff _).trans (Iff.of_eq (congrArg (256 ≤ ·) (toNat_ofNat_mul (n := 8) _ _)))
  case mul16 => exact (State.dxAx_toNat _).symm.trans ((congrArg _ (s.dxAx_setDxAx _)).trans (toNat_ofNat_mul (n := 16) _ _))
  case mul16CF => exact (highWord_ne_zero_iff _).trans (Iff.of_eq (congrArg (65536 ≤ ·) (toNat_ofNat_mul (n := 16) _ _)))
  case imul8 => exact toInt_ofInt_mul (n := 8) (by decide) _ _
  case imul8CF => exact ne_signExtend_eq_false_iff (by decide) _ _
  case imul16 => exact (congrArg _ (s.dxAx_setDxAx _)).trans (toInt_ofInt_mul (n := 16) (by decide) _ _)
  case imul16CF =>
    refine (ne_signExtend_eq_false_iff (by decide) _ _).trans ?_
    exact Iff.of_eq (congrArg (BitVec.toInt · = _) (s.dxAx_setDxAx _).symm)
  case cbw => exact BitVec.toInt_signExtend_of_le (by decide)
  case cwd => exact (State.dxAx_toInt _).trans (toInt_sign_fill _)

/-! ## Quotients and remainders (R253, R254) -/

theorem unsignedDivide_fits {n num d : Nat} (hd : d ≠ 0) (hq : num / d < 2 ^ n) :
    unsignedDivide n num d = some (num / d, num % d) := if_neg (by omega)

theorem unsignedDivide_error {n num d : Nat} (h : d = 0 ∨ 2 ^ n - 1 < num / d) : unsignedDivide n num d = none := if_pos h

theorem signedDivide_fits {n : Nat} {num d : Int} (hd : d ≠ 0) (low : -2 ^ (n - 1) < num.tdiv d)
    (high : num.tdiv d < 2 ^ (n - 1)) : signedDivide n num d = some (num.tdiv d, num.tmod d) := by
  rw [signedDivide, if_neg hd]
  dsimp only
  rw [if_neg (by omega), if_neg (by omega), Int.tmod_def, mul_comm]

theorem signedDivide_error {n : Nat} {num d : Int} (h : d = 0 ∨ 2 ^ (n - 1) - 1 < num.tdiv d ∨ num.tdiv d < -2 ^ (n - 1)) :
    signedDivide n num d = none := by
  by_cases hd : d = 0
  · exact if_pos hd
  · rw [signedDivide, if_neg hd]
    exact if_pos (h.resolve_left hd)

/-- The most negative quotient is an error iff `IDIV_MIN_FAULTS` (decision D21). -/
theorem signedDivide_min {n : Nat} {num d : Int} (hd : d ≠ 0) (hq : num.tdiv d = -2 ^ (n - 1)) :
    signedDivide n num d = if Config.idivMinFaults then none else some (num.tdiv d, num.tmod d) := by
  have positive : (0 : Int) < 2 ^ (n - 1) := by positivity
  rw [signedDivide, if_neg hd]
  dsimp only
  rw [if_neg (by omega), Int.tmod_def, mul_comm]
  simp only [hq, true_and]

theorem toNat_ofNat_mod {n : Nat} (num : Nat) {d : BitVec n} (hd : d.toNat ≠ 0) :
    (BitVec.ofNat n (num % d.toNat)).toNat = num % d.toNat := by
  rw [BitVec.toNat_ofNat, Nat.mod_eq_of_lt ((Nat.mod_lt _ (Nat.pos_of_ne_zero hd)).trans d.isLt)]

/-- The remainder of truncation is smaller than the divisor, so it fits where the divisor does. -/
theorem toInt_ofInt_tmod {n : Nat} (h : 0 < n) (num : Int) {d : BitVec n} (hd : d.toInt ≠ 0) :
    (BitVec.ofInt n (num.tmod d.toInt)).toInt = num.tmod d.toInt := by
  have smaller : (num.tmod d.toInt).natAbs < d.toInt.natAbs := by
    rw [Int.natAbs_tmod]
    exact Nat.mod_lt _ (Int.natAbs_pos.mpr hd)
  have low := d.le_toInt
  have high := d.toInt_lt
  exact BitVec.toInt_ofInt_eq_self h (by omega) (by omega)

/-! ## What a division leaves -/

/-- `t` differs from `s` in the registers of `changed` and in the arithmetic flags only. -/
def KeepsBut (changed : List Reg16) (s t : State) : Prop :=
  SameRegsBut changed s t ∧ t.mem = s.mem ∧ t.ip = s.ip ∧ t.segs = s.segs ∧ SameControl t.flags s.flags

/-- AX is written and the six flags are `undef`: a quotient and remainder, or the free value before a divide error. -/
def State.divided8 (s : State) (ax : Word) : State := ((s.setReg16 .ax ax).withFlags (s.flags.undefined s.draws)).nextDraw

/-- The same of a word division, which writes AX and DX. -/
def State.divided16 (s : State) (ax dx : Word) : State :=
  (((s.setReg16 .ax ax).setReg16 .dx dx).withFlags (s.flags.undefined s.draws)).nextDraw

theorem State.divided8_keeps (s : State) (ax : Word) : KeepsBut [.ax] s (s.divided8 ax) :=
  ⟨fun _ hr => s.reg16_setReg16_ne (List.ne_of_not_mem_cons hr) ax, rfl, rfl, rfl, rfl, rfl, rfl⟩

theorem State.divided16_keeps (s : State) (ax dx : Word) : KeepsBut [.ax, .dx] s (s.divided16 ax dx) := by
  refine ⟨fun r hr => ?_, rfl, rfl, rfl, rfl, rfl, rfl⟩
  have hax : r ≠ .ax := List.ne_of_not_mem_cons hr
  have hdx : r ≠ .dx := List.ne_of_not_mem_cons (List.not_mem_of_not_mem_cons hr)
  exact (State.reg16_setReg16_ne _ hdx dx).trans (s.reg16_setReg16_ne hax ax)

/-- Where a byte division ends: with its quotient and remainder in AL and AH, or in the interrupt sequence of type 0. -/
def State.finish8 (s : State) : Option (Byte × Byte) → State
  | some (q, r) => s.divided8 (wordOf r q)
  | none => (s.divided8 (Config.undefReg s.draws 0)).interrupt 0

/-- Where a word division ends: with its quotient and remainder in AX and DX, or in the interrupt sequence of type 0. -/
def State.finish16 (s : State) : Option (Word × Word) → State
  | some (q, r) => s.divided16 q r
  | none => (s.divided16 (Config.undefReg s.draws 0) (Config.undefReg s.draws 2)).interrupt 0

section Divisions
variable {s : State} {i : Instr} {x : RM Reg8} {y : RM Reg16} {o : Option (Nat × Nat)} {z : Option (Int × Int)}

theorem exec_div8 (h : unsignedDivide 8 s.gpr.ax.toNat (s.get8 (s.locate x)).toNat = o) :
    exec (.div (.rm8 x)) s = .next (s.finish8 (o.map (Prod.map (BitVec.ofNat 8) (BitVec.ofNat 8)))) := by
  simp only [exec, execDiv, State.unaryDest, h]
  cases o <;> rfl

theorem exec_div16 (h : unsignedDivide 16 s.dxAx.toNat (s.get16 (s.locate y)).toNat = o) :
    exec (.div (.rm16 y)) s = .next (s.finish16 (o.map (Prod.map (BitVec.ofNat 16) (BitVec.ofNat 16)))) := by
  simp only [exec, execDiv, State.unaryDest, h]
  cases o <;> rfl

theorem exec_idiv8 (h : signedDivide 8 s.gpr.ax.toInt (s.get8 (s.locate x)).toInt = z) :
    exec (.idiv (.rm8 x)) s = .next (s.finish8 (z.map (Prod.map (BitVec.ofInt 8) (BitVec.ofInt 8)))) := by
  simp only [exec, execIdiv, State.unaryDest, h]
  cases z <;> rfl

theorem exec_idiv16 (h : signedDivide 16 s.dxAx.toInt (s.get16 (s.locate y)).toInt = z) :
    exec (.idiv (.rm16 y)) s = .next (s.finish16 (z.map (Prod.map (BitVec.ofInt 16) (BitVec.ofInt 16)))) := by
  simp only [exec, execIdiv, State.unaryDest, h]
  cases z <;> rfl

theorem divide_result8 {q r : Byte} (h : exec i s = .next (s.finish8 (some (q, r)))) :
    ∃ t, exec i s = .next t ∧ t.reg8 .al = q ∧ t.reg8 .ah = r ∧ KeepsBut [.ax] s t :=
  ⟨_, h, lowByte_wordOf r q, highByte_wordOf r q, s.divided8_keeps _⟩

theorem divide_result16 {q r : Word} (h : exec i s = .next (s.finish16 (some (q, r)))) :
    ∃ t, exec i s = .next t ∧ t.gpr.ax = q ∧ t.gpr.dx = r ∧ KeepsBut [.ax, .dx] s t :=
  ⟨_, h, rfl, rfl, s.divided16_keeps _ _⟩

theorem divide_error8 (h : exec i s = .next (s.finish8 none)) :
    ∃ u : State, exec i s = .next (u.interrupt 0) ∧ KeepsBut [.ax] s u := ⟨_, h, s.divided8_keeps _⟩

theorem divide_error16 (h : exec i s = .next (s.finish16 none)) :
    ∃ u : State, exec i s = .next (u.interrupt 0) ∧ KeepsBut [.ax, .dx] s u := ⟨_, h, s.divided16_keeps _ _⟩

/-- A byte IDIV that stores its quotient stores it, and the remainder, with their signed values. -/
theorem exec_idiv8_stores (hd : (s.get8 (s.locate x)).toInt ≠ 0)
    (h : signedDivide 8 s.gpr.ax.toInt (s.get8 (s.locate x)).toInt =
      some (s.gpr.ax.toInt.tdiv (s.get8 (s.locate x)).toInt, s.gpr.ax.toInt.tmod (s.get8 (s.locate x)).toInt))
    (low : -128 ≤ s.gpr.ax.toInt.tdiv (s.get8 (s.locate x)).toInt)
    (high : s.gpr.ax.toInt.tdiv (s.get8 (s.locate x)).toInt < 128) :
    ∃ t, exec (.idiv (.rm8 x)) s = .next t ∧
      (t.reg8 .al).toInt = s.gpr.ax.toInt.tdiv (s.get8 (s.locate x)).toInt ∧
      (t.reg8 .ah).toInt = s.gpr.ax.toInt.tmod (s.get8 (s.locate x)).toInt ∧ KeepsBut [.ax] s t := by
  obtain ⟨t, ht, quotient, remainder, keeps⟩ := divide_result8 (exec_idiv8 h)
  refine ⟨t, ht, ?_, ?_, keeps⟩
  · rw [quotient, BitVec.toInt_ofInt_eq_self (by decide) low high]
  · rw [remainder, toInt_ofInt_tmod (by decide) _ hd]

theorem exec_idiv16_stores (hd : (s.get16 (s.locate y)).toInt ≠ 0)
    (h : signedDivide 16 s.dxAx.toInt (s.get16 (s.locate y)).toInt =
      some (s.dxAx.toInt.tdiv (s.get16 (s.locate y)).toInt, s.dxAx.toInt.tmod (s.get16 (s.locate y)).toInt))
    (low : -32768 ≤ s.dxAx.toInt.tdiv (s.get16 (s.locate y)).toInt)
    (high : s.dxAx.toInt.tdiv (s.get16 (s.locate y)).toInt < 32768) :
    ∃ t, exec (.idiv (.rm16 y)) s = .next t ∧
      t.gpr.ax.toInt = s.dxAx.toInt.tdiv (s.get16 (s.locate y)).toInt ∧
      t.gpr.dx.toInt = s.dxAx.toInt.tmod (s.get16 (s.locate y)).toInt ∧ KeepsBut [.ax, .dx] s t := by
  obtain ⟨t, ht, quotient, remainder, keeps⟩ := divide_result16 (exec_idiv16 h)
  refine ⟨t, ht, ?_, ?_, keeps⟩
  · rw [quotient, BitVec.toInt_ofInt_eq_self (by decide) low high]
  · rw [remainder, toInt_ofInt_tmod (by decide) _ hd]

end Divisions

/-- Settles O20: a quotient in range is stored, with the remainder of truncation. -/
theorem divisionsThatFit : Obligations.DivisionsThatFit := by
  intro s x y
  refine ⟨fun hd fits => ?div8, fun hd fits => ?div16,
    fun hd low high => exec_idiv8_stores hd (signedDivide_fits hd low high) low.le high,
    fun hd low high => exec_idiv16_stores hd (signedDivide_fits hd low high) low.le high⟩
  case div8 =>
    obtain ⟨t, ht, quotient, remainder, keeps⟩ := divide_result8 (exec_div8 (unsignedDivide_fits hd fits))
    refine ⟨t, ht, ?_, ?_, keeps⟩
    · rw [quotient, BitVec.toNat_ofNat, Nat.mod_eq_of_lt fits]
    · rw [remainder, toNat_ofNat_mod _ hd]
  case div16 =>
    obtain ⟨t, ht, quotient, remainder, keeps⟩ := divide_result16 (exec_div16 (unsignedDivide_fits hd fits))
    refine ⟨t, ht, ?_, ?_, keeps⟩
    · rw [quotient, BitVec.toNat_ofNat, Nat.mod_eq_of_lt fits]
    · rw [remainder, toNat_ofNat_mod _ hd]

/-- Settles O21: the interrupt sequence starts from the state a division with free results leaves. -/
theorem divideErrorsTrap : Obligations.DivideErrorsTrap := by
  intro s x y
  refine ⟨fun h => ?div8, fun h => ?div16, fun h => ?idiv8, fun h => ?idiv16⟩
  case div8 =>
    have error := exec_div8 (unsignedDivide_error (n := 8) h)
    exact divide_error8 error
  case div16 =>
    have error := exec_div16 (unsignedDivide_error (n := 16) h)
    exact divide_error16 error
  case idiv8 =>
    have error := exec_idiv8 (signedDivide_error (n := 8) h)
    exact divide_error8 error
  case idiv16 =>
    have error := exec_idiv16 (signedDivide_error (n := 16) h)
    exact divide_error16 error

/-- Settles O22, for each of the two values the open parameter can have. -/
theorem mostNegativeQuotient : Obligations.MostNegativeQuotient := by
  intro s x y
  refine ⟨fun hd hq => ?byte, fun hd hq => ?word⟩
  case byte =>
    have divide := signedDivide_min (n := 8) hd hq
    split
    · next faults =>
      have error := exec_idiv8 (divide.trans (if_pos faults))
      exact divide_error8 error
    · next stores =>
      have stored := exec_idiv8_stores hd (divide.trans (if_neg stores)) hq.ge (hq.trans_lt (by decide))
      rwa [hq] at stored
  case word =>
    have divide := signedDivide_min (n := 16) hd hq
    split
    · next faults =>
      have error := exec_idiv16 (divide.trans (if_pos faults))
      exact divide_error16 error
    · next stores =>
      have stored := exec_idiv16_stores hd (divide.trans (if_neg stores)) hq.ge (hq.trans_lt (by decide))
      rwa [hq] at stored

end Sys2Proof.Machine
end

section
/-! PROOFS. The adjustments for unpacked and packed decimal operands (`41_arithmetic.md` R241 to R244, R250, R251). -/

namespace Sys2Proof.Machine

open Sys2Proof

/-- The low digit of AL is no decimal digit, or an operation before carried out of it: AAA, AAS, DAA and DAS then adjust. -/
def State.lowDigitAdjusts (s : State) : Bool := decide (9 < (s.reg8 .al).toNat % 16) || s.flags.AF

/-- AL is above 99 in packed decimal, or an operation before carried out of it: DAA and DAS then adjust the high digit. -/
def State.highDigitAdjusts (s : State) : Bool := decide (0x99 < (s.reg8 .al).toNat) || s.flags.CF

theorem State.lowDigitAdjusts_iff (s : State) :
    s.lowDigitAdjusts = true ↔ 9 < (s.reg8 .al).toNat % 16 ∨ s.flags.AF = true := by
  rw [State.lowDigitAdjusts, Bool.or_eq_true, decide_eq_true_iff]

theorem State.highDigitAdjusts_iff (s : State) :
    s.highDigitAdjusts = true ↔ 0x99 < (s.reg8 .al).toNat ∨ s.flags.CF = true := by
  rw [State.highDigitAdjusts, Bool.or_eq_true, decide_eq_true_iff]

theorem lowDigit_toNat (b : Byte) : (b &&& 0x0F).toNat = b.toNat % 16 :=
  (BitVec.toNat_and b _).trans (Nat.and_two_pow_sub_one_eq_mod b.toNat 4)

theorem lowDigit_add_toNat (a b : Byte) : ((a + b) &&& 0x0F).toNat = (a.toNat + b.toNat) % 16 := by
  rw [lowDigit_toNat, BitVec.toNat_add, Nat.mod_mod_of_dvd _ (by decide)]

section Adjustments
variable {i : Instr} {s : State} {units tens : Byte}

/-! ## AAA and AAS (R241, R244) -/

theorem ascii_result (h : exec i s = .next (s.asciiAdjust units tens)) (defined : s.flags.undef.AF = false) :
    ∃ t, exec i s = .next t ∧ SameRegsBut [.ax] s t ∧ t.mem = s.mem ∧ SameControl t.flags s.flags ∧
      t.flags.CF = t.flags.AF ∧ t.flags.undef = { UndefFlags.all with AF := false, CF := false } ∧
      (t.flags.AF = true ↔ 9 < (s.reg8 .al).toNat % 16 ∨ s.flags.AF = true) ∧
      (t.flags.AF = true →
        (t.reg8 .al).toNat = ((s.reg8 .al).toNat + units.toNat) % 16 ∧ t.reg8 .ah = s.reg8 .ah + tens) ∧
      (t.flags.AF = false → (t.reg8 .al).toNat = (s.reg8 .al).toNat % 16 ∧ t.reg8 .ah = s.reg8 .ah) := by
  have adjusted : s.asciiAdjust units tens =
      ((s.setReg16 .ax (wordOf (if s.lowDigitAdjusts then s.reg8 .ah + tens else s.reg8 .ah)
        ((if s.lowDigitAdjusts then s.reg8 .al + units else s.reg8 .al) &&& 0x0F))).withFlags
        (s.flags.asciiAdjusted s.draws s.lowDigitAdjusts)).nextDraw := by
    unfold State.asciiAdjust
    exact if_neg (by rw [defined]; exact Bool.false_ne_true)
  refine ⟨_, h.trans (congrArg _ adjusted), fun _ hr => s.reg16_setReg16_ne (List.ne_of_not_mem_cons hr) _, rfl,
    ⟨rfl, rfl, rfl⟩, rfl, rfl, s.lowDigitAdjusts_iff,
    fun (adjusts : s.lowDigitAdjusts = true) => ⟨?al, ?ah⟩, fun (keeps : s.lowDigitAdjusts = false) => ⟨?al', ?ah'⟩⟩
  case al =>
    refine (congrArg BitVec.toNat (lowByte_wordOf _ _)).trans ?_
    rw [if_pos adjusts, lowDigit_add_toNat]
  case ah => exact (highByte_wordOf _ _).trans (if_pos adjusts)
  case al' =>
    refine (congrArg BitVec.toNat (lowByte_wordOf _ _)).trans ?_
    rw [if_neg (ne_true_of_eq_false keeps), lowDigit_toNat]
  case ah' => exact (highByte_wordOf _ _).trans (if_neg (ne_true_of_eq_false keeps))

theorem ascii_undef (h : exec i s = .next (s.asciiAdjust units tens)) (undef : s.flags.undef.AF = true) :
    ∃ t, exec i s = .next t ∧ SameRegsBut [.ax] s t ∧ t.mem = s.mem ∧ t.flags.undef = .all ∧ SameControl t.flags s.flags := by
  have free : s.asciiAdjust units tens =
      ((s.setReg16 .ax (Config.undefResult s.draws 16)).withFlags (s.flags.undefined s.draws)).nextDraw := if_pos undef
  exact ⟨_, h.trans (congrArg _ free), fun _ hr => s.reg16_setReg16_ne (List.ne_of_not_mem_cons hr) _, rfl, rfl, rfl, rfl, rfl⟩

/-! ## AAD and AAM (R242, R243) -/

theorem scaled_result {hi lo : Byte} (h : exec i s =
    .next (((s.setReg16 .ax (wordOf hi lo)).withFlags (s.flags.asciiScaled s.draws lo)).nextDraw)) :
    ∃ t, exec i s = .next t ∧ SameRegsBut [.ax] s t ∧ t.mem = s.mem ∧ SameControl t.flags s.flags ∧
      t.reg8 .ah = hi ∧ t.reg8 .al = lo ∧ Describes t.flags lo ∧
      t.flags.undef = { UndefFlags.none with OF := true, AF := true, CF := true } :=
  ⟨_, h, fun _ hr => s.reg16_setReg16_ne (List.ne_of_not_mem_cons hr) _, rfl, ⟨rfl, rfl, rfl⟩, highByte_wordOf hi lo,
    lowByte_wordOf hi lo, Flags.szp_describes s.flags lo, rfl⟩

theorem zextByte_eq_wordOf (b : Byte) : zextByte b = wordOf 0 b := by
  have hb := b.isLt
  apply BitVec.eq_of_toNat_eq
  rw [wordOf_toNat, zextByte, BitVec.toNat_setWidth_of_le (by decide)]
  exact (Nat.zero_add _).symm

/-! ## DAA and DAS (R250, R251) -/

/-- What the two adjustments leave in AL. -/
def State.decimalDigits (s : State) (units tens : Byte) : Byte :=
  let first := if s.lowDigitAdjusts then s.reg8 .al + units else s.reg8 .al
  if s.highDigitAdjusts then first + tens else first

theorem State.decimalDigits_toNat (s : State) (units tens : Byte) :
    (s.decimalDigits units tens).toNat =
      ((s.reg8 .al).toNat + units.toNat * s.lowDigitAdjusts.toNat + tens.toNat * s.highDigitAdjusts.toNat) % 256 := by
  have hal : (s.reg8 .al).toNat % 256 = (s.reg8 .al).toNat := Nat.mod_eq_of_lt (s.reg8 .al).isLt
  unfold State.decimalDigits
  cases s.lowDigitAdjusts <;> cases s.highDigitAdjusts <;> simp [BitVec.toNat_add, hal]

theorem stored_al (s : State) (v : Byte) (f : Flags) :
    Stored8 s ((s.setReg8 .al v).withFlags f).nextDraw (.reg .al) (((s.setReg8 .al v).withFlags f).nextDraw.reg8 .al) :=
  { ((SameData.refl s).withFlags f).nextDraw.stored8 v (.reg .al) with value := rfl }

theorem decimal_result (h : exec i s = .next (s.decimalAdjust units tens)) (hAF : s.flags.undef.AF = false)
    (hCF : s.flags.undef.CF = false) :
    ∃ t, exec i s = .next t ∧ Stored8 s t (.reg .al) (t.reg8 .al) ∧ SameControl t.flags s.flags ∧
      (t.flags.AF = true ↔ 9 < (s.reg8 .al).toNat % 16 ∨ s.flags.AF = true) ∧
      (t.flags.CF = true ↔ 0x99 < (s.reg8 .al).toNat ∨ s.flags.CF = true) ∧
      (t.reg8 .al).toNat =
        ((s.reg8 .al).toNat + units.toNat * t.flags.AF.toNat + tens.toNat * t.flags.CF.toNat) % 256 ∧
      Describes t.flags (t.reg8 .al) ∧ t.flags.undef = { UndefFlags.none with OF := true } := by
  have adjusted : s.decimalAdjust units tens = ((s.setReg8 .al (s.decimalDigits units tens)).withFlags
      (s.flags.decimalAdjusted s.draws (s.decimalDigits units tens) s.lowDigitAdjusts s.highDigitAdjusts)).nextDraw := by
    unfold State.decimalAdjust
    exact if_neg (by simp [Flags.readsUndef, Flags.isUndef, hAF, hCF])
  have al := s.reg8_setReg8_same .al (s.decimalDigits units tens)
  refine ⟨_, h.trans (congrArg _ adjusted), stored_al s _ _, ⟨rfl, rfl, rfl⟩, s.lowDigitAdjusts_iff, s.highDigitAdjusts_iff,
    (congrArg BitVec.toNat al).trans (s.decimalDigits_toNat units tens), ?_, rfl⟩
  exact al.symm ▸ Flags.szp_describes s.flags _

theorem decimal_undef (h : exec i s = .next (s.decimalAdjust units tens))
    (undef : s.flags.undef.AF = true ∨ s.flags.undef.CF = true) :
    ∃ t, exec i s = .next t ∧ Stored8 s t (.reg .al) (t.reg8 .al) ∧ t.flags.undef = .all ∧ SameControl t.flags s.flags := by
  have free : s.decimalAdjust units tens =
      ((s.setReg8 .al (Config.undefResult s.draws 8)).withFlags (s.flags.undefined s.draws)).nextDraw :=
    if_pos (by simpa [Flags.readsUndef, Flags.isUndef] using undef)
  exact ⟨_, h.trans (congrArg _ free), stored_al s _ _, rfl, rfl, rfl, rfl⟩

end Adjustments

/-- Settles O23. The subtracting forms add the negative of what they subtract, mod 256. -/
theorem decimalInstructions : Obligations.DecimalInstructions := by
  intro s
  refine ⟨fun defined => ?aaa, fun defined => ?aas, ?aad, ?aam, fun hAF hCF => ?daa, fun hAF hCF => ?das,
    fun undef => List.forall_mem_cons.mpr ⟨ascii_undef rfl undef, List.forall_mem_singleton.mpr (ascii_undef rfl undef)⟩,
    fun undef => List.forall_mem_cons.mpr ⟨decimal_undef rfl undef, List.forall_mem_singleton.mpr (decimal_undef rfl undef)⟩⟩
  case aaa => exact ascii_result (i := .aaa) (units := 6) (tens := 1) rfl defined
  case aas =>
    obtain ⟨t, ht, regs, mem, control, carry, marks, adjusts, adjusted, kept⟩ := ascii_result (i := .aas) rfl defined
    refine ⟨t, ht, regs, mem, control, carry, marks, adjusts, fun hAF => ?_, kept⟩
    obtain ⟨al, ah⟩ := adjusted hAF
    have minus_six : (-6 : Byte).toNat = 250 := rfl
    exact ⟨by omega, ah.trans (BitVec.sub_eq_add_neg _ _).symm⟩
  case aad =>
    obtain ⟨t, ht, regs, mem, control, ah, al, describes, marks⟩ := scaled_result (i := .aad) (s := s)
      (congrArg (fun v => Host.Outcome.next ((s.setReg16 .ax v).withFlags _).nextDraw) (zextByte_eq_wordOf _))
    exact ⟨t, ht, regs, mem, control, by rw [al, BitVec.toNat_ofNat], ah, al ▸ describes, marks⟩
  case aam =>
    have hal := (s.reg8 .al).isLt
    obtain ⟨t, ht, regs, mem, control, ah, al, describes, marks⟩ := scaled_result (i := .aam) (s := s) rfl
    refine ⟨t, ht, regs, mem, control, ?_, ?_, al ▸ describes, marks⟩
    · rw [ah, BitVec.toNat_ofNat]; omega
    · rw [al, BitVec.toNat_ofNat]; omega
  case daa => exact decimal_result (i := .daa) (units := 6) (tens := 0x60) rfl hAF hCF
  case das =>
    have hal := (s.reg8 .al).isLt
    obtain ⟨t, ht, stored, control, low, high, al, describes, marks⟩ := decimal_result (i := .das) rfl hAF hCF
    have minus_six : (-6 : Byte).toNat = 250 := rfl
    have minus_ninety_six : (-0x60 : Byte).toNat = 160 := rfl
    rw [minus_six, minus_ninety_six] at al
    exact ⟨t, ht, stored, control, low, high, by omega, describes, marks⟩

end Sys2Proof.Machine
end

section
/-! PROOFS. The logical instructions, and the shifts and rotates by any count: the one-bit step of each is a shift or rotate of the
bit vector by one place (through CF: of the vector with CF as its top bit), so its repetition is that by the count
(`42_logic_shift.md` R290 to R302). -/

namespace Sys2Proof.Machine

open Sys2Proof

/-! ## AND, OR, XOR, TEST and NOT (R291, R292, R293, R301, R302) -/

/-- `LogicFlags` (`10_state.md` R32). -/
theorem Flags.logic_flags {n : Nat} {f g : Flags} {k : Nat} {r : BitVec n} (hg : g = f.logic k r) :
    g.OF = false ∧ g.CF = false ∧ Describes g r ∧ g.undef = { UndefFlags.none with AF := true } ∧ SameControl g f := by
  subst hg
  exact ⟨rfl, rfl, f.szp_describes r, rfl, rfl, rfl, rfl⟩

/-- What compares in a state with the same data has the flags of `op` of the operands. -/
theorem SameData.compared {s u : State} (h : SameData s u)
    {op : {n : Nat} → BitVec n → BitVec n → Flags → BitVec n × Flags} {P : {n : Nat} → (a b : BitVec n) → Prop}
    (o : Operands) (hP : ∀ {n : Nat} (a b : BitVec n), (u.compare op o).flags = (op a b u.flags).2 → P a b) :
    Compared s P o := by
  cases o with
  | byte d b => exact hP _ b (by rw [← h.get8]; rfl)
  | word d b => exact hP _ b (by rw [← h.get16]; rfl)

theorem State.compare_draws (s : State) (op : {n : Nat} → BitVec n → BitVec n → Flags → BitVec n × Flags) (o : Operands) :
    (s.compare op o).draws = s.draws := by
  cases o <;> rfl

/-- Settles O24: each form is the shared operation on the bitwise result and its `LogicFlags`. -/
theorem logicalInstructions : Obligations.LogicalInstructions := by
  intro s
  have data : SameData s s.nextDraw := (SameData.refl s).nextDraw
  refine ⟨fun f => ⟨?and, ?or, ?xor⟩, fun f => ?test, fun f => ?not⟩
  case and => exact ⟨_, rfl, data.combined _ fun _ _ flags => ⟨rfl, Flags.logic_flags flags⟩⟩
  case or => exact ⟨_, rfl, data.combined _ fun _ _ flags => ⟨rfl, Flags.logic_flags flags⟩⟩
  case xor => exact ⟨_, rfl, data.combined _ fun _ _ flags => ⟨rfl, Flags.logic_flags flags⟩⟩
  case test =>
    refine ⟨_, rfl, ?rest, data.compared _ fun _ _ flags => Flags.logic_flags flags⟩
    rw [State.compare_draws]
    exact State.compare_eq_withFlags _ _ _
  case not => exact ⟨_, rfl, (SameData.refl s).modified _ fun x _ flags => ⟨BitVec.toNat_not, flags⟩⟩

/-! ## Rotates of a bit vector -/

section Rotates
variable {w : Nat}

/-- Rotated to the right, the bits are numbered from `r` on, mod the width. -/
theorem getLsbD_rotateRight_mod (x : BitVec w) (r : Nat) {i : Nat} (hi : i < w) :
    (x.rotateRight r).getLsbD i = x.getLsbD ((i + r) % w) := by
  have hr := Nat.mod_lt r (Nat.zero_lt_of_lt hi)
  rw [BitVec.getLsbD_rotateRight, ← Nat.add_mod_mod]
  by_cases h : i < w - r % w
  · rw [Nat.mod_eq_of_lt (by omega : i + r % w < w), Nat.add_comm i]
    simp [h]
  · have around : (i + r % w) % w = i - (w - r % w) := by
      rw [Nat.mod_eq_sub_mod (by omega : w ≤ i + r % w), Nat.mod_eq_of_lt (by omega)]
      omega
    rw [around]
    simp [h, hi]

theorem getLsbD_rotateRight_one (x : BitVec w) {i : Nat} (hi : i < w) :
    (x.rotateRight 1).getLsbD i = if i + 1 = w then x.getLsbD 0 else x.getLsbD (i + 1) := by
  rw [getLsbD_rotateRight_mod x 1 hi]
  split_ifs with last
  · rw [last, Nat.mod_self]
  · rw [Nat.mod_eq_of_lt (by omega)]

theorem rotateRight_zero (x : BitVec w) : x.rotateRight 0 = x :=
  BitVec.eq_of_getLsbD_eq fun i hi => by rw [getLsbD_rotateRight_mod x 0 hi, Nat.add_zero, Nat.mod_eq_of_lt hi]

theorem rotateRight_add (x : BitVec w) (j k : Nat) : x.rotateRight (j + k) = (x.rotateRight j).rotateRight k :=
  BitVec.eq_of_getLsbD_eq fun i hi => by
    have inside : (i + k) % w < w := Nat.mod_lt _ (Nat.zero_lt_of_lt hi)
    rw [getLsbD_rotateRight_mod _ _ hi, getLsbD_rotateRight_mod _ _ hi, getLsbD_rotateRight_mod _ _ inside, Nat.mod_add_mod,
      Nat.add_assoc, Nat.add_comm k]

/-- A rotate to the left is one to the right by what is missing to the width. -/
theorem rotateLeft_eq_rotateRight (x : BitVec w) (r : Nat) : x.rotateLeft r = x.rotateRight (w - r % w) :=
  BitVec.eq_of_getLsbD_eq fun i hi => by
    have hr := Nat.mod_lt r (Nat.zero_lt_of_lt hi)
    rw [BitVec.getLsbD_rotateLeft, getLsbD_rotateRight_mod _ _ hi]
    by_cases h : i < r % w
    · rw [Nat.mod_eq_of_lt (by omega : i + (w - r % w) < w), Nat.add_comm i]
      simp [h]
    · have around : (i + (w - r % w)) % w = i - r % w := by
        rw [Nat.mod_eq_sub_mod (by omega : w ≤ i + (w - r % w)), Nat.mod_eq_of_lt (by omega)]
        omega
      rw [around]
      simp [h, hi]

/-- A rotate to the right by a multiple of the width moves nothing. -/
theorem rotateRight_full (x : BitVec w) (r : Nat) : x.rotateRight (r + (w - r % w)) = x :=
  BitVec.eq_of_getLsbD_eq fun i hi => by
    have hr := Nat.mod_lt r (Nat.zero_lt_of_lt hi)
    have turns := Nat.div_add_mod r w
    have multiple : r + (w - r % w) = w * (r / w + 1) := by rw [Nat.mul_add_one]; omega
    rw [getLsbD_rotateRight_mod _ _ hi, multiple, Nat.add_mul_mod_self_left, Nat.mod_eq_of_lt hi]

/-- The two rotates undo each other. -/
theorem rotateLeft_eq_iff (x y : BitVec w) (r : Nat) : x.rotateLeft r = y ↔ x = y.rotateRight r := by
  rw [rotateLeft_eq_rotateRight]
  constructor
  · rintro rfl
    rw [← rotateRight_add, Nat.add_comm, rotateRight_full]
  · rintro rfl
    rw [← rotateRight_add, rotateRight_full]

theorem rotateLeft_zero (x : BitVec w) : x.rotateLeft 0 = x :=
  (rotateLeft_eq_iff x x 0).mpr (rotateRight_zero x).symm

theorem rotateLeft_add (x : BitVec w) (j k : Nat) : x.rotateLeft (j + k) = (x.rotateLeft j).rotateLeft k := by
  rw [rotateLeft_eq_iff, Nat.add_comm, rotateRight_add, ← (rotateLeft_eq_iff _ _ k).mp rfl, ← (rotateLeft_eq_iff _ _ j).mp rfl]

end Rotates

/-! ## One bit in at the bottom, or at the top -/

section OneBit
variable {n : Nat}

theorem msb_eq_getLsbD_of_succ (x : BitVec n) {i : Nat} (hi : i + 1 = n) : x.msb = x.getLsbD i := by
  rw [BitVec.msb_eq_getLsbD_last, Nat.sub_eq_of_eq_add hi.symm]

/-- One place up, with `b` as the bottom bit. -/
theorem getLsbD_double_add (x : BitVec n) (b : Bool) {i : Nat} (hi : i < n) :
    (BitVec.ofNat n (x.toNat * 2 + b.toNat)).getLsbD i = if i = 0 then b else x.getLsbD (i - 1) := by
  have concat : BitVec.ofNat n (x.toNat * 2 + b.toNat) = x.shiftConcat b :=
    BitVec.eq_of_toNat_eq (by rw [BitVec.toNat_ofNat, BitVec.toNat_shiftConcat, Nat.shiftLeft_eq, Nat.pow_one])
  rw [concat, BitVec.getLsbD_shiftConcat, decide_eq_true hi, Bool.true_and]

/-- One place down, with `b` as the top bit. -/
theorem getLsbD_half_add (x : BitVec n) (b : Bool) {i : Nat} (hi : i < n) :
    (BitVec.ofNat n (x.toNat / 2 + b.toNat * 2 ^ (n - 1))).getLsbD i = if i + 1 = n then b else x.getLsbD (i + 1) := by
  have two_halves : 2 ^ n = 2 ^ (n - 1) * 2 := (Nat.two_pow_pred_mul_two (Nat.zero_lt_of_lt hi)).symm
  have half_lt : x.toNat / 2 < 2 ^ (n - 1) := Nat.div_lt_of_lt_mul (by rw [Nat.mul_comm, ← two_halves]; exact x.isLt)
  rw [BitVec.getLsbD_ofNat, decide_eq_true hi, Bool.true_and, Nat.add_comm, Nat.mul_comm, Nat.testBit_two_pow_mul_add _ half_lt]
  split_ifs with below last last
  · omega
  · exact Nat.testBit_div_two _ _
  · obtain rfl : i = n - 1 := by omega
    rw [Nat.sub_self, Nat.testBit_zero]
    cases b <;> rfl
  · omega

/-! ## The one-bit steps (R294 to R300) -/

theorem salStep_fst (p : BitVec n × Bool) : (salStep p).1 = p.1 <<< 1 :=
  BitVec.eq_of_toNat_eq (by rw [BitVec.toNat_shiftLeft, Nat.shiftLeft_eq, Nat.pow_one]; exact BitVec.toNat_ofNat _ _)

theorem shrStep_fst (p : BitVec n × Bool) : (shrStep p).1 = p.1 >>> 1 :=
  BitVec.eq_of_toNat_eq <| by
    rw [BitVec.toNat_ushiftRight, Nat.shiftRight_eq_div_pow, Nat.pow_one]
    exact BitVec.toNat_ofNat _ _ |>.trans (Nat.mod_eq_of_lt ((Nat.div_le_self _ _).trans_lt p.1.isLt))

theorem sarStep_fst (p : BitVec n × Bool) : (sarStep p).1 = p.1.sshiftRight 1 :=
  BitVec.eq_of_getLsbD_eq fun i hi => by
    refine (getLsbD_half_add p.1 p.1.msb hi).trans ?_
    rw [BitVec.getLsbD_sshiftRight, Nat.add_comm 1]
    by_cases last : i + 1 = n
    · have top : ¬ i + 1 < n := by omega
      simp [last, hi]
    · have below : i + 1 < n := by omega
      simp [last, below, hi]

theorem rorStep_fst (p : BitVec n × Bool) : (rorStep p).1 = p.1.rotateRight 1 :=
  BitVec.eq_of_getLsbD_eq fun _ hi =>
    (getLsbD_half_add p.1 (p.1.getLsbD 0) hi).trans (getLsbD_rotateRight_one p.1 hi).symm

theorem rolStep_fst (p : BitVec n × Bool) : (rolStep p).1 = p.1.rotateLeft 1 := by
  refine ((rotateLeft_eq_iff _ _ _).mpr (BitVec.eq_of_getLsbD_eq fun i hi => ?_)).symm
  rw [getLsbD_rotateRight_one _ hi]
  split_ifs with last
  · exact (msb_eq_getLsbD_of_succ p.1 last).symm.trans (getLsbD_double_add p.1 p.1.msb (Nat.zero_lt_of_lt hi)).symm
  · exact (getLsbD_double_add p.1 p.1.msb (by omega : i + 1 < n)).symm

/-- RCR rotates the operand with CF as its top bit. -/
theorem rcrStep_cons (h : 0 < n) (p : BitVec n × Bool) :
    BitVec.cons (rcrStep p).2 (rcrStep p).1 = (BitVec.cons p.2 p.1).rotateRight 1 :=
  BitVec.eq_of_getLsbD_eq fun i hi => by
    simp only [getLsbD_rotateRight_one _ hi, BitVec.getLsbD_cons, Nat.add_left_inj]
    by_cases top : i = n
    · rw [if_pos top, if_pos top, if_neg h.ne]
      rfl
    · rw [if_neg top, if_neg top]
      exact getLsbD_half_add p.1 p.2 (by omega)

/-- RCL rotates the operand with CF as its top bit. -/
theorem rclStep_cons (h : 0 < n) (p : BitVec n × Bool) :
    BitVec.cons (rclStep p).2 (rclStep p).1 = (BitVec.cons p.2 p.1).rotateLeft 1 := by
  refine ((rotateLeft_eq_iff _ _ _).mpr (BitVec.eq_of_getLsbD_eq fun i hi => ?_)).symm
  simp only [getLsbD_rotateRight_one _ hi, BitVec.getLsbD_cons, Nat.add_left_inj]
  by_cases top : i = n
  · rw [if_pos top, if_pos top, if_neg h.ne]
    exact (getLsbD_double_add p.1 p.2 h).symm
  · rw [if_neg top, if_neg top]
    split_ifs with last
    · exact (msb_eq_getLsbD_of_succ p.1 last).symm
    · exact (getLsbD_double_add p.1 p.2 (by omega : i + 1 < n)).symm

/-- The bit ROL moves around is CF and the bottom bit. -/
theorem rolStep_snd (h : 0 < n) (p : BitVec n × Bool) : (rolStep p).2 = (rolStep p).1.getLsbD 0 :=
  (getLsbD_double_add p.1 p.1.msb h).symm

/-- The bit ROR moves around is CF and the top bit. -/
theorem rorStep_snd (h : 0 < n) (p : BitVec n × Bool) : (rorStep p).2 = (rorStep p).1.msb := by
  have last : n - 1 + 1 = n := Nat.sub_add_cancel h
  rw [msb_eq_getLsbD_of_succ _ last]
  exact ((getLsbD_half_add p.1 (p.1.getLsbD 0) (Nat.sub_one_lt_of_lt h)).trans (if_pos last)).symm

/-! ## The steps repeated (R290) -/

/-- If the step is `op` by one place of what is looked at, and `op` by `j` and by `k` places is `op` by `j + k`, then the repeated
step is `op` by the count. -/
theorem repeatStep_places {α : Type} {view : BitVec n × Bool → α} {op : α → Nat → α}
    {step : BitVec n × Bool → BitVec n × Bool} (zero : ∀ y, op y 0 = y) (add : ∀ y j k, op y (j + k) = op (op y j) k)
    (one : ∀ p, view (step p) = op (view p) 1) (k : Nat) (p : BitVec n × Bool) :
    view (repeatStep step k p) = op (view p) k := by
  induction k generalizing p with
  | zero => exact (zero _).symm
  | succ k ih => rw [repeatStep, ih, one, ← add, Nat.add_comm]

/-- The last of the steps acts on what those before it leave. -/
theorem repeatStep_last (step : BitVec n × Bool → BitVec n × Bool) {k : Nat} (hk : k ≠ 0) (p : BitVec n × Bool) :
    repeatStep step k p = step (repeatStep step (k - 1) p) :=
  match k with
  | 1 => rfl
  | k + 2 => repeatStep_last step (Nat.succ_ne_zero k) (step p)

variable (k : Nat) (p : BitVec n × Bool)

theorem repeat_sal : (repeatStep salStep k p).1 = p.1 <<< k :=
  repeatStep_places (view := Prod.fst) (fun _ => BitVec.shiftLeft_zero _) BitVec.shiftLeft_add salStep_fst k p

theorem repeat_shr : (repeatStep shrStep k p).1 = p.1 >>> k :=
  repeatStep_places (view := Prod.fst) (fun _ => BitVec.ushiftRight_zero _) BitVec.shiftRight_add shrStep_fst k p

theorem repeat_sar : (repeatStep sarStep k p).1 = p.1.sshiftRight k :=
  repeatStep_places (view := Prod.fst) (fun _ => BitVec.sshiftRight_zero) (fun _ _ _ => BitVec.sshiftRight_add) sarStep_fst k p

theorem repeat_rol : (repeatStep rolStep k p).1 = p.1.rotateLeft k :=
  repeatStep_places (view := Prod.fst) rotateLeft_zero rotateLeft_add rolStep_fst k p

theorem repeat_ror : (repeatStep rorStep k p).1 = p.1.rotateRight k :=
  repeatStep_places (view := Prod.fst) rotateRight_zero rotateRight_add rorStep_fst k p

theorem repeat_rcl (h : 0 < n) :
    BitVec.cons (repeatStep rclStep k p).2 (repeatStep rclStep k p).1 = (BitVec.cons p.2 p.1).rotateLeft k :=
  repeatStep_places (view := fun q => BitVec.cons q.2 q.1) rotateLeft_zero rotateLeft_add (rclStep_cons h) k p

theorem repeat_rcr (h : 0 < n) :
    BitVec.cons (repeatStep rcrStep k p).2 (repeatStep rcrStep k p).1 = (BitVec.cons p.2 p.1).rotateRight k :=
  repeatStep_places (view := fun q => BitVec.cons q.2 q.1) rotateRight_zero rotateRight_add (rcrStep_cons h) k p

variable {k}

theorem repeat_rol_carry (h : 0 < n) (hk : k ≠ 0) : (repeatStep rolStep k p).2 = (repeatStep rolStep k p).1.getLsbD 0 := by
  rw [repeatStep_last rolStep hk]
  exact rolStep_snd h _

theorem repeat_ror_carry (h : 0 < n) (hk : k ≠ 0) : (repeatStep rorStep k p).2 = (repeatStep rorStep k p).1.msb := by
  rw [repeatStep_last rorStep hk]
  exact rorStep_snd h _

theorem repeat_sal_carry (hk : k ≠ 0) : (repeatStep salStep k p).2 = (p.1 <<< (k - 1)).msb := by
  rw [repeatStep_last salStep hk, ← repeat_sal]
  rfl

theorem repeat_shr_carry (hk : k ≠ 0) : (repeatStep shrStep k p).2 = p.1.getLsbD (k - 1) := by
  have last : (repeatStep shrStep k p).2 = (repeatStep shrStep (k - 1) p).1.getLsbD 0 := by
    rw [repeatStep_last shrStep hk]
    rfl
  rw [last, repeat_shr, BitVec.getLsbD_ushiftRight, Nat.add_zero]

theorem repeat_sar_carry (hk : k ≠ 0) : (repeatStep sarStep k p).2 = (p.1.sshiftRight (k - 1)).getLsbD 0 := by
  rw [repeatStep_last sarStep hk, ← repeat_sar]
  rfl

end OneBit

/-! ## The instructions by a count -/

/-- The flags SAL, SHR and SAR share (R290). -/
theorem Flags.shifted_flags {n : Nat} {f g : Flags} {k count : Nat} {x0 x : BitVec n} {cf : Bool}
    (hg : g = f.shifted k count x0 x cf) :
    Describes g x ∧ g.undef = { UndefFlags.none with AF := true, OF := count != 1 } ∧ SameControl g f := by
  subst hg
  exact ⟨Flags.szp_describes (f.rotated k count x0 x cf) x, rfl, rfl, rfl, rfl⟩

section Counts
variable {f : ShiftForm} {s : State} {step : {n : Nat} → BitVec n × Bool → BitVec n × Bool}
  {flags : {n : Nat} → Nat → Nat → BitVec n → BitVec n → Bool → Flags → Flags}

/-- By 0 nothing changes (R290). -/
theorem shift_by_zero {i : Instr} (h : exec i s = .next (s.shift step flags (s.shiftCount f) (s.shiftDest f)))
    (hc : s.shiftCount f = 0) : exec i s = .next s := by
  rw [h, hc, State.shift_zero]

theorem shiftThroughCarry_by_zero {i : Instr}
    (h : exec i s = .next (s.shiftThroughCarry step (s.shiftCount f) (s.shiftDest f))) (hc : s.shiftCount f = 0) :
    exec i s = .next s := by
  rw [h, hc, State.shiftThroughCarry_zero]

/-- What `modify` leaves in the flags is what `op` makes of them, at one width or the other. -/
theorem State.modify_flags_of {op : {n : Nat} → BitVec n → Flags → BitVec n × Flags} {P : Flags → Prop}
    (hP : ∀ {n : Nat} (x : BitVec n), P (op x s.flags).2) (d : Dest) : P (s.modify op d).flags := by
  cases d with
  | byte d => rw [State.modify, State.put8_flags]; exact hP _
  | word d => rw [State.modify, State.put16_flags]; exact hP _

/-- By another count the repeated step is written back, with the flags of the count. -/
theorem State.shift_updated {P : {n : Nat} → (x r : BitVec n) → Prop} {count : Nat} (hc : count ≠ 0) (d : Dest)
    (hP : ∀ {n : Nat} (x : BitVec n), 0 < n →
      (s.shift step flags count d).flags = flags s.draws count x (repeatStep step count (x, s.flags.CF)).1
        (repeatStep step count (x, s.flags.CF)).2 s.flags →
      P x (repeatStep step count (x, s.flags.CF)).1) :
    Updated s (s.shift step flags count d) P d := by
  rw [State.shift_count step flags hc] at hP ⊢
  exact (SameData.refl s).nextDraw.modified d hP

/-- The rotates change no flag but CF and OF. -/
theorem State.shift_onlyRotated (hc : s.shiftCount f ≠ 0) :
    OnlyRotated f s (s.shift step (fun n c x0 x cf fl => fl.rotated n c x0 x cf) (s.shiftCount f) (s.shiftDest f)) := by
  rw [State.shift_count step _ hc]
  exact State.modify_flags_of (s := s.nextDraw) (P := fun g => g = { s.flags with
    CF := g.CF, OF := g.OF, undef := { s.flags.undef with CF := false, OF := s.shiftCount f != 1 } }) (fun _ => rfl) _

/-- RCL and RCR through an `undef` CF write their destination, CF and OF only, with free values (log 1). -/
theorem rotate_undef {i : Instr} (h : exec i s = .next (s.shiftThroughCarry step (s.shiftCount f) (s.shiftDest f)))
    (hc : s.shiftCount f ≠ 0) (undef : s.flags.undef.CF = true) :
    ∃ t, exec i s = .next t ∧ Updated s t (fun _ _ => True) (s.shiftDest f) ∧
      t.flags = { s.flags with
        CF := t.flags.CF, OF := t.flags.OF, undef := { s.flags.undef with CF := true, OF := true } } :=
  ⟨_, h.trans (congrArg _ (State.shiftThroughCarry_undef undef step hc _)),
    (SameData.refl s).nextDraw.modified _ fun _ _ _ => trivial,
    State.modify_flags_of (s := s.nextDraw) (P := fun g => g = { s.flags with
      CF := g.CF, OF := g.OF, undef := { s.flags.undef with CF := true, OF := true } }) (fun _ => rfl) _⟩

/-- A rotate by a count other than 0: what is asked of the result may use CF, and OF after a count of 1. -/
theorem rotate_result {i : Instr} {P : State → {n : Nat} → (x r : BitVec n) → Prop} (hc : s.shiftCount f ≠ 0)
    (h : exec i s =
      .next (s.shift step (fun n c x0 x cf fl => fl.rotated n c x0 x cf) (s.shiftCount f) (s.shiftDest f)))
    (hP : ∀ {n : Nat} (x : BitVec n) (t : State), 0 < n →
      t.flags.CF = (repeatStep step (s.shiftCount f) (x, s.flags.CF)).2 →
      (s.shiftCount f = 1 → t.flags.OF = ((repeatStep step (s.shiftCount f) (x, s.flags.CF)).1.msb != x.msb)) →
      P t x (repeatStep step (s.shiftCount f) (x, s.flags.CF)).1) :
    ∃ t, exec i s = .next t ∧ OnlyRotated f s t ∧ Updated s t (P t) (s.shiftDest f) := by
  refine ⟨_, h, State.shift_onlyRotated hc, State.shift_updated hc _ fun x hn flags => hP x _ hn ?carry fun once => ?overflow⟩
  case carry => rw [flags]; rfl
  case overflow => rw [flags]; exact if_pos once

/-- A shift by a count other than 0 also describes the result. -/
theorem shift_result {i : Instr} {P : State → {n : Nat} → (x r : BitVec n) → Prop} (hc : s.shiftCount f ≠ 0)
    (h : exec i s =
      .next (s.shift step (fun n c x0 x cf fl => fl.shifted n c x0 x cf) (s.shiftCount f) (s.shiftDest f)))
    (hP : ∀ {n : Nat} (x : BitVec n) (t : State),
      t.flags.CF = (repeatStep step (s.shiftCount f) (x, s.flags.CF)).2 →
      (s.shiftCount f = 1 → t.flags.OF = ((repeatStep step (s.shiftCount f) (x, s.flags.CF)).1.msb != x.msb)) →
      Describes t.flags (repeatStep step (s.shiftCount f) (x, s.flags.CF)).1 ∧
        t.flags.undef = { UndefFlags.none with AF := true, OF := s.shiftCount f != 1 } ∧ SameControl t.flags s.flags →
      P t x (repeatStep step (s.shiftCount f) (x, s.flags.CF)).1) :
    ∃ t, exec i s = .next t ∧ Updated s t (P t) (s.shiftDest f) := by
  refine ⟨_, h, State.shift_updated hc _ fun x _ flags =>
    hP x _ ?carry (fun once => ?overflow) (Flags.shifted_flags flags)⟩
  case carry => rw [flags]; rfl
  case overflow => rw [flags]; exact if_pos once

end Counts

/-- Settles O25: the repeated step is a rotate by the count, for RCL and RCR of the operand with CF as its top bit. -/
theorem rotatesByAnyCount : Obligations.RotatesByAnyCount := by
  intro f s
  refine ⟨fun zero => ?zero, fun hc => ⟨?rol, ?ror, fun defined => ?rcl, fun defined => ?rcr, fun undef => ?undef⟩⟩
  case zero =>
    simp only [List.forall_mem_cons, List.not_mem_nil, false_implies, implies_true, and_true]
    exact ⟨shift_by_zero rfl zero, shift_by_zero rfl zero, shiftThroughCarry_by_zero rfl zero,
      shiftThroughCarry_by_zero rfl zero⟩
  case rol =>
    exact rotate_result hc rfl fun x _ h carry overflow =>
      ⟨repeat_rol _ _, carry.trans (repeat_rol_carry _ h hc), overflow⟩
  case ror =>
    exact rotate_result hc rfl fun x _ h carry overflow =>
      ⟨repeat_ror _ _, carry.trans (repeat_ror_carry _ h hc), overflow⟩
  case rcl =>
    exact rotate_result hc (congrArg _ (State.shiftThroughCarry_defined defined _ _ _)) fun x _ h carry overflow =>
      ⟨carry ▸ repeat_rcl _ _ h, overflow⟩
  case rcr =>
    exact rotate_result hc (congrArg _ (State.shiftThroughCarry_defined defined _ _ _)) fun x _ h carry overflow =>
      ⟨carry ▸ repeat_rcr _ _ h, overflow⟩
  case undef =>
    exact List.forall_mem_cons.mpr ⟨rotate_undef rfl hc undef, List.forall_mem_singleton.mpr (rotate_undef rfl hc undef)⟩

/-- A shift to the right by one clears the top bit, so it changed iff it was set. -/
theorem msb_ushiftRight_one_bne {n : Nat} (x : BitVec n) : ((x >>> 1).msb != x.msb) = x.msb := by
  rw [BitVec.msb_ushiftRight]
  exact Bool.false_bne _

/-- The arithmetic shift divides the signed value, rounding down. -/
theorem toInt_sshiftRight_eq_div {n : Nat} (x : BitVec n) (k : Nat) : (x.sshiftRight k).toInt = x.toInt / 2 ^ k := by
  rw [BitVec.toInt_sshiftRight, Int.shiftRight_eq_div_pow, two_pow_eq_cast]

/-- Settles O26: the repeated step is a shift by the count, and CF is the bit the last of the steps moved out. -/
theorem shiftsByAnyCount : Obligations.ShiftsByAnyCount := by
  intro f s
  refine ⟨fun zero => ?zero, fun hc => ⟨?sal, ?shr, ?sar⟩⟩
  case zero =>
    simp only [List.forall_mem_cons, List.not_mem_nil, false_implies, implies_true, and_true]
    exact ⟨shift_by_zero rfl zero, shift_by_zero rfl zero, shift_by_zero rfl zero⟩
  case sal =>
    exact shift_result hc rfl fun x _ carry overflow described =>
      ⟨repeat_sal _ _, carry.trans (repeat_sal_carry _ hc), overflow, described⟩
  case shr =>
    refine shift_result hc rfl fun x _ carry overflow described =>
      ⟨?result, carry.trans (repeat_shr_carry _ hc), fun once => (overflow once).trans ?topBit, described⟩
    case result => rw [repeat_shr, BitVec.toNat_ushiftRight, Nat.shiftRight_eq_div_pow]
    case topBit => rw [repeat_shr, once, msb_ushiftRight_one_bne]
  case sar =>
    refine shift_result hc rfl fun x _ carry overflow described =>
      ⟨?result, carry.trans (repeat_sar_carry _ hc), fun once => (overflow once).trans ?topBit, described⟩
    case result => rw [repeat_sar, toInt_sshiftRight_eq_div]
    case topBit => rw [repeat_sar, BitVec.msb_sshiftRight, bne_self_eq_false]

end Sys2Proof.Machine
end

section
/-! PROOFS. The string instructions: one element, one iteration under a repeat byte, and the bytes REP STOSB fills (`43_string.md`
R330 to R339). -/

namespace Sys2Proof

open Machine

/-! ## The five string instructions have one form (R330, R339) -/

/-- One element of a string instruction (R331 to R333, R337, R338); any other instruction has none. -/
def Instr.element : Instr → State → State
  | .cmps w => State.cmpsElement w
  | .lods w => State.lodsElement w
  | .movs w => State.movsElement w
  | .scas w => State.scasElement w
  | .stos w => State.stosElement w
  | _ => id

/-- The repetition also ends on ZF: CMPS and SCAS (R335, R336). -/
def Instr.testsZF : Instr → Bool
  | .cmps _ | .scas _ => true
  | _ => false

theorem Instr.testsZF_iff (i : Instr) : i.testsZF = true ↔ ∃ w, i = .cmps w ∨ i = .scas w := by
  cases i with
  | cmps w => exact iff_of_true rfl ⟨w, .inl rfl⟩
  | scas w => exact iff_of_true rfl ⟨w, .inr rfl⟩
  | _ => exact iff_of_false Bool.false_ne_true fun ⟨_, h⟩ => h.elim nofun nofun

/-- Each of the five is `stringStep` of its element (R339). -/
theorem exec_string {i : Instr} (h : i.isString = true) (s : State) : exec i s = .next (s.stringStep i i.testsZF i.element) := by
  cases i with
  | cmps | lods | movs | scas | stos => rfl
  | _ => cases h

/-- Without a repeat byte a string instruction is its element (R339). -/
theorem exec_string_plain {i : Instr} {s : State} (h : i.isString = true) (hz : s.repeatWith = none) :
    exec i s = .next (i.element s) := by
  rw [exec_string h, State.stringStep_plain hz]

/-- An element does not look at the repeat byte. -/
theorem Instr.element_setRepeatWith (i : Instr) (s : State) (z : Option RepeatWith) :
    i.element { s with repeatWith := z } = { i.element s with repeatWith := z } := by
  cases i with
  | cmps w | lods w | movs w | scas w | stos w => cases w <;> rfl
  | _ => rfl

/-- An element leaves the count alone. -/
theorem Instr.element_cx (i : Instr) (s : State) : (i.element s).gpr.cx = s.gpr.cx := by
  cases i with
  | cmps w | lods w | movs w | scas w | stos w => cases w <;> rfl
  | _ => rfl

end Sys2Proof

namespace Sys2Proof.Machine

open Sys2Proof

/-! ## One element (R330 to R333, R337, R338) -/

/-- Without a repeat byte an element is processed and nothing counted, so the registers of the table are the element's. -/
theorem State.regsWritten_plain {s : State} (hz : s.repeatWith = none) (rs : List Reg16) :
    (if s.hasElement then rs ++ s.repeatCount else []) = rs := by
  simp [State.hasElement, State.repeatCount, hz]

/-- Settles O27: without a repeat byte each of the five is its element, whose frame is that of the instruction. -/
theorem stringElements : Obligations.StringElements := by
  intro s w d hz hd
  obtain rfl : d = s.delta w := hd.trans (by cases w <;> cases hDF : s.flags.DF <;> simp [State.delta, hDF])
  have element {i : Instr} (hi : i.isString = true) : exec i s = .next (i.element s) := exec_string_plain hi hz
  have regs {i : Instr} {rs : List Reg16} (hi : i.isString = true)
      (hr : i.regsWritten s = if s.hasElement then rs ++ s.repeatCount else []) : SameRegsBut rs s (i.element s) := by
    have frame := exec_sameRegsBut (element hi)
    rwa [hr, State.regsWritten_plain hz] at frame
  refine ⟨⟨_, element (i := .movs w) rfl, ?movs⟩, ⟨_, element (i := .stos w) rfl, ?stos⟩, ⟨_, element (i := .lods w) rfl, ?lods⟩,
    ⟨_, element (i := .cmps w) rfl, ?cmps⟩, ⟨_, element (i := .scas w) rfl, ?scas⟩⟩
  case movs =>
    have frame := regs (i := .movs w) rfl rfl
    have stored := (StoresTo.movsElement s w).frame
    cases w with
    | byte => exact ⟨rfl, rfl, frame, stored, rfl, s.read8_store8_same _ _ _⟩
    | word => exact ⟨rfl, rfl, frame, stored, rfl, s.read16_store16_same _ _ _⟩
  case stos =>
    have frame := regs (i := .stos w) rfl rfl
    have stored := (StoresTo.stosElement s w).frame
    cases w with
    | byte => exact ⟨rfl, frame, stored, rfl, s.read8_store8_same _ _ _⟩
    | word => exact ⟨rfl, frame, stored, rfl, s.read16_store16_same _ _ _⟩
  case lods =>
    have frame := regs (i := .lods w) rfl rfl
    cases w with
    | byte => exact ⟨rfl, frame, rfl, rfl, s.reg8_setReg8_same .al _, s.reg8_setReg8_ne (r := .al) (by decide) _⟩
    | word => exact ⟨rfl, frame, rfl, rfl, rfl⟩
  case cmps =>
    have frame := regs (i := .cmps w) rfl rfl
    cases w with
    | byte | word => exact ⟨rfl, rfl, frame, rfl, rfl⟩
  case scas =>
    have frame := regs (i := .scas w) rfl rfl
    cases w with
    | byte | word => exact ⟨rfl, frame, rfl, rfl⟩

/-! ## One iteration under a repeat byte (R335, R336, R339) -/

theorem RepeatWith.ends_iff (z : RepeatWith) (tests : Bool) (cx : Word) (zf : Bool) :
    z.ends tests cx zf = true ↔ cx = 0 ∨ (tests = true ∧ (zf = true ↔ z = .f2)) := by
  rw [RepeatWith.ends, Bool.or_eq_true, Bool.and_eq_true, beq_iff_eq]
  cases z <;> cases zf <;> simp [RepeatWith.zwant]

/-- Settles O28: an iteration is the element as without the repeat byte, with CX counted down and the end test on what that leaves. -/
theorem repeatedStringIteration : Obligations.RepeatedStringIteration := by
  intro i s z hi hz
  refine ⟨fun hc => ?nothing, fun hc u hu => ?iteration⟩
  case nothing => rw [exec_string hi, State.stringStep_done hz hc]
  case iteration =>
    rw [exec_string_plain hi rfl, Instr.element_setRepeatWith] at hu
    cases hu
    have ht := exec_string hi s
    rw [State.stringStep_iteration hz hc, i.element_cx] at ht
    have kept := (exec_within ht).repeatWith (ne_true_of_eq_false (isPrefix_of_isString hi))
    refine ⟨_, ht, rfl, fun r hr => State.reg16_setReg16_ne _ hr _, rfl, rfl, kept.trans hz, ?due, ?ended⟩
    case due => exact (ite_eq_or_eq _ _ _).symm
    case ended =>
      rw [← i.testsZF_iff, ← sub_eq_zero (a := s.gpr.cx), ← z.ends_iff]
      simp only [ite_eq_left_iff, reduceCtorEq, imp_false, not_not]

/-! ## REP STOSB (R338, R339) -/

/-- `t` is `s` after `k` iterations of REP STOSB upwards: AL is in the `k` bytes from ES:DI on, and nothing else was stored. -/
structure Filled (s : State) (k : Nat) (t : State) : Prop where
  repeatWith : t.repeatWith = some .f3
  flags : t.flags = s.flags
  es : t.segs.es = s.segs.es
  cx : t.gpr.cx = s.gpr.cx - BitVec.ofNat 16 k
  di : t.gpr.di = s.gpr.di + BitVec.ofNat 16 k
  regs : SameRegsBut [.cx, .di] s t
  ended : 0 < k → t.gpr.cx = 0 → t.repeating = none
  inside : ∀ j, j < k → t.read8 s.segs.es (s.gpr.di + BitVec.ofNat 16 j) = s.reg8 .al
  outside : ∀ a, (∀ j, j < k → a ≠ phys s.segs.es (s.gpr.di + BitVec.ofNat 16 j)) → t.byteAt a = s.byteAt a

/-- Before the first iteration nothing is filled. -/
theorem Filled.zero {s : State} (hz : s.repeatWith = some .f3) : Filled s 0 s where
  repeatWith := hz
  flags := rfl
  es := rfl
  cx := (BitVec.sub_zero _).symm
  di := (BitVec.add_zero _).symm
  regs _ _ := rfl
  ended h := absurd h (Nat.lt_irrefl 0)
  inside _ h := absurd h (Nat.not_lt_zero _)
  outside _ _ := rfl

/-- One iteration of REP STOSB upwards: the element of STOSB (R338) under the repeat byte (R339). -/
theorem exec_rep_stosb {s : State} (hz : s.repeatWith = some .f3) (hDF : s.flags.DF = false) (hc : s.gpr.cx ≠ 0) :
    ∃ t, exec (.stos .byte) s = .next t ∧ t.repeatWith = some .f3 ∧ t.flags = s.flags ∧ t.segs.es = s.segs.es ∧
      t.gpr.cx = s.gpr.cx - 1 ∧ t.gpr.di = s.gpr.di + 1 ∧ SameRegsBut [.cx, .di] s t ∧
      (t.gpr.cx = 0 → t.repeating = none) ∧
      ∀ a, t.byteAt a = if a = phys s.segs.es s.gpr.di then s.reg8 .al else s.byteAt a := by
  obtain ⟨-, ⟨u, hu, di, regs, stored, -, value⟩, -⟩ :=
    stringElements { s with repeatWith := none } .byte 1 rfl (by rw [hDF])
  obtain ⟨t, ht, cx, others, mem, -, prefixed, -, ended⟩ :=
    (repeatedStringIteration (.stos .byte) s .f3 rfl hz).2 hc u hu
  refine ⟨t, ht, prefixed, exec_flags ht rfl, (exec_within ht).seg .es List.not_mem_nil, cx, (others .di nofun).trans di,
    ?regs, fun h0 => ended.mpr (.inl (sub_eq_zero.mp (cx.symm.trans h0))), fun a => ?memory⟩
  case regs =>
    intro r hr
    obtain ⟨hcx, hdi⟩ : r ≠ .cx ∧ r ∉ [.di] := by simpa using hr
    exact (others r hcx).trans (regs r hdi)
  case memory =>
    rw [State.byteAt_congr mem]
    split
    · next ha => exact ha ▸ value
    · next ha => exact stored a (mt List.mem_singleton.mp ha)

/-- `k` iterations and one more. -/
theorem Filled.iteration {s t : State} {k : Nat} (h : Filled s k t) (hDF : s.flags.DF = false) (hc : t.gpr.cx ≠ 0) :
    ∃ u, exec (.stos .byte) t = .next u ∧ Filled s (k + 1) u := by
  obtain ⟨u, hu, prefixed, flags, es, cx, di, regs, ended, memory⟩ :=
    exec_rep_stosb h.repeatWith ((congrArg Flags.DF h.flags).trans hDF) hc
  have al : t.reg8 .al = s.reg8 .al := congrArg lowByte (h.regs .ax (by decide))
  rw [h.es, h.di, al] at memory
  have succ : BitVec.ofNat 16 (k + 1) = BitVec.ofNat 16 k + 1 := BitVec.ofNat_add k 1
  refine ⟨u, hu, prefixed, flags.trans h.flags, es.trans h.es, ?cx, ?di, fun r hr => (regs r hr).trans (h.regs r hr),
    fun _ => ended, fun j hj => ?inside, fun a ha => ?outside⟩
  case cx => rw [cx, h.cx, succ, sub_sub]
  case di => rw [di, h.di, succ, add_assoc]
  case inside =>
    rw [State.read8, memory]
    split
    · rfl
    · next ha => exact h.inside j (lt_of_le_of_ne (Nat.le_of_lt_succ hj) fun hjk => ha (hjk ▸ rfl))
  case outside =>
    rw [memory, if_neg (ha k (Nat.lt_succ_self k))]
    exact h.outside a fun j hj => ha j (Nat.lt_succ_of_lt hj)

/-- While the count lasts, every iteration completes and fills one byte more. -/
theorem rep_stosb_fills {s : State} (hz : s.repeatWith = some .f3) (hDF : s.flags.DF = false) {k : Nat}
    (hk : k ≤ s.gpr.cx.toNat) :
    ∃ t, (fun r => andThen r (exec (.stos .byte)))^[k] (.next s) = .next t ∧ Filled s k t := by
  induction k with
  | zero => exact ⟨s, rfl, .zero hz⟩
  | succ k ih =>
    obtain ⟨t, ht, filled⟩ := ih (Nat.le_of_succ_le hk)
    have more : t.gpr.cx ≠ 0 := by
      rw [filled.cx]
      bv_omega
    obtain ⟨u, hu, filled⟩ := filled.iteration hDF more
    exact ⟨u, by rw [Function.iterate_succ_apply', ht, andThen_next, hu], filled⟩

/-- Settles O29: the CX iterations of the induction, of which the last finds the count used up. -/
theorem repStosFills : Obligations.RepStosFills := by
  intro s hz hDF hc
  obtain ⟨t, ht, filled⟩ := rep_stosb_fills hz hDF le_rfl
  have all : BitVec.ofNat 16 s.gpr.cx.toNat = s.gpr.cx := by rw [BitVec.ofNat_toNat, BitVec.setWidth_eq]
  have used : t.gpr.cx = 0 := by rw [filled.cx, all, sub_self]
  have positive : 0 < s.gpr.cx.toNat := by bv_omega
  exact ⟨t, ht, used, filled.ended positive used, filled.di.trans (by rw [all]), filled.regs, filled.flags, filled.inside,
    filled.outside⟩

end Sys2Proof.Machine
end

section
/-! PROOFS. The control transfers: conditional jumps, jumps and loops, calls and returns, software interrupts and IRET
(`44_control_transfer.md` R350 to R387, `60_exceptions.md` R504, R505, R512). -/

namespace Sys2Proof.Machine

open Sys2Proof

/-! ## The words on the stack (`20_memory.md` R81) -/

/-- A push leaves every word of the stack segment that shares no byte with the word pushed. -/
theorem State.read16_push16_apart (s : State) (v : Word) {o : Word} (h0 : o ≠ s.gpr.sp - 2) (h1 : o ≠ s.gpr.sp - 2 + 1)
    (h2 : o + 1 ≠ s.gpr.sp - 2) : (s.push16 v).read16 s.segs.ss o = s.read16 s.segs.ss o :=
  (s.setReg16 .sp (s.gpr.sp - 2)).read16_write16_apart s.segs.ss (s.gpr.sp - 2) v o h0 h1 h2

/-- Two pushes: the second word stands four bytes below the old top. -/
theorem State.read16_push16_second (s : State) (v w : Word) :
    ((s.push16 v).push16 w).read16 s.segs.ss (s.gpr.sp - 4) = w := by
  have top := (s.push16 v).read16_push16 w
  rwa [State.push16_segs, State.push16_gpr, Gprs.set_sp_sp, sub_sub] at top

/-- The first of two words pushed is not hit by the second. -/
theorem State.read16_push16_first (s : State) (v w : Word) :
    ((s.push16 v).push16 w).read16 s.segs.ss (s.gpr.sp - 2) = v := by
  refine ((s.push16 v).read16_push16_apart w ?_ ?_ ?_).trans (s.read16_push16 v) <;>
    rw [State.push16_gpr, Gprs.set_sp_sp] <;> bv_omega

/-- Two pushes leave the word that was on top. -/
theorem State.read16_two_pushes (s : State) (v w : Word) :
    ((s.push16 v).push16 w).read16 s.segs.ss s.gpr.sp = s.read16 s.segs.ss s.gpr.sp := by
  refine ((s.push16 v).read16_push16_apart w ?_ ?_ ?_).trans
      (s.read16_push16_apart v (by bv_omega) (by bv_omega) (by bv_omega)) <;>
    rw [State.push16_gpr, Gprs.set_sp_sp] <;> bv_omega

/-- Where only SP was written, no other general register differs. -/
theorem SameRegsBut.of_set_sp {s t : State} {v : Word} (h : t.gpr = s.gpr.set v .sp) : SameRegsBut [.sp] s t := by
  intro r hr
  rw [State.reg16, h]
  exact s.gpr.get_set_ne v (mt List.mem_singleton.mpr hr)

/-! ## CALL and RET (R351 to R354, R386, R387) -/

section CallsAndReturns
variable {i : Instr} {s : State}

/-- A near call: IP_next is pushed, then IP is the target (R351, R352). -/
theorem near_call {target : Word} (h : exec i s = .next ((s.push16 s.ip).withIp target)) :
    ∃ t, exec i s = .next t ∧ t.ip = target ∧ t.segs = s.segs ∧ t.gpr.sp = s.gpr.sp - 2 ∧ SameRegsBut [.sp] s t ∧
      t.read16 s.segs.ss (s.gpr.sp - 2) = s.ip ∧ SameMemoryBut s.pushBytes s t ∧ t.flags = s.flags :=
  ⟨_, h, rfl, rfl, rfl, .of_set_sp rfl, s.read16_push16 s.ip, (Confined.push16 s s.ip).frame, rfl⟩

/-- A far call: CS and then IP_next are pushed, then both are loaded (R353, R354). -/
theorem far_call {ip cs : Word} (h : exec i s = .next (((s.push16 s.segs.cs).push16 s.ip).jumpFar cs ip)) :
    ∃ t, exec i s = .next t ∧ t.ip = ip ∧ t.segs = { s.segs with cs := cs } ∧ t.gpr.sp = s.gpr.sp - 4 ∧
      SameRegsBut [.sp] s t ∧ t.read16 s.segs.ss (s.gpr.sp - 2) = s.segs.cs ∧
      t.read16 s.segs.ss (s.gpr.sp - 4) = s.ip ∧ SameMemoryBut s.farFrame s t ∧ t.flags = s.flags :=
  ⟨_, h, rfl, rfl, sub_sub s.gpr.sp 2 2, .of_set_sp (v := s.gpr.sp - 2 - 2) rfl, s.read16_push16_first _ _,
    s.read16_push16_second _ _, (Confined.farFrame s _ _).frame, rfl⟩

theorem State.discard_zero (s : State) : s.discard 0 = s := by
  have gpr : s.gpr.set (s.gpr.sp + 0) .sp = s.gpr := by rw [add_zero]; exact s.gpr.set_self .sp
  rw [State.discard, State.setReg16, gpr]

/-- A near return: IP is popped, then the pop value is added to SP (R386). -/
theorem near_return {k : Word} (h : exec i s = .next ((s.drop16.withIp s.top16).discard k)) :
    ∃ t, exec i s = .next t ∧ t.ip = s.read16 s.segs.ss s.gpr.sp ∧ t.segs = s.segs ∧ t.gpr.sp = s.gpr.sp + 2 + k ∧
      SameRegsBut [.sp] s t ∧ t.mem = s.mem ∧ t.flags = s.flags :=
  ⟨_, h, rfl, rfl, rfl, .of_set_sp (v := s.gpr.sp + 2 + k) rfl, rfl, rfl⟩

/-- A far return: IP and CS are popped, then the pop value is added to SP (R387). -/
theorem far_return {k : Word} (h : exec i s = .next ((s.drop16.drop16.jumpFar s.drop16.top16 s.top16).discard k)) :
    ∃ t, exec i s = .next t ∧ t.ip = s.read16 s.segs.ss s.gpr.sp ∧
      t.segs = { s.segs with cs := s.read16 s.segs.ss (s.gpr.sp + 2) } ∧ t.gpr.sp = s.gpr.sp + 4 + k ∧
      SameRegsBut [.sp] s t ∧ t.mem = s.mem ∧ t.flags = s.flags :=
  ⟨_, h, rfl, rfl, congrArg (· + k) (add_assoc s.gpr.sp 2 2),
    .of_set_sp (v := s.gpr.sp + 2 + 2 + k) rfl, rfl, rfl⟩

end CallsAndReturns

/-- Settles O33: each form is a near or far call of a target read first, or a near or far return with a pop value, 0 for none. -/
theorem callsAndReturns : Obligations.CallsAndReturns := by
  intro s inc ip cs n rm m
  refine ⟨fun i target hi => ?near, fun i newIp newCs hi => ?far, fun i k hi => ?nearReturn, fun i k hi => ?farReturn⟩
  case near => rcases List.mem_pair.mp hi with hi | hi <;> cases hi <;> exact near_call rfl
  case far => rcases List.mem_pair.mp hi with hi | hi <;> cases hi <;> exact far_call rfl
  case nearReturn =>
    rcases List.mem_pair.mp hi with hi | hi <;> cases hi
    · exact near_return (by rw [State.discard_zero]; rfl)
    · exact near_return rfl
  case farReturn =>
    rcases List.mem_pair.mp hi with hi | hi <;> cases hi
    · exact far_return (by rw [State.discard_zero]; rfl)
    · exact far_return rfl

/-! ## IRET (R357, `60_exceptions.md` R512) -/

/-- The return from an interrupt loads three words from the top of the stack and raises SP by 6. -/
theorem State.interruptReturn_eq (s : State) :
    s.interruptReturn =
      { s with
        gpr := s.gpr.set (s.gpr.sp + 6) .sp
        segs := { s.segs with cs := s.read16 s.segs.ss (s.gpr.sp + 2) }
        ip := s.read16 s.segs.ss s.gpr.sp
        flags := Flags.ofWord (s.read16 s.segs.ss (s.gpr.sp + 4))
        staleCode := [] } := by
  have third : s.gpr.sp + 4 = s.gpr.sp + 2 + 2 := (add_assoc s.gpr.sp 2 2).symm
  have above : s.gpr.sp + 6 = s.gpr.sp + 2 + 2 + 2 := by rw [add_assoc, add_assoc]; rfl
  rw [third, above]
  rfl

/-- The interrupt sequence after its first push: the flags are stored, IF and TF cleared (`60_exceptions.md` R508). -/
def State.flagsPushed (s : State) : State :=
  (s.push16 (s.flags.word (Config.undefFlagBits s.draws))).nextDraw.withFlags { s.flags with IF := false, TF := false }

theorem State.framed_eq (s : State) : s.framed = (s.flagsPushed.push16 s.segs.cs).push16 s.ip := rfl

/-! The three words an interrupt sequence leaves on the stack. -/

theorem State.interrupt_saves_ip (s : State) (n : Byte) : (s.interrupt n).read16 s.segs.ss (s.gpr.sp - 6) = s.ip := by
  have word := s.flagsPushed.read16_push16_second s.segs.cs s.ip
  have place : s.flagsPushed.gpr.sp - 4 = s.gpr.sp - 6 := sub_sub s.gpr.sp 2 4
  rwa [place] at word

theorem State.interrupt_saves_cs (s : State) (n : Byte) :
    (s.interrupt n).read16 s.segs.ss (s.gpr.sp - 4) = s.segs.cs := by
  have word := s.flagsPushed.read16_push16_first s.segs.cs s.ip
  have place : s.flagsPushed.gpr.sp - 2 = s.gpr.sp - 4 := sub_sub s.gpr.sp 2 2
  rwa [place] at word

theorem State.interrupt_saves_flags (s : State) (n : Byte) :
    (s.interrupt n).read16 s.segs.ss (s.gpr.sp - 2) = s.flags.word (Config.undefFlagBits s.draws) :=
  calc (s.interrupt n).read16 s.segs.ss (s.gpr.sp - 2)
    _ = ((s.flagsPushed.push16 s.segs.cs).push16 s.ip).read16 s.segs.ss s.flagsPushed.gpr.sp := rfl
    _ = s.flagsPushed.read16 s.segs.ss s.flagsPushed.gpr.sp := State.read16_two_pushes _ _ _
    _ = s.flags.word (Config.undefFlagBits s.draws) := s.read16_push16 _

/-- The return undoes the sequence (`60_exceptions.md` R512), but that a flag that was `undef` is defined then (log 1). -/
theorem State.interruptReturn_interrupt (s : State) (n : Byte) :
    (s.interrupt n).interruptReturn.ip = s.ip ∧ (s.interrupt n).interruptReturn.segs = s.segs ∧
      (s.interrupt n).interruptReturn.flags = s.flags.defined ∧ (s.interrupt n).interruptReturn.gpr = s.gpr := by
  have sp : (s.interrupt n).gpr.sp = s.gpr.sp - 6 := congrArg Gprs.sp (s.interrupt_gpr n)
  have second : s.gpr.sp - 6 + 2 = s.gpr.sp - 4 := by bv_omega
  have third : s.gpr.sp - 6 + 4 = s.gpr.sp - 2 := by bv_omega
  have ss : (s.interrupt n).segs.ss = s.segs.ss := rfl
  rw [State.interruptReturn_eq, ss, sp, second, third, s.interrupt_saves_ip, s.interrupt_saves_cs, s.interrupt_saves_flags,
    Flags.ofWord_word, sub_add_cancel, State.interrupt_gpr, Gprs.set_set]
  exact ⟨rfl, rfl, rfl, s.gpr.set_self .sp⟩

/-- Settles O37: the words IRET loads are those on top of the stack, and after an interrupt those are the ones it pushed. -/
theorem iretRestores : Obligations.IretRestores := by
  refine fun s n => ⟨⟨s.interruptReturn, rfl, ?words⟩, ⟨(s.interrupt n).interruptReturn, rfl, s.interruptReturn_interrupt n⟩⟩
  case words =>
    rw [State.interruptReturn_eq]
    exact ⟨rfl, rfl, rfl, rfl, .of_set_sp rfl, rfl⟩

/-! ## Branches (R350, R358) -/

theorem State.branchIf_iff (s : State) {cond : Bool} {p : Prop} [Decidable p] (hp : cond = true ↔ p) (d : Byte) :
    s.branchIf cond d = if p then s.jumped d else s := by
  rw [State.branchIf, State.branch_sextByte]
  exact if_congr hp rfl rfl

theorem Flags.readsUndef_eq_false_iff {f : Flags} {reads : List FlagName} :
    f.readsUndef reads = false ↔ ∀ name ∈ reads, f.isUndef name = false := by
  simp only [Flags.readsUndef, List.any_eq_false, Bool.not_eq_true]

theorem Flags.readsUndef_eq_true_iff {f : Flags} {reads : List FlagName} :
    f.readsUndef reads = true ↔ ∃ name ∈ reads, f.isUndef name = true := List.any_eq_true

theorem Flags.readsUndef_singleton (f : Flags) (name : FlagName) : f.readsUndef [name] = f.isUndef name := Bool.or_false _

/-- A conditional jump that reads an `undef` flag draws its choice (log 1). -/
theorem State.jumpIf_undef {s : State} {reads : List FlagName} (h : s.flags.readsUndef reads = true) (cond : Bool) (d : Byte) :
    s.jumpIf reads cond d = if Config.undefChoice s.draws then s.nextDraw.jumped d else s.nextDraw := by
  rw [State.jumpIf, State.chosen_undef h, State.choose_undef h, State.branchIf_iff _ Iff.rfl]

/-- Settles O31: each jump is the common form `jumpIf` with its own flags and condition. -/
theorem conditionalJumps : Obligations.ConditionalJumps := by
  intro s d
  -- the conditions of JG and JA as the model writes them (R366, R359)
  rw [greater_condition, Bool.not_or s.flags.CF]
  refine ⟨fun i reads cond hi => ?common, congrArg Host.Outcome.next (s.branchIf_iff beq_iff_eq d)⟩
  have form : exec i s = .next (s.jumpIf reads cond d) := by
    fin_cases hi <;> rfl
  rw [form, ← Flags.readsUndef_eq_false_iff, ← Flags.readsUndef_eq_true_iff]
  exact ⟨fun defined => congrArg Host.Outcome.next (State.jumpIf_iff defined Iff.rfl d),
    fun undef => ⟨Config.undefChoice s.draws, congrArg Host.Outcome.next (State.jumpIf_undef undef cond d)⟩⟩

/-! ## LOOP, LOOPE and LOOPNE (R383 to R385) -/

theorem loop_goes_on_iff (cx : Word) : (cx - 1 != 0) = true ↔ cx ≠ 1 := by rw [cx_sub_one_ne_zero, bne_iff_ne]

section Loops
variable {i : Instr} {s : State} {cond : Bool} {d : Byte}
  (h : exec i s = .next ((s.chosen [.ZF]).countDown.branchIf (s.gpr.cx - 1 != 0 && s.choose [.ZF] cond) d))
include h

/-- LOOPE and LOOPNE with ZF defined. -/
theorem loop_defined {p : Prop} [Decidable p] (defined : s.flags.undef.ZF = false) (hp : cond = true ↔ p) :
    exec i s = .next (if s.gpr.cx ≠ 1 ∧ p then s.countDown.jumped d else s.countDown) := by
  have reads := (s.flags.readsUndef_singleton .ZF).trans defined
  rw [h, State.chosen_defined reads, State.choose_defined reads,
    State.branchIf_iff _ (Bool.and_eq_true_iff.trans (and_congr (loop_goes_on_iff s.gpr.cx) hp))]

/-- LOOPE and LOOPNE with ZF `undef` (log 1). -/
theorem loop_undef (undef : s.flags.undef.ZF = true) :
    ∃ c : Bool, exec i s = .next
      { (if s.gpr.cx ≠ 1 ∧ c = true then s.countDown.jumped d else s.countDown) with draws := s.draws + 1 } := by
  have reads := (s.flags.readsUndef_singleton .ZF).trans undef
  refine ⟨Config.undefChoice s.draws, ?_⟩
  rw [h, State.chosen_undef reads, State.choose_undef reads,
    State.branchIf_iff _ (Bool.and_eq_true_iff.trans (and_congr_left' (loop_goes_on_iff s.gpr.cx)))]
  split <;> rfl

end Loops

/-- Settles O32: JMP is its target, and the loops count down and branch as `loop_defined` and `loop_undef` say. -/
theorem jumpsAndLoops : Obligations.JumpsAndLoops := by
  intro s inc d ip cs rm m
  refine ⟨rfl, congrArg Host.Outcome.next (s.branch_sextByte d), rfl, rfl, rfl,
    congrArg Host.Outcome.next (s.countDown.branchIf_iff (loop_goes_on_iff s.gpr.cx) d),
    fun defined => ⟨loop_defined rfl defined Iff.rfl, loop_defined rfl defined (Bool.not_eq_true' _).to_iff⟩,
    fun undef i hi => ?_⟩
  rcases List.mem_pair.mp hi with rfl | rfl <;> exact loop_undef rfl undef

/-! ## INT 3, INT n and INTO (R355, R356) -/

/-- Settles O35: INTO is taken on the choice that reads OF. -/
theorem softwareInterrupts : Obligations.SoftwareInterrupts := by
  refine fun s n => ⟨rfl, rfl, fun defined => ?defined, fun undef => ⟨Config.undefChoice s.draws, ?undef⟩⟩ <;>
    refine congrArg Host.Outcome.next ?_
  case defined =>
    have reads := (s.flags.readsUndef_singleton .OF).trans defined
    rw [State.chosen_defined reads, State.choose_defined reads]
  case undef =>
    have reads := (s.flags.readsUndef_singleton .OF).trans undef
    rw [State.chosen_undef reads, State.choose_undef reads]
    rfl

end Sys2Proof.Machine
end

section
/-! PROOFS. Processor control: the flag instructions, HLT, WAIT, STI and ESC, and how a halt holds and ends
(`45_processor_control.md` R420 to R431, `60_exceptions.md` R503, R506, R519). -/

namespace Sys2Proof.Machine

open Sys2Proof

/-! ## The halt (R425, `60_exceptions.md` R519) -/

/-- A step of a halted processor is one look at the requests, without single-step. -/
theorem step_of_halted {s : State} (hl : s.lines.reset = none) (hh : s.halted = true) :
    step s = .next (s.latchNmi.recognise false).nextSample := by
  have halted : s.latchNmi.halted = true := hh
  simp only [step, hl, State.advance, State.runDue, halted, if_true, andThen_next]
  rfl

/-- Without an edge on NMI nothing is remembered anew (`60_exceptions.md` R503). -/
theorem State.latchNmi_no_edge {s : State} (h : s.lines.nmi = false) : s.latchNmi = s := by
  rw [State.latchNmi, h, Bool.or_false]

theorem State.latchNmi_pending {s : State} (h : s.nmiPending = true ∨ s.lines.nmi = true) :
    s.latchNmi.nmiPending = true := (Bool.or_eq_true _ _).mpr h

/-- An interrupt taken where nothing is held is the sequence at this very state, and ends the halt. -/
theorem State.enter_idle {s : State} (hr : s.repeating = none) (hw : s.waiting = false) (n : Byte) :
    s.enter n = { s.interrupt n with halted := false } := by
  rw [State.enter, State.resumePoint_idle hr hw]

/-- Settles O58: the look at the requests of a halted step, by what is requested. -/
theorem haltHoldsUntilAnInterrupt : Obligations.HaltHoldsUntilAnInterrupt := by
  intro s hh hw hr hwin hl hlate
  obtain ⟨-, nmi, intr, quiet⟩ := State.recognise_by_request (s := s.latchNmi) hlate false
  have notAll : s.latchNmi.window ≠ .all := fun h => nomatch hwin.symm.trans h
  refine ⟨fun hp he hi => ?quiet, fun h => ?nmi, fun n hp he hi hn => ?intr⟩ <;> rw [step_of_halted hl hh]
  case quiet =>
    rw [State.latchNmi_no_edge he] at quiet ⊢
    rw [quiet notAll hp (hi.imp_right .inr)]
    rfl
  case nmi =>
    rw [nmi notAll (State.latchNmi_pending h), State.enter_idle (s := { s.latchNmi with nmiPending := false }) hr hw]
    rfl
  case intr =>
    rw [State.latchNmi_no_edge he] at intr ⊢
    rw [intr n hwin hp hi hn, State.enter_idle hr hw]
    rfl

/-! ## The flag instructions (R420 to R423, R428, R429) -/

/-- An opcode whose entry is an instruction without operands is all of that instruction. -/
theorem decode_one {b : Byte} {i : Instr} (h : layout b = one i) (rest : List Byte) : decode (b :: rest) = .ok (i, rest) := by
  rw [decode_plain h, Tail.parse_done]

/-- Settles O38: six entries of the opcode map, and six updates of the flags. -/
theorem flagInstructions : Obligations.FlagInstructions := by
  refine ⟨fun rest => ?encodings, fun s => ⟨rfl, rfl, rfl, rfl, rfl, rfl⟩⟩
  simp only [List.map_cons, List.map_nil, List.cons.injEq, and_true]
  and_intros <;> exact decode_one rfl rest

/-! ## HLT, WAIT, STI and ESC (R424, R425, R427, R430, R431) -/

theorem exec_wait (s : State) : exec .wait s = .next { s with waiting := !s.lines.test } := rfl

theorem exec_sti (s : State) :
    exec .sti s = .next (if s.flags.IF then s else (s.withFlags { s.flags with IF := true }).openWindow .intr) := rfl

/-- Settles O39: WAIT by the level of TEST, STI by IF, ESC by its operand; NOP and HLT have one case each. -/
theorem processorControl : Obligations.ProcessorControl := by
  refine fun s op r m => ⟨rfl, rfl, fun active => ?release, fun inactive => ?hold, fun enabled => ?noWindow,
    fun masked => ?window, rfl, rfl⟩
  case release => rw [exec_wait, active]; rfl
  case hold => rw [exec_wait, inactive]; rfl
  case noWindow => rw [exec_sti, if_pos enabled]
  case window => rw [exec_sti, masked]; rfl

end Sys2Proof.Machine
end

section
/-! PROOFS. Interrupts: what the sequence saves and where it goes, what is held off, the order of acceptance, and the IP saved in
each place; and that a step never faults (`60_exceptions.md` R506 to R511). -/

namespace Sys2Proof.Machine

open Sys2Proof

/-! ## A step never faults (R507) -/

/-- What can be wrong with the instruction that is due: its encoding, a stale byte or its repeat byte. -/
theorem State.due_error {s : State} {e : Refusal} (h : s.due = .error e) :
    (∃ d, e = .undecoded d) ∨ e = .meaninglessRepeat ∨ e = .storeIntoPrefetch := by
  unfold State.due at h
  split at h
  · cases h
  · split at h
    · cases h
    · split at h
      · next d hd => cases h; exact .inl ⟨d, rfl⟩
      · split at h
        · cases h; exact .inr (.inr rfl)
        · split at h
          · cases h; exact .inr (.inl rfl)
          · cases h

/-- `r` is a next state, or it is refused as what is due in `s` is. -/
def State.RefusesOnlyDue (s : State) (r : Result) : Prop :=
  (∃ t, r = .next t) ∨ ∃ e, s.due = .error e ∧ r = .refused e

/-- What always goes on to a next state adds no refusal. -/
theorem State.RefusesOnlyDue.then_next {s : State} {r : Result} (h : s.RefusesOnlyDue r) (k : State → State) :
    s.RefusesOnlyDue (andThen r fun t => .next (k t)) := by
  rcases h with ⟨t, rfl⟩ | ⟨e, hd, rfl⟩
  · exact .inl ⟨k t, rfl⟩
  · exact .inr ⟨e, hd, rfl⟩

/-- An instruction that is due has a next state (`exec_stores`), so running it refuses nothing. -/
theorem State.runDue_refusesOnlyDue (s : State) (boundary : Option Instr → State → State) :
    s.RefusesOnlyDue (s.runDue boundary) := by
  unfold State.runDue
  split
  · exact .inl ⟨_, rfl⟩
  · split
    · next e hd => exact .inr ⟨e, hd, rfl⟩
    · next i b hd =>
      obtain ⟨t, ht, -⟩ := exec_stores i (b.assertLock i)
      rw [ht]
      exact .inl ⟨boundary (some i) t, rfl⟩

theorem State.cutShort_refusesOnlyDue (s : State) (m : ResetMoment) : s.RefusesOnlyDue (s.cutShort m) := by
  cases m with
  | before => exact .inl ⟨s, rfl⟩
  | inInstruction c => exact s.runDue_refusesOnlyDue fun _ t => s.cut t c
  | inBoundary c => exact s.runDue_refusesOnlyDue fun i t => t.cut (s.boundary i t) c

/-- With RESET or without, a step refuses only what is due. -/
theorem step_refusesOnlyDue (s : State) : s.latchNmi.RefusesOnlyDue (step s) := by
  unfold step
  split
  · next m hm => exact (s.latchNmi.cutShort_refusesOnlyDue m).then_next fun t => t.resetLine.nextSample
  · exact (s.latchNmi.runDue_refusesOnlyDue s.latchNmi.boundary).then_next State.nextSample

/-- Settles O54: `step_refusesOnlyDue`, with the three refusals of what is due. -/
theorem stepsNeverFault : Obligations.StepsNeverFault := by
  intro s
  rcases step_refusesOnlyDue s with next | ⟨e, hd, he⟩
  · exact .inl next
  · rcases State.due_error hd with ⟨d, rfl⟩ | rfl | rfl
    · exact .inr (.inl ⟨d, he⟩)
    · exact .inr (.inr (.inl he))
    · exact .inr (.inr (.inr he))

/-! ## The interrupt sequence (R508) -/

/-- The vector of type `n` stands at physical `4 * n` (`20_memory.md` R73); `k` counts its four bytes. -/
theorem phys_vector (n : Byte) {k : Nat} (hk : k < 4) :
    phys 0 (vectorOffset n + BitVec.ofNat 16 k) = BitVec.ofNat 20 (4 * n.toNat + k) := by
  have := n.isLt
  have offset : (vectorOffset n + BitVec.ofNat 16 k).toNat = 4 * n.toNat + k := by
    rw [vectorOffset, zextByte]
    bv_omega
  rw [phys, offset]
  simp

/-- A word of the vector table is its two bytes, the low one first (`20_memory.md` R66). -/
theorem State.read16_vector (s : State) (n : Byte) {k : Nat} (hk : k < 3) :
    (s.read16 0 (vectorOffset n + BitVec.ofNat 16 k)).toNat =
      (s.byteAt (BitVec.ofNat 20 (4 * n.toNat + k))).toNat +
        256 * (s.byteAt (BitVec.ofNat 20 (4 * n.toNat + (k + 1)))).toNat := by
  have next : vectorOffset n + BitVec.ofNat 16 k + 1 = vectorOffset n + BitVec.ofNat 16 (k + 1) := by
    rw [add_assoc, BitVec.ofNat_add]; rfl
  rw [State.read16, wordOf_toNat, State.read8, State.read8, next, phys_vector n (Nat.lt_succ_of_lt hk),
    phys_vector n (Nat.succ_lt_succ hk), add_comm, mul_comm _ 256]

/-- Where the sequence goes on: IP and CS are the vector as it is after the pushes. -/
theorem State.interrupt_ip (s : State) (n : Byte) : (s.interrupt n).ip = (s.interrupt n).read16 0 (vectorOffset n) := rfl

theorem State.interrupt_cs (s : State) (n : Byte) :
    (s.interrupt n).segs.cs = (s.interrupt n).read16 0 (vectorOffset n + 2) := rfl

theorem State.interrupt_segs (s : State) (n : Byte) :
    (s.interrupt n).segs = s.segs.set ((s.interrupt n).read16 0 (vectorOffset n + 2)) .cs := rfl

/-- Settles O36: the three words saved, the vector read after the pushes, and the frame. -/
theorem interruptSequence : Obligations.InterruptSequence := by
  intro s n
  have sp : (s.interrupt n).gpr.sp = s.gpr.sp - 6 := congrArg Gprs.sp (s.interrupt_gpr n)
  have flags : Flags.ofWord ((s.interrupt n).read16 s.segs.ss (s.gpr.sp - 2)) = s.flags.defined := by
    rw [State.interrupt_saves_flags, Flags.ofWord_word]
  have ip := (s.interrupt n).read16_vector n (k := 0) (by decide)
  have cs := (s.interrupt n).read16_vector n (k := 2) (by decide)
  have segs : ∀ q, q ≠ .cs → (s.interrupt n).sreg q = s.sreg q := fun q hq => by
    rw [State.sreg, State.interrupt_segs, SegRegs.get_set, if_neg hq, State.sreg]
  rw [BitVec.add_zero, ← State.interrupt_ip] at ip
  exact ⟨sp, .of_set_sp (s.interrupt_gpr n), s.interrupt_saves_ip n, s.interrupt_saves_cs n, flags, s.interrupt_flags n, ip, cs,
    segs, fun _ ha => s.byteAt_interrupt_ne n ha⟩

/-! ## What the window and IF hold off (R506, R511) -/

/-- Settles O55: a segment load holds off the whole recognition point, STI and IF = 0 the only request there can be. -/
theorem windowHoldsOff : Obligations.WindowHoldsOff := by
  refine fun s tf => ⟨fun hw => State.recognise_all hw tf, fun hw hn hl => ?sti, fun hi hw hn hl => ?masked⟩ <;>
    obtain ⟨-, -, -, idle⟩ := State.recognise_by_request hl false
  case sti => exact idle (by simp [hw]) hn (.inr (.inl hw))
  case masked => exact idle hw hn (.inl hi)

/-! ## The order of acceptance (R510) -/

/-- The processor is between two instructions: no repetition is under way and WAIT does not hold. -/
structure State.Between (s : State) : Prop where
  repeating : s.repeating = none
  waiting : s.waiting = false

theorem State.Between.enter {s : State} (h : s.Between) (n : Byte) : s.enter n = { s.interrupt n with halted := false } :=
  State.enter_idle h.repeating h.waiting n

/-- A sequence taken there starts the handler, which is between two instructions too. -/
theorem State.Between.after_enter {s : State} (h : s.Between) (n : Byte) : (s.enter n).Between := by
  rw [h.enter]
  exact ⟨h.repeating, h.waiting⟩

theorem State.Between.recogniseExternal {s : State} (h : s.Between) : s.recogniseExternal.Between := by
  unfold State.recogniseExternal
  split
  · exact State.Between.after_enter (s := { s with nmiPending := false }) ⟨h.repeating, h.waiting⟩ 2
  · split
    · exact h.after_enter _
    · exact h

theorem State.Between.recogniseSingleStep {s : State} (h : s.Between) (tf : Bool) : (s.recogniseSingleStep tf).Between := by
  cases tf with
  | false => exact h
  | true => exact h.after_enter 1

/-- Steps 3 and 4 of R510 between two instructions, where `late` says whether an edge on NMI came meanwhile (log 25). -/
def State.thenStepAndLateNmi (tf late : Bool) (u : State) : State :=
  let v := if tf then { u.interrupt 1 with halted := false } else u
  if late then { ({ v with nmiPending := false }).interrupt 2 with halted := false } else v

/-- A recognition point that a segment load does not hold off is steps 1 and 2, then steps 3 and 4. -/
theorem State.Between.recognise {s : State} (h : s.Between) (hw : s.window ≠ .all) (tf : Bool) :
    s.recognise tf = s.recogniseExternal.thenStepAndLateNmi tf s.lines.nmiLate := by
  have trapped : s.recogniseExternal.recogniseSingleStep tf =
      if tf then { s.recogniseExternal.interrupt 1 with halted := false } else s.recogniseExternal := by
    rw [State.recogniseSingleStep, h.recogniseExternal.enter]
  have between := h.recogniseExternal.recogniseSingleStep tf
  have inputs : (s.recogniseExternal.recogniseSingleStep tf).inputs = s.inputs := by
    rw [State.recogniseSingleStep_inputs, State.recogniseExternal_inputs]
  rw [State.recognise_open hw, State.recogniseLateNmi, State.lines, inputs, ← State.lines, State.enterNmi,
    State.enter_idle (s := { s.recogniseExternal.recogniseSingleStep tf with nmiPending := false })
      between.repeating between.waiting, trapped]
  rfl

/-- Settles O56: steps 1 and 2 by what is requested, then `thenStepAndLateNmi`. -/
theorem orderOfAcceptance : Obligations.OrderOfAcceptance := by
  intro s n tf hw hr hwait
  have between : s.Between := ⟨hr, hwait⟩
  refine ⟨fun hn => ?nmi, fun hn hi hclosed hq => ?intr, fun hn h => ?none⟩ <;> rw [between.recognise hw]
  case nmi =>
    rw [State.recogniseExternal_nmi hn, State.enter_idle (s := { s with nmiPending := false }) hr hwait]
    rfl
  case intr =>
    rw [State.recogniseExternal_intr hn hi hclosed hq, between.enter]
    rfl
  case none =>
    rw [State.recogniseExternal_none hn h]
    rfl

/-! ## The IP that is saved, by the place (R509, `43_string.md` R339, `45_processor_control.md` R431) -/

theorem State.clearPrefixes_eq (s : State) :
    s.clearPrefixes =
      { s with
        segOverride := none, repeatWith := none, lockPrefix := false
        events := if s.lockOutput then .lock false :: s.events else s.events } := by
  rw [State.clearPrefixes, State.setLock_false]

/-- Finding the IP to save touches neither the stack nor the stack pointer. -/
theorem State.resumePoint_stack (s : State) : s.resumePoint.segs = s.segs ∧ s.resumePoint.gpr = s.gpr := by
  unfold State.resumePoint
  split <;> [exact ⟨rfl, rfl⟩; split <;> exact ⟨rfl, rfl⟩]

/-- The word on top of the handler's stack is the IP to resume at. -/
theorem State.enter_saves_ip (s : State) (n : Byte) :
    (s.enter n).read16 s.segs.ss (s.gpr.sp - 6) = s.resumePoint.ip := by
  obtain ⟨segs, gpr⟩ := s.resumePoint_stack
  have saved := s.resumePoint.interrupt_saves_ip n
  rwa [segs, gpr] at saved

/-- Settles O57: the three cases of `resumePoint`. -/
theorem savedIpByCause : Obligations.SavedIpByCause := by
  intro s n ended
  refine ⟨fun i hr => ?repeating, fun hr hw => ?waiting, fun hr hw => ?between, s.enter_halted n⟩
  case repeating =>
    have resume : s.resumePoint = ended (s.ip - 2) := by
      rw [State.resumePoint_repeating hr, State.clearPrefixes_eq]
    rw [State.enter_saves_ip, State.enter, resume]
    exact ⟨rfl, rfl, rfl, rfl⟩
  case waiting =>
    have resume : s.resumePoint = { ended s.ipStart with waiting := false } := by
      simp only [State.resumePoint_waiting hr hw, State.clearPrefixes_eq, hr, ended]
    rw [State.enter_saves_ip, State.enter, resume]
    exact ⟨rfl, rfl, rfl, rfl⟩
  case between =>
    refine ⟨State.enter_idle hr hw n, ?_⟩
    rw [State.enter_saves_ip, State.resumePoint_idle hr hw]

end Sys2Proof.Machine
end

section
/-! PROOFS. RESET at power-on and at any moment of a step, and a call undone by its return (`10_state.md` R36, R37,
`70_reset_and_hazards.md` R560, R561, R566, `44_control_transfer.md` R351 to R354, R386, R387). -/

namespace Sys2Proof.Machine

open Sys2Proof

/-! ## The values after RESET (R561, `10_state.md` R37) -/

theorem Flags.get_cleared (f : FlagName) : Flags.cleared.get f = false ∧ Flags.cleared.isUndef f = false := by
  cases f <;> exact ⟨rfl, rfl⟩

/-- Settles O1: the fields of the reset state; its flags by `Flags.get_cleared`. -/
theorem resetStateAsGiven : Obligations.ResetStateAsGiven :=
  ⟨Flags.get_cleared, rfl, rfl, rfl, rfl, rfl, rfl, rfl, rfl, rfl, rfl, rfl, rfl, rfl⟩

/-! ## Where RESET cuts a step short (R560) -/

/-- Storing what `t` holds at the listed addresses: those read as in `t`, and the others as before. -/
theorem Memory.read_foldl_write (t : State) (landed : List Addr) (m : Memory) (a : Addr) :
    (landed.foldl (fun m b => m.write b.toNat (t.byteAt b)) m).read a.toNat =
      if a ∈ landed then t.byteAt a else m.read a.toNat := by
  induction landed generalizing m with
  | nil => rfl
  | cons b landed ih =>
    rw [List.foldl_cons, ih, Memory.read_write]
    by_cases hb : a = b
    · subst hb
      simp
    · simp [hb, BitVec.toNat_inj]

/-- The stores that had landed have been made, and no other. -/
theorem State.byteAt_cut (s t : State) (c : Cut) (a : Addr) :
    (s.cut t c).byteAt a = if a ∈ c.landed then t.byteAt a else s.byteAt a :=
  Memory.read_foldl_write t c.landed s.mem a

theorem State.resetLine_events {s : State} (idle : s.lockOutput = false) : s.resetLine.events = s.events := by
  show (s.setLock false).events = s.events
  rw [State.setLock_self idle]

theorem State.lockOutput_resetLine (s : State) : s.resetLine.lockOutput = false :=
  (State.lockOutput_congr (s := s.setLock false) rfl).trans (s.lockOutput_setLock false)

/-- The instruction that is due, and the state it ends in, do not depend on what follows it. -/
theorem State.runDue_any {s u : State} (h : s.runDue (fun _ t => t) = .next u) :
    ∃ i, ∀ k, s.runDue k = .next (k i u) := by
  rcases State.runDue_next h with ⟨hh, rfl⟩ | ⟨i, b, v, hh, hd, he, rfl⟩
  · exact ⟨none, fun k => by simp only [State.runDue, hh, if_true]⟩
  · exact ⟨some i, fun k => by simp only [State.runDue, hh, hd, he, andThen_next, Bool.false_eq_true, if_false]⟩

/-- RESET in the middle of the instruction: its work is cut. -/
theorem State.cutShort_inInstruction {s u : State} (h : s.runDue (fun _ t => t) = .next u) (c : Cut) :
    s.cutShort (.inInstruction c) = .next (s.cut u c) := by
  obtain ⟨i, ends⟩ := State.runDue_any h
  exact ends fun _ t => s.cut t c

/-- RESET in the middle of the interrupt sequences after the instruction: their work is cut. -/
theorem State.cutShort_inBoundary {s u : State} (h : s.runDue (fun _ t => t) = .next u) (c : Cut) :
    ∃ v, s.advance = .next v ∧ s.cutShort (.inBoundary c) = .next (u.cut v c) := by
  obtain ⟨i, ends⟩ := State.runDue_any h
  exact ⟨s.boundary i u, ends s.boundary, ends fun i t => t.cut (s.boundary i t) c⟩

/-- RESET has a next state before the instruction, and in or after one that is not refused. -/
theorem State.cutShort_answers {s : State} {m : ResetMoment}
    (runs : m ≠ .before → ∃ u, s.runDue (fun _ t => t) = .next u) : ∃ t, s.cutShort m = .next t := by
  cases m with
  | before => exact ⟨s, rfl⟩
  | inInstruction c =>
    obtain ⟨u, hu⟩ := runs nofun
    exact ⟨_, State.cutShort_inInstruction hu c⟩
  | inBoundary c =>
    obtain ⟨u, hu⟩ := runs nofun
    obtain ⟨v, -, hv⟩ := State.cutShort_inBoundary hu c
    exact ⟨_, hv⟩

theorem step_of_reset {s u : State} {m : ResetMoment} (hm : s.lines.reset = some m)
    (hu : s.latchNmi.cutShort m = .next u) : step s = .next u.resetLine.nextSample := by
  simp only [step, hm, hu, andThen_next]

/-- Settles O2: the reset values replace all but memory, which is that of the work as far as it had come (`State.byteAt_cut`). -/
theorem resetLineEndsEverything : Obligations.ResetLineEndsEverything := by
  intro s m hm runs
  obtain ⟨w, hw⟩ := State.cutShort_answers runs
  refine ⟨_, step_of_reset hm hw, Flags.get_cleared, rfl, rfl, rfl, rfl, rfl, rfl, rfl, rfl, rfl, rfl, rfl, rfl,
    w.lockOutput_resetLine, ?before, ?inInstruction, ?inBoundary⟩
  case before =>
    rintro rfl
    cases hw
    exact ⟨rfl, State.resetLine_events (s := s.latchNmi)⟩
  case inInstruction =>
    rintro c u rfl hu a
    have cut : w = s.latchNmi.cut u c := Host.Outcome.next.inj (hw.symm.trans (State.cutShort_inInstruction hu c))
    subst cut
    exact s.latchNmi.byteAt_cut u c a
  case inBoundary =>
    rintro c u v rfl hu hv a
    obtain ⟨v', hv', hc⟩ := State.cutShort_inBoundary hu c
    have same : v' = v := Host.Outcome.next.inj (hv'.symm.trans hv)
    have cut : w = u.cut v c := same ▸ Host.Outcome.next.inj (hw.symm.trans hc)
    subst cut
    exact u.byteAt_cut v c a

/-! ## A return undoes a call (R566) -/

theorem Gprs.ext_get {g h : Gprs} (same : ∀ r, g.get r = h.get r) : g = h := by
  cases g
  cases h
  exact (Gprs.mk.injEq ..).mpr
    ⟨same .ax, same .cx, same .dx, same .bx, same .sp, same .bp, same .si, same .di⟩

/-- Two stretches of work that write SP alone, and leave it where it was, leave every general register. -/
theorem SameRegsBut.gpr_eq {s t u : State} (call : SameRegsBut [.sp] s t) (ret : SameRegsBut [.sp] t u)
    (sp : u.gpr.sp = s.gpr.sp) : u.gpr = s.gpr := by
  refine Gprs.ext_get fun r => ?_
  by_cases hr : r = .sp
  · subst hr
    exact sp
  · have other : r ∉ [Reg16.sp] := mt List.mem_singleton.mp hr
    exact (ret r other).trans (call r other)

section Undoes
variable {i : Instr} {s : State}

/-- Whatever the target of a near call, RET there is back at the caller: the word it pops is the IP pushed. -/
theorem near_return_undoes {target : Word} (h : exec i s = .next ((s.push16 s.ip).withIp target)) :
    ∃ t, exec i s = .next t ∧
      ∃ u, exec .retNear t = .next u ∧ u.ip = s.ip ∧ u.segs = s.segs ∧ u.gpr = s.gpr ∧ u.flags = s.flags := by
  obtain ⟨t, call, -, segs, sp, regs, saved, -, flags⟩ := near_call h
  obtain ⟨u, ret, ip', segs', sp', regs', -, flags'⟩ :=
    near_return (i := .retNear) (s := t) (k := 0) (by rw [State.discard_zero]; rfl)
  refine ⟨t, call, u, ret, ?_, segs'.trans segs, regs.gpr_eq regs' ?_, flags'.trans flags⟩
  · rw [ip', segs, sp, saved]
  · rw [sp', sp, add_zero, sub_add_cancel]

/-- Whatever the target of a far call, far RET there is back at the caller: the words it pops are the IP and the CS pushed. -/
theorem far_return_undoes {ip cs : Word} (h : exec i s = .next (((s.push16 s.segs.cs).push16 s.ip).jumpFar cs ip)) :
    ∃ t, exec i s = .next t ∧
      ∃ u, exec .retFar t = .next u ∧ u.ip = s.ip ∧ u.segs = s.segs ∧ u.gpr = s.gpr ∧ u.flags = s.flags := by
  obtain ⟨t, call, -, segs, sp, regs, savedCs, savedIp, -, flags⟩ := far_call h
  obtain ⟨u, ret, ip', segs', sp', regs', -, flags'⟩ :=
    far_return (i := .retFar) (s := t) (k := 0) (by rw [State.discard_zero]; rfl)
  have second : s.gpr.sp - 4 + 2 = s.gpr.sp - 2 := by bv_omega
  refine ⟨t, call, u, ret, ?_, ?_, regs.gpr_eq regs' ?_, flags'.trans flags⟩
  · rw [ip', segs, sp, savedIp]
  · rw [segs', segs, sp, second, savedCs]
  · rw [sp', sp, add_zero, sub_add_cancel]

end Undoes

/-- Settles O34: each form pushes where to come back to and jumps to a target, and the return undoes that whatever the target. -/
theorem returnUndoesCall : Obligations.ReturnUndoesCall := by
  refine fun s inc ip cs rm m => ⟨fun i hi => ?near, fun i hi => ?far⟩
  case near => rcases List.mem_pair.mp hi with rfl | rfl <;> exact near_return_undoes rfl
  case far => rcases List.mem_pair.mp hi with rfl | rfl <;> exact far_return_undoes rfl

end Sys2Proof.Machine
end
